-- ==== Sys2Proof/Word.lean ====
section
/-! DEFINITION. The widths the spec gives (00_scope.md R5, R7): bit 0 is the least significant bit of every value,
every value is unsigned. -/

namespace Sys2Proof

/-- A byte of `MEM`, a general register, a timer (R5, R20, R25, R40). -/
abbrev Byte := BitVec 8

/-- A 16-bit value: the instruction word, `I`, `PC`, a stack entry (R5, R22 to R24, R60). -/
abbrev Word := BitVec 16

/-- A 4-bit value: a register selector `x` or `y`, a row count `n`, a key index (R61, R34). -/
abbrev Nibble := BitVec 4

/-- A 12-bit value: an address of `MEM` (0..4095), and the field `nnn` of an instruction (R40, R61). -/
abbrev Addr := BitVec 12

end Sys2Proof
end

