-- ==== Sys2Proof/Syntax.lean ====
section
/-! DEFINITION. The instructions: one constructor per row of spec/opcode_table.json (R71), the two catch-all rows of the
malformed words included (R67). The operands are the fields of the word as they stand (R61, R63). -/

namespace Sys2Proof

/-- An instruction of the opcode map (R71). `x`, `y` are register selectors, `nn` an 8-bit immediate, `nnn` a 12-bit
immediate, `n` the low nibble. -/
inductive Instr where
  /-- `00E0` CLS, R111 -/
  | cls
  /-- `00EE` RET, R80 -/
  | ret
  /-- `1NNN` JP, R81 -/
  | jp (nnn : Addr)
  /-- `2NNN` CALL, R82 -/
  | call (nnn : Addr)
  /-- `3XNN` SE_IMM, R85 -/
  | seImm (x : Nibble) (nn : Byte)
  /-- `4XNN` SNE_IMM, R86 -/
  | sneImm (x : Nibble) (nn : Byte)
  /-- `5XY0` SE_REG, R87 -/
  | seReg (x y : Nibble)
  /-- `6XNN` LD_IMM, R90 -/
  | ldImm (x : Nibble) (nn : Byte)
  /-- `7XNN` ADD_IMM, R91 -/
  | addImm (x : Nibble) (nn : Byte)
  /-- `8XY0` LD_REG, R96 -/
  | ldReg (x y : Nibble)
  /-- `8XY1` OR, R97 -/
  | orReg (x y : Nibble)
  /-- `8XY2` AND, R98 -/
  | andReg (x y : Nibble)
  /-- `8XY3` XOR, R99 -/
  | xorReg (x y : Nibble)
  /-- `8XY4` ADD_REG, R100 -/
  | addReg (x y : Nibble)
  /-- `8XY5` SUB, R101 -/
  | sub (x y : Nibble)
  /-- `8XY6` SHR, R102 -/
  | shr (x y : Nibble)
  /-- `8XY7` SUBN, R103 -/
  | subn (x y : Nibble)
  /-- `8XYE` SHL, R104 -/
  | shl (x y : Nibble)
  /-- `9XY0` SNE_REG, R88 -/
  | sneReg (x y : Nibble)
  /-- `ANNN` LD_I, R92 -/
  | ldI (nnn : Addr)
  /-- `BNNN` JP_V0, R83 -/
  | jpV0 (nnn : Addr)
  /-- `CXNN` RND, R93 -/
  | rnd (x : Nibble) (nn : Byte)
  /-- `DXYN` DRW, R112 -/
  | drw (x y n : Nibble)
  /-- `EX9E` SKP, R116 -/
  | skp (x : Nibble)
  /-- `EXA1` SKNP, R117 -/
  | sknp (x : Nibble)
  /-- `FX07` LD_VX_DT, R120 -/
  | ldVxDt (x : Nibble)
  /-- `FX0A` LD_VX_K, R118 -/
  | ldVxK (x : Nibble)
  /-- `FX15` LD_DT_VX, R121 -/
  | ldDtVx (x : Nibble)
  /-- `FX18` LD_ST_VX, R122 -/
  | ldStVx (x : Nibble)
  /-- `FX1E` ADD_I, R123 -/
  | addI (x : Nibble)
  /-- `FX29` LD_F, R124 -/
  | ldF (x : Nibble)
  /-- `FX33` BCD, R127 -/
  | bcd (x : Nibble)
  /-- `FX55` ST_REGS, R128 -/
  | stRegs (x : Nibble)
  /-- `FX65` LD_REGS, R129 -/
  | ldRegs (x : Nibble)
  /-- `5XYN` with `n` not 0, MALFORMED_5, R89 -/
  | malformed5 (x y n : Nibble)
  /-- `9XYN` with `n` not 0, MALFORMED_9, R89 -/
  | malformed9 (x y n : Nibble)
deriving DecidableEq, Repr

end Sys2Proof
end

