-- ==== Sys2Proof/WellFormed.lean ====
section
/-! DEFINITION. Which terms of `Instr` are instructions. Every field is as wide as the word gives it (R61), so the one check
left is that a malformed word has a nonzero low nibble: with `n = 0` the word is `5XY0` or `9XY0` (R67, R71). -/

namespace Sys2Proof

/-- The instruction is one that some word selects (R65, R67). -/
def Instr.wellFormed : Instr → Bool
  | .cls | .ret => true
  | .jp _ | .call _ | .ldI _ | .jpV0 _ => true
  | .seImm _ _ | .sneImm _ _ | .ldImm _ _ | .addImm _ _ | .rnd _ _ => true
  | .seReg _ _ | .sneReg _ _ => true
  | .ldReg _ _ | .orReg _ _ | .andReg _ _ | .xorReg _ _ | .addReg _ _ | .sub _ _ | .shr _ _ | .subn _ _ | .shl _ _ => true
  | .drw _ _ _ => true
  | .skp _ | .sknp _ | .ldVxDt _ | .ldVxK _ | .ldDtVx _ | .ldStVx _ | .addI _ | .ldF _ | .bcd _ | .stRegs _ | .ldRegs _ => true
  | .malformed5 _ _ n => n != 0
  | .malformed9 _ _ n => n != 0

end Sys2Proof
end

