-- ==== Sys2Proof/Config.lean ====
section
/-! DEFINITION. What the spec leaves to the implementation (R6, R11): the free values, as constants without a body,
and the type of the one named policy. The parameters to which the spec gives a value (`FONT_BASE`, `FONT`,
`MALFORMED_SKIP_POLICY`, `P_T`) are in Machine/Params.lean. -/

namespace Sys2Proof

/-- The two readings of a malformed word that R89 names. -/
inductive MalformedPolicy where
  /-- the instruction is ignored (this spec's value, D9) -/
  | ignoreInstruction
  /-- only the low nibble is ignored: the comparison of the group is still made -/
  | ignoreNibble
deriving DecidableEq, Repr

/-- FREE VALUE. `IPS - 1`: the spec gives `IPS` no value, only that it is a positive integer (R6, R155, D4).
Log entry 2. -/
opaque Config.ipsPred : Nat

/-- `IPS`, instructions per second: positive, otherwise unknown (R6, R155, D4). Log entry 2. -/
def Config.ips : Nat := Config.ipsPred + 1

/-- FREE VALUE. `RANDOM`: the byte that the `k`-th execution of `CXNN` draws, under no law (R34, R93, D16).
`State.draws` counts the draws. Log entry 3. -/
opaque Config.randomByte : Nat → Byte

/-- FREE VALUE. What R146 leaves unspecified after a load error: the `j`-th number of the `k`-th draw.
Every piece of state that R146 forbids to read is built from these numbers. Log entry 4. -/
opaque Config.unspecified : Nat → Nat → Nat

end Sys2Proof
end

