-- ==== Sys2Proof/Machine/State.lean ====
section
/-! DEFINITION. Every piece of state the spec gives the machine (10_state.md, summary table and R20 to R31), as plain data; the
queue of key events (R161); and, marked as the model's own, what says which agent acts next (R10) and the output signals of
the last step (R35). -/

namespace Sys2Proof.Machine

/-- `MEM` (R40): the bytes that differ from what the address reads as at reset, as (address, byte) pairs. The canonical
form is `Memory.wf`, reading and writing are `Memory.read` and `Memory.write` (Machine/Ops.lean). -/
abbrev Memory := List Host.Cell

/-- `FB` (R26, R110): the rows 0 (top) to 31. Bit `cx` of row `cy` is the cell `FB[cy*64 + cx]`. -/
abbrev Framebuffer := Vector (BitVec 64) 32

/-- `FAULT_CODE` (R30, R141). `FaultCode.code` (Machine/Ops.lean) is the 3-bit number. -/
inductive FaultCode where
  | none
  | stackOverflow
  | stackUnderflow
  | illegalOpcode
  | fetchOutOfRange
  | loadError
deriving DecidableEq, Repr

/-- A key event of the input collaborator (R34 (b), R161). -/
inductive KeyEvent where
  | set (k : Nibble)
  | clear (k : Nibble)
deriving DecidableEq, Repr

/-- A call of the outside world on the block (R34 (a) to (d)), and the untimed block of R164. Timestamps are in seconds. -/
inductive Call where
  /-- `reset(IMAGE, IMAGE_LEN, now)` (R180): the image is `none` where the loader reports it unreadable (R182), and its
  length is the list's -/
  | reset (image : Option (List Byte)) (now : Rat)
  /-- `key_set(k)` (R161) -/
  | keySet (k : Nibble)
  /-- `key_clear(k)` (R161) -/
  | keyClear (k : Nibble)
  /-- `sched_step(now)` (R156) -/
  | schedStep (now : Rat)
  /-- `pause()` (R157) -/
  | pause
  /-- `resume(now)` (R157) -/
  | resume (now : Rat)
  /-- one block of R164: key changes, then engine steps, then a tick or none -/
  | block (keys : List KeyEvent) (steps : Nat) (tick : Bool)
deriving DecidableEq, Repr

/-- Where the machine is between two of its atomic actions. -/
inductive Phase where
  /-- between scheduling steps -/
  | idle
  /-- inside `sched_step`, at the head of its loop (3) (R156) -/
  | timed
  /-- inside a block of R164: the engine steps left, and whether a tick ends it -/
  | block (steps : Nat) (tick : Bool)
deriving DecidableEq, Repr

/-- The output signals of R35 that the LAST step of the machine emitted. No step reads them. -/
structure Outputs where
  /-- `diag_malformed(w, a)`: the word and its address (R89) -/
  diag : Option (Word × Word)
  /-- `ST` as presented to the audio collaborator (R159) -/
  audio : Option Byte
  /-- `FB` as presented to the display collaborator (R160) -/
  display : Option Framebuffer
deriving DecidableEq, Repr

/-- No output signal. -/
def Outputs.silent : Outputs := { diag := none, audio := none, display := none }

/-- The machine. -/
structure State where
  /-- `MEM[0..4095]` (R40) -/
  mem : Memory
  /-- `V[0..15]` (R20); `V[0xF]` is the flag (R21) -/
  v : Vector Byte 16
  /-- `I` (R22) -/
  i : Word
  /-- `PC` (R23) -/
  pc : Word
  /-- `STACK[0..15]` (R24) -/
  stack : Vector Word 16
  /-- `SP`, the number of valid entries, 0..16 (R24) -/
  sp : Fin 17
  /-- `DT` (R25) -/
  dt : Byte
  /-- `ST` (R25) -/
  st : Byte
  /-- `FB` (R26) -/
  fb : Framebuffer
  /-- `KEY[0..15]`, true = pressed (R27) -/
  key : Vector Bool 16
  /-- `IR.w` (R28); the five derived fields are `fieldNNN` to `fieldY` of it (R61) -/
  ir : Word
  /-- `KW_VALID` (R29) -/
  kwValid : Bool
  /-- `KW_KEY` (R29) -/
  kwKey : Nibble
  /-- `HALTED` (R30) -/
  halted : Bool
  /-- `FAULT_CODE` (R30) -/
  faultCode : FaultCode
  /-- `FAULT_OPCODE` (R30) -/
  faultOpcode : Word
  /-- `FAULT_PC` (R30) -/
  faultPc : Word
  /-- `ACC_I`, the instruction budget in seconds (R31) -/
  accI : Rat
  /-- `ACC_T`, the timer budget in seconds (R31) -/
  accT : Rat
  /-- `LAST_T`, the timestamp of the previous scheduling step in seconds (R31) -/
  lastT : Rat
  /-- `PAUSED` (R31) -/
  paused : Bool
  /-- the key events queued for the next scheduling step, oldest first (R34 (b), R161) -/
  keyQueue : List KeyEvent
  /-- THE MODEL'S OWN: where the machine is inside a scheduling step (R156, R164) -/
  phase : Phase
  /-- THE MODEL'S OWN: the calls of the outside world still to come, the next one first (R34) -/
  agenda : List Call
  /-- THE MODEL'S OWN: how many free values have been drawn (R93, R146) -/
  draws : Nat
  /-- THE MODEL'S OWN: the output signals of the last step (R35) -/
  out : Outputs
deriving DecidableEq, Repr

/-- Why the machine makes no step. -/
inductive Fault where
  /-- Raised by `step` in a state with `HALTED` = 1 and no call pending: the machine is stuck until reset (R150, U24).
  Safe: the spec says that no agent steps. -/
  | halted
deriving DecidableEq, Repr

/-- Why the model gives a step no meaning. -/
inductive Refusal where
  /-- Raised by an arm of `exec` whose instruction has no meaning yet (none is left). Safe. -/
  | notModelled (mnemonic : String)
  /-- Raised by `sched_step(now)` and `resume(now)` with `now < LAST_T`: outside the interface, "A model refuses such an
  input" (R34 (c), D32, U23). Safe. -/
  | timestampBackwards
  /-- Raised by `reset` with a negative timestamp: `LAST_T` is a non-negative rational (R31), so no such call exists. Safe.
  Log entry 11. -/
  | timestampNegative
deriving DecidableEq, Repr

/-- The machine right after reset with an empty image at time 0 (R36, R182). Every value is the spec's (R36), but for the
timestamp and the model's own fields: log entries 5, 6, 7 and 8. -/
def State.reset : State where
  mem := []
  v := Vector.replicate 16 0x00#8
  i := 0x0000#16
  pc := 0x0200#16
  stack := Vector.replicate 16 0x0000#16
  sp := 0
  dt := 0x00#8
  st := 0x00#8
  fb := Vector.replicate 32 0#64
  key := Vector.replicate 16 false
  ir := 0x0000#16
  kwValid := false
  kwKey := 0x0#4
  halted := false
  faultCode := .none
  faultOpcode := 0x0000#16
  faultPc := 0x0000#16
  accI := 0
  accT := 0
  lastT := 0
  paused := false
  keyQueue := []
  phase := .idle
  agenda := []
  draws := 0
  out := Outputs.silent

end Sys2Proof.Machine
end

