-- ==== Sys2Proof/Machine/Params.lean ====
section
/-! DEFINITION. The parameters of R5 and R6 to which the spec gives a value. -/

namespace Sys2Proof.Machine

/-- `MEM_SIZE` (R5). -/
def memSize : Nat := 4096

/-- `ENTRY`: program entry and load address (R5). -/
def entry : Word := 0x0200#16

/-- `MAX_IMAGE` = `MEM_SIZE` - `ENTRY` (R5). -/
def maxImage : Nat := 3584

/-- `FONT_BASE`: DESIGN CHOICE of the spec (R6, D2). -/
def fontBase : Nat := 0x050

/-- `FONT`: the spec's default table (R37), PRESUMED: the spec marks it as general knowledge (D3, G1). Log entry 1. -/
def font : List Byte :=
  [0xF0, 0x90, 0x90, 0x90, 0xF0,  0x20, 0x60, 0x20, 0x20, 0x70,
   0xF0, 0x10, 0xF0, 0x80, 0xF0,  0xF0, 0x10, 0xF0, 0x10, 0xF0] ++
  [0x90, 0x90, 0xF0, 0x10, 0x10,  0xF0, 0x80, 0xF0, 0x10, 0xF0,
   0xF0, 0x80, 0xF0, 0x90, 0xF0,  0xF0, 0x10, 0x20, 0x40, 0x40] ++
  [0xF0, 0x90, 0xF0, 0x90, 0xF0,  0xF0, 0x90, 0xF0, 0x10, 0xF0,
   0xF0, 0x90, 0xF0, 0x90, 0x90,  0xE0, 0x90, 0xE0, 0x90, 0xE0] ++
  [0xF0, 0x80, 0x80, 0x80, 0xF0,  0xE0, 0x90, 0x90, 0x90, 0xE0,
   0xF0, 0x80, 0xF0, 0x80, 0xF0,  0xF0, 0x80, 0xF0, 0x80, 0x80]

/-- `MALFORMED_SKIP_POLICY`: this spec's value (R6, R89, D9). Log entry 9. -/
def malformedSkipPolicy : MalformedPolicy := .ignoreInstruction

/-- `P_I` = 1/`IPS` second, for an instruction rate (R155). -/
def instrPeriod (ips : Nat) : Rat := 1 / (ips : Rat)

/-- `P_T` = 1/60 second, not configurable (R5, R155). -/
def timerPeriod : Rat := 1 / 60

end Sys2Proof.Machine
end

