-- ==== Sys2Proof/Machine/Ops.lean ====
section
/-! DEFINITION. The named operations over memory, registers, stack and framebuffer; the reset contents; taking a fault (R149) and
reset, the only way back from one (R150, R180). -/

namespace Sys2Proof.Machine

/-! ### Memory (R40, R41, R49) -/

/-- What an address reads as at reset with an empty image: the font in its range, 0x00 elsewhere (R36, R41, D20). -/
def Memory.base (a : Nat) : Byte :=
  if fontBase ≤ a then font.getD (a - fontBase) 0x00#8 else 0x00#8

/-- The canonical form: addresses strictly rising and inside 0..4095, and no entry equal to what an unlisted address
reads as. -/
abbrev Memory.wf (m : Memory) : Prop :=
  m.Pairwise (fun c d => c.1 < d.1) ∧ ∀ c ∈ m, c.1 < memSize ∧ c.2 ≠ Memory.base c.1

/-- The byte at an address given as a number. -/
def Memory.lookup : Memory → Nat → Byte
  | [], a => Memory.base a
  | (k, b) :: m, a => if k = a then b else Memory.lookup m a

/-- The memory with the byte at an address given as a number replaced; the canonical form is kept. -/
def Memory.update : Memory → Nat → Byte → Memory
  | [], a, b => if b = Memory.base a then [] else [(a, b)]
  | (k, c) :: m, a, b =>
    if a < k then (if b = Memory.base a then (k, c) :: m else (a, b) :: (k, c) :: m)
    else if a = k then (if b = Memory.base a then m else (a, b) :: m)
    else (k, c) :: Memory.update m a b

/-- `MemRead(addr, 1)` (R8). A 12-bit address always exists (R40, R51). -/
def Memory.read (m : Memory) (a : Addr) : Byte := m.lookup a.toNat

/-- `MemWrite(addr, 1, v)` (R8). Every address is writable (R50). -/
def Memory.write (m : Memory) (a : Addr) (b : Byte) : Memory := m.update a.toNat b

/-- `EA(k)` = (`I` + k) mod 4096 (R8, R46). -/
def ea (i : Word) (k : Nat) : Addr := BitVec.ofNat 12 (i.toNat + k)

/-- The bytes written at `EA(k)`, `EA(k+1)`, … in ascending order (R48). -/
def Memory.writeFrom (i : Word) : Nat → List Byte → Memory → Memory
  | _, [], m => m
  | k, b :: bs, m => Memory.writeFrom i (k + 1) bs (m.write (ea i k) b)

/-- `MemRead(addr, 2)`: the instruction word at `a`, for `a` up to 0xFFE (R8, R43, R60). -/
def Memory.fetchWord (m : Memory) (a : Word) : Word :=
  wordOfBytes (m.read (a.setWidth 12)) (m.read ((a + 1#16).setWidth 12))

/-! ### Registers (R20) -/

/-- `V[x]`. -/
def State.reg (s : State) (x : Nibble) : Byte := s.v[x.toNat]'x.isLt

/-- `V[x] <- b`. -/
def State.setReg (s : State) (x : Nibble) (b : Byte) : State := { s with v := s.v.set x.toNat b x.isLt }

/-- The flag register `V[0xF]` (R21). -/
abbrev flagReg : Nibble := 0xF#4

/-- The state with the whole register file replaced, a block load (R129). -/
def State.setV (s : State) (v : Vector Byte 16) : State := { s with v := v }

/-- The state with `MEM` replaced. -/
def State.setMem (s : State) (m : Memory) : State := { s with mem := m }

/-- The state with `FB` replaced. -/
def State.setFb (s : State) (fb : Framebuffer) : State := { s with fb := fb }

/-- `DT <- b` (R25). -/
def State.setDt (s : State) (b : Byte) : State := { s with dt := b }

/-- `ST <- b` (R25). -/
def State.setSt (s : State) (b : Byte) : State := { s with st := b }

/-- `KW_VALID <- 1`, `KW_KEY <- k` (R29). -/
def State.holdKey (s : State) (k : Nibble) : State := { s with kwValid := true, kwKey := k }

/-- `KW_VALID <- 0` (R29). -/
def State.releaseKey (s : State) : State := { s with kwValid := false }

/-- A free value has been drawn (R93). -/
def State.drawn (s : State) : State := { s with draws := s.draws + 1 }

/-- The state after `I` has been written (R22). -/
def State.setI (s : State) (w : Word) : State := { s with i := w }

/-- `PC <- target` (R8). -/
def State.setPc (s : State) (w : Word) : State := { s with pc := w }

/-- `PC <- PC + 2`, a taken skip (R23). -/
def State.skip (s : State) : State := s.setPc (s.pc + 2#16)

/-- `if c: PC <- PC + 2` (41_skip.md). -/
def State.skipIf (s : State) (c : Bool) : State := if c then s.skip else s

/-- The address of the instruction that is executing: `PC` already holds `a + 2` (R64). -/
def State.instrAddr (s : State) : Word := s.pc - 2#16

/-- `KEY[k]` (R27). -/
def State.pressed (s : State) (k : Nibble) : Bool := s.key[k.toNat]'k.isLt

/-! ### Call stack (R24) -/

/-- `STACK[SP] <- value; SP <- SP + 1`. -/
def State.pushed (s : State) (w : Word) (h : s.sp.val < 16) : State :=
  { s with stack := s.stack.set s.sp.val w h, sp := ⟨s.sp.val + 1, Nat.succ_lt_succ h⟩ }

/-- `SP <- SP - 1`: the entry's bits stay. -/
def State.popped (s : State) : State := { s with sp := ⟨s.sp.val - 1, by omega⟩ }

/-- A push; `none` where `SP` = 16. -/
def State.push (s : State) (w : Word) : Option State :=
  if h : s.sp.val < 16 then some (s.pushed w h) else none

/-- A pop, `SP <- SP - 1; value <- STACK[SP]`: the value and the state; `none` where `SP` = 0. -/
def State.pop (s : State) : Option (Word × State) :=
  if h : 0 < s.sp.val then some (s.stack[s.sp.val - 1]'(by omega), s.popped) else none

/-! ### Framebuffer (R26, R110) -/

/-- The cell of column `cx` and row `cy`; false outside the screen. -/
def Framebuffer.cell (fb : Framebuffer) (cx cy : Nat) : Bool :=
  if h : cy < 32 then (fb[cy]'h).getLsbD cx else false

/-- `FB[cy*64 + cx] <- cell ^ bit`. -/
def Framebuffer.xorCell (fb : Framebuffer) (cx cy : Nat) (bit : Bool) : Framebuffer :=
  if h : cy < 32 then fb.set cy (fb[cy]'h ^^^ (if bit then BitVec.twoPow 64 cx else 0#64)) h else fb

/-- The framebuffer with every cell 0 (R26). -/
def Framebuffer.blank : Framebuffer := Vector.replicate 32 0#64

/-- `FB[j]` for `j` in 0..2047 (R26). -/
def Framebuffer.linear (fb : Framebuffer) (j : Nat) : Bool := fb.cell (j % 64) (j / 64)

/-! ### Keypad changes (R161) -/

/-- `key_set(k)` and `key_clear(k)` on `KEY`. -/
def applyKey (key : Vector Bool 16) : KeyEvent → Vector Bool 16
  | .set k => key.set k.toNat true k.isLt
  | .clear k => key.set k.toNat false k.isLt

/-- Key events applied in arrival order. -/
def applyKeys : List KeyEvent → Vector Bool 16 → Vector Bool 16
  | [], key => key
  | e :: es, key => applyKeys es (applyKey key e)

/-! ### Faults (R141, R149) -/

/-- The number of a fault cause (R141). -/
def FaultCode.code : FaultCode → BitVec 3
  | .none => 0#3
  | .stackOverflow => 1#3
  | .stackUnderflow => 2#3
  | .illegalOpcode => 3#3
  | .fetchOutOfRange => 4#3
  | .loadError => 5#3

/-- `raise F(w, a)`: fault entry (R149). Nothing but the fault record changes; there is no vector and no handler. -/
def State.raise (s : State) (code : FaultCode) (w a : Word) : State :=
  { s with halted := true, faultCode := code, faultOpcode := w, faultPc := a }

/-! ### Reset (R180 to R182) -/

/-- `MEM` with `IMAGE` copied to 0x200 on, over the reset contents (R36, R180). -/
def Memory.ofImage (image : List Byte) : Memory := Memory.writeFrom entry 0 image []

/-- The cold-boot state with an image, at time `now` (R36, R180). -/
def State.coldBoot (image : List Byte) (now : Rat) : State :=
  { State.reset with mem := Memory.ofImage image, lastT := now }

/-- Memory with the byte `f a` at every address `a < n`, in canonical form. -/
def Memory.ofBytes (f : Nat → Byte) : Nat → Memory
  | 0 => []
  | n + 1 => (Memory.ofBytes f n).update n (f n)

/-- A non-negative rational made of two numbers. -/
def ratOfNats (n d : Nat) : Rat := (n : Rat) / ((d : Rat) + 1)

/-- A state built from the numbers `u` alone: what R146 leaves unspecified. Any memory, any register values and any
non-negative times are among what they can give. Log entry 4. -/
def State.unspecified (u : Nat → Nat) : State where
  mem := Memory.ofBytes (fun a => BitVec.ofNat 8 (u (100 + a))) (u 15 % (memSize + 1))
  v := Vector.ofFn fun k => BitVec.ofNat 8 (u (40 + k.val))
  i := BitVec.ofNat 16 (u 0)
  pc := BitVec.ofNat 16 (u 1)
  stack := Vector.ofFn fun k => BitVec.ofNat 16 (u (60 + k.val))
  sp := ⟨u 2 % 17, Nat.mod_lt _ (by decide)⟩
  dt := BitVec.ofNat 8 (u 3)
  st := BitVec.ofNat 8 (u 4)
  fb := Vector.ofFn fun k => BitVec.ofNat 64 (u (5000 + k.val))
  key := Vector.ofFn fun k => (u (80 + k.val)).testBit 0
  ir := BitVec.ofNat 16 (u 5)
  kwValid := (u 6).testBit 0
  kwKey := BitVec.ofNat 4 (u 7)
  halted := true
  faultCode := .loadError
  faultOpcode := 0x0000#16
  faultPc := 0x0000#16
  accI := ratOfNats (u 8) (u 9)
  accT := ratOfNats (u 10) (u 11)
  lastT := ratOfNats (u 12) (u 13)
  paused := (u 14).testBit 0
  keyQueue := []
  phase := .idle
  agenda := []
  draws := 0
  out := Outputs.silent

/-- `raise LoadError`: `HALTED` = 1, `FAULT_CODE` = 5, the two other fault registers 0x0000 (R141), and every other piece
of state unspecified (R146). The model's own fields go on. -/
def State.loadError (s : State) : State :=
  { State.unspecified (Config.unspecified s.draws) with agenda := s.agenda, draws := s.draws + 1, out := s.out }


/-- `reset(IMAGE, IMAGE_LEN, now)` (R180). The model's own agenda, draw counter and output signals go on: a draw after a
reset is a fresh one (R93). -/
def State.resetWith (s : State) (image : Option (List Byte)) (now : Rat) : State :=
  match image with
  | some bytes =>
    if bytes.length ≤ maxImage then
      { State.coldBoot bytes now with agenda := s.agenda, draws := s.draws, out := s.out }
    else s.loadError
  | none => s.loadError

end Sys2Proof.Machine
end

