-- ==== Sys2Proof/Machine/Operands.lean ====
section
/-! DEFINITION. Every operand form of the instruction set (R63, R126): immediates, the register selectors, the implicit operands, the
`I`-relative block, the register block, the glyph address, the decimal digits, the key index, the screen coordinates. -/

namespace Sys2Proof.Machine

/-- `zext_16(nnn)` (R63). -/
def immAddr (nnn : Addr) : Word := nnn.setWidth 16

/-- `zext_16(V[x])` (R83, R123, R124). -/
def State.regWord (s : State) (x : Nibble) : Word := (s.reg x).setWidth 16

/-- `V[x] & 0x0F`, the key that `EX9E` and `EXA1` test (R115). -/
def State.keyIndex (s : State) (x : Nibble) : Nibble := (s.reg x).setWidth 4

/-- `V[0]`, …, `V[x]`, the registers of `FX55` (R128). -/
def State.regBlock (s : State) (x : Nibble) : List Byte := s.v.toList.take (x.toNat + 1)

/-- `V[k] <- MemRead(EA(k), 1)` for the `count` first `k`, ascending (R129). -/
def loadBlock (m : Memory) (i : Word) : Nat → Vector Byte 16 → Vector Byte 16
  | 0, v => v
  | count + 1, v => (loadBlock m i count v).setIfInBounds count (m.read (ea i count))

/-- `FONT_BASE + 5 * zext_16(V[x])`, over all 8 bits (R124, D19). -/
def State.glyphAddr (s : State) (x : Nibble) : Word := BitVec.ofNat 16 (fontBase + 5 * (s.reg x).toNat)

/-- Hundreds, tens and ones of a byte, in the order in which `FX33` stores them (R44, R127). -/
def bcdDigits (b : Byte) : List Byte :=
  [BitVec.ofNat 8 (b.toNat / 100), BitVec.ofNat 8 (b.toNat / 10 % 10), BitVec.ofNat 8 (b.toNat % 10)]

/-- `V[x] mod 64`, the start column (R112). -/
def State.startColumn (s : State) (x : Nibble) : Nat := (s.reg x).toNat % 64

/-- `V[y] mod 32`, the start row (R112). -/
def State.startRow (s : State) (y : Nibble) : Nat := (s.reg y).toNat % 32

/-- Column `c` of a sprite byte: bit `7 - c`, the leftmost first (R110, R112). -/
def spriteBit (b : Byte) (c : Nat) : Bool := b.getLsbD (7 - c)

/-- The least pressed key, if any (R118). -/
def State.leastPressed (s : State) : Option Nibble :=
  ((List.range 16).find? fun k => s.key.toList.getD k false).map (BitVec.ofNat 4)

end Sys2Proof.Machine
end

