-- ==== Sys2Proof/Machine/Flags.lean ====
section
/-! DEFINITION. Every flag computation of the instruction set (R21, R106): a flag write stores 0x00 or 0x01 in `V[0xF]`. -/

namespace Sys2Proof.Machine

/-- A truth value as a flag byte (R8, R21). -/
def flagByte (b : Bool) : Byte := if b then 0x01#8 else 0x00#8

/-- Carry out: 1 when the true sum exceeds 255 (R100). -/
def carryFlag (a b : Byte) : Byte := flagByte (decide (255 < a.toNat + b.toNat))

/-- No borrow in `a - b`: 1 when `b <= a` (R101, R103, D10). -/
def noBorrowFlag (a b : Byte) : Byte := flagByte (decide (b.toNat ≤ a.toNat))

/-- The bit that a shift to the right by one puts out, bit 0 (R102). -/
def shiftRightFlag (b : Byte) : Byte := flagByte (b.getLsbD 0)

/-- The bit that a shift to the left by one puts out, bit 7 (R104). -/
def shiftLeftFlag (b : Byte) : Byte := flagByte (b.getLsbD 7)

/-- The result to `V[x]`, then the flag to `V[0xF]`: with `x = 0xF` the flag remains (R9, R95, D11). -/
def State.setResult (s : State) (x : Nibble) (result flag : Byte) : State := (s.setReg x result).setReg flagReg flag

end Sys2Proof.Machine
end

