-- ==== Sys2Proof/Machine/Alu.lean ====
section
/-! DEFINITION. The register-to-register group (43_alu.md, R95 to R106). Both operands are read first; the result is written to
`V[x]`, the flag to `V[0xF]` last (R9, R95). -/

namespace Sys2Proof.Machine

/-- `8XY0` LD_REG: no flag (R96). -/
def execLdReg (x y : Nibble) (s : State) : Host.Outcome State Fault Refusal :=
  .next (s.setReg x (s.reg y))

/-- `8XY1` OR: the flag is reset (R97). -/
def execOr (x y : Nibble) (s : State) : Host.Outcome State Fault Refusal :=
  .next (s.setResult x (s.reg x ||| s.reg y) (flagByte false))

/-- `8XY2` AND: the flag is reset (R98). -/
def execAnd (x y : Nibble) (s : State) : Host.Outcome State Fault Refusal :=
  .next (s.setResult x (s.reg x &&& s.reg y) (flagByte false))

/-- `8XY3` XOR: the flag is reset (R99). -/
def execXor (x y : Nibble) (s : State) : Host.Outcome State Fault Refusal :=
  .next (s.setResult x (s.reg x ^^^ s.reg y) (flagByte false))

/-- `8XY4` ADD_REG: flag = carry out (R100). -/
def execAddReg (x y : Nibble) (s : State) : Host.Outcome State Fault Refusal :=
  .next (s.setResult x (s.reg x + s.reg y) (carryFlag (s.reg x) (s.reg y)))

/-- `8XY5` SUB: `V[x] - V[y]`, flag = no borrow (R101). -/
def execSub (x y : Nibble) (s : State) : Host.Outcome State Fault Refusal :=
  .next (s.setResult x (s.reg x - s.reg y) (noBorrowFlag (s.reg x) (s.reg y)))

/-- `8XY6` SHR: `V[y] >> 1`, flag = bit 0 of `V[y]` (R102). -/
def execShr (x y : Nibble) (s : State) : Host.Outcome State Fault Refusal :=
  .next (s.setResult x (s.reg y >>> 1) (shiftRightFlag (s.reg y)))

/-- `8XY7` SUBN: `V[y] - V[x]`, flag = no borrow, operands as before the subtraction (R103, D10). -/
def execSubn (x y : Nibble) (s : State) : Host.Outcome State Fault Refusal :=
  .next (s.setResult x (s.reg y - s.reg x) (noBorrowFlag (s.reg y) (s.reg x)))

/-- `8XYE` SHL: `V[y] << 1`, flag = bit 7 of `V[y]` (R104). -/
def execShl (x y : Nibble) (s : State) : Host.Outcome State Fault Refusal :=
  .next (s.setResult x (s.reg y <<< 1) (shiftLeftFlag (s.reg y)))

end Sys2Proof.Machine
end

