-- ==== Sys2Proof/Machine/Display.lean ====
section
/-! DEFINITION. Clear screen and the sprite compositor (44_display.md, R110 to R112). -/

namespace Sys2Proof.Machine

/-- `00E0` CLS (R111). -/
def execCls (s : State) : Host.Outcome State Fault Refusal :=
  .next (s.setFb Framebuffer.blank)

/-- A framebuffer, and whether a drawn sprite bit has met a lit cell so far. -/
structure Drawing where
  fb : Framebuffer
  hit : Bool
deriving DecidableEq, Repr

/-- One sprite bit onto one cell: collide, then XOR (R112). -/
def drawPixel (cx cy : Nat) (bit : Bool) (d : Drawing) : Drawing :=
  { fb := d.fb.xorCell cx cy bit, hit := d.hit || (bit && d.fb.cell cx cy) }

/-- The columns `c`, `c + 1`, … of a sprite row, `left` of them, from the start column `x0`; past column 63 the row stops
(R112). -/
def drawRow (byte : Byte) (x0 cy : Nat) : Nat → Nat → Drawing → Drawing
  | 0, _, d => d
  | left + 1, c, d =>
    if 63 < x0 + c then d else drawRow byte x0 cy left (c + 1) (drawPixel (x0 + c) cy (spriteBit byte c) d)

/-- The rows `r`, `r + 1`, … of a sprite, `left` of them, from the start row `y0`; past row 31 the sprite stops (R112). -/
def drawRows (m : Memory) (i : Word) (x0 y0 : Nat) : Nat → Nat → Drawing → Drawing
  | 0, _, d => d
  | left + 1, r, d =>
    if 31 < y0 + r then d
    else drawRows m i x0 y0 left (r + 1) (drawRow (m.read (ea i r)) x0 (y0 + r) 8 0 d)

/-- The whole sprite of `DXYN` on the state's framebuffer; the coordinates are read before `V[0xF]` is cleared (R112). -/
def State.drawSprite (s : State) (x y n : Nibble) : Drawing :=
  drawRows s.mem s.i (s.startColumn x) (s.startRow y) n.toNat 0 { fb := s.fb, hit := false }

/-- `DXYN` DRW: the flag is the collision, written also when nothing is drawn (R112). -/
def execDrw (x y n : Nibble) (s : State) : Host.Outcome State Fault Refusal :=
  .next ((s.setReg flagReg (flagByte (s.drawSprite x y n).hit)).setFb (s.drawSprite x y n).fb)

end Sys2Proof.Machine
end

