-- ==== Sys2Proof/Machine/Flow.lean ====
section
/-! DEFINITION. Jumps, calls and returns (40_flow.md, R80 to R84). `PC` already holds `a + 2` and `IR` the word (R64). -/

namespace Sys2Proof.Machine

/-- `00EE` RET: pop into `PC`, or `StackUnderflow` where `SP` = 0 (R80, R143). -/
def execRet (s : State) : Host.Outcome State Fault Refusal :=
  match s.pop with
  | some (w, s') => .next (s'.setPc w)
  | none => .next (s.raise .stackUnderflow s.ir s.instrAddr)

/-- `1NNN` JP (R81). -/
def execJp (nnn : Addr) (s : State) : Host.Outcome State Fault Refusal :=
  .next (s.setPc (immAddr nnn))

/-- `2NNN` CALL: push `PC` and jump, or `StackOverflow` where `SP` = 16 (R82, R142). -/
def execCall (nnn : Addr) (s : State) : Host.Outcome State Fault Refusal :=
  match s.push s.pc with
  | some s' => .next (s'.setPc (immAddr nnn))
  | none => .next (s.raise .stackOverflow s.ir s.instrAddr)

/-- `BNNN` JP_V0: the sum is not reduced (R83). -/
def execJpV0 (nnn : Addr) (s : State) : Host.Outcome State Fault Refusal :=
  .next (s.setPc (immAddr nnn + s.regWord 0x0#4))

end Sys2Proof.Machine
end

