-- ==== Sys2Proof/Machine/Immediate.lean ====
section
/-! DEFINITION. Immediate loads, add immediate, random (42_immediate.md, R90 to R93). -/

namespace Sys2Proof.Machine

/-- `6XNN` LD_IMM (R90). -/
def execLdImm (x : Nibble) (nn : Byte) (s : State) : Host.Outcome State Fault Refusal :=
  .next (s.setReg x nn)

/-- `7XNN` ADD_IMM: wraps modulo 256, no flag (R91, R105). -/
def execAddImm (x : Nibble) (nn : Byte) (s : State) : Host.Outcome State Fault Refusal :=
  .next (s.setReg x (s.reg x + nn))

/-- `ANNN` LD_I (R92). -/
def execLdI (nnn : Addr) (s : State) : Host.Outcome State Fault Refusal :=
  .next (s.setI (immAddr nnn))

/-- `CXNN` RND: a fresh free byte, masked (R93, D16). Log entry 3. -/
def execRnd (x : Nibble) (nn : Byte) (s : State) : Host.Outcome State Fault Refusal :=
  .next (s.setReg x (Config.randomByte s.draws &&& nn)).drawn

end Sys2Proof.Machine
end

