-- ==== Sys2Proof/Machine/Keypad.lean ====
section
/-! DEFINITION. Keypad skips and the key wait (45_keypad.md, R115 to R118). -/

namespace Sys2Proof.Machine

/-- `EX9E` SKP: skip if the key is pressed (R116, D28). -/
def execSkp (x : Nibble) (s : State) : Host.Outcome State Fault Refusal :=
  .next (s.skipIf (s.pressed (s.keyIndex x)))

/-- `EXA1` SKNP: skip if the key is not pressed (R117, D28). -/
def execSknp (x : Nibble) (s : State) : Host.Outcome State Fault Refusal :=
  .next (s.skipIf (!s.pressed (s.keyIndex x)))

/-- `PC <- PC - 2`: the waiting instruction is fetched again (R118). -/
def State.repeatInstr (s : State) : State := s.setPc s.instrAddr

/-- Phase 1 of the key wait: choose the least pressed key, if any (R118). -/
def State.chooseKey (s : State) : State :=
  match s.leastPressed with
  | some k => s.holdKey k
  | none => s

/-- `FX0A` LD_VX_K: wait for a press, then for the release of the same key, then store it (R118). -/
def execLdVxK (x : Nibble) (s : State) : Host.Outcome State Fault Refusal :=
  if s.kwValid then
    if s.pressed s.kwKey then .next s.repeatInstr
    else .next (s.setReg x (s.kwKey.setWidth 8)).releaseKey
  else .next s.chooseKey.repeatInstr

end Sys2Proof.Machine
end

