-- ==== Sys2Proof/Machine/MemoryOps.lean ====
section
/-! DEFINITION. Loads and stores through `I` (47_memory_ops.md, R126 to R129). `I` is never changed. -/

namespace Sys2Proof.Machine

/-- `FX33` BCD (R127). -/
def execBcd (x : Nibble) (s : State) : Host.Outcome State Fault Refusal :=
  .next (s.setMem (Memory.writeFrom s.i 0 (bcdDigits (s.reg x)) s.mem))

/-- `FX55` ST_REGS (R128). -/
def execStRegs (x : Nibble) (s : State) : Host.Outcome State Fault Refusal :=
  .next (s.setMem (Memory.writeFrom s.i 0 (s.regBlock x) s.mem))

/-- `FX65` LD_REGS (R129). -/
def execLdRegs (x : Nibble) (s : State) : Host.Outcome State Fault Refusal :=
  .next (s.setV (loadBlock s.mem s.i (x.toNat + 1) s.v))

end Sys2Proof.Machine
end

