-- ==== Sys2Proof/Machine/Skip.lean ====
section
/-! DEFINITION. Conditional skips on registers, and the malformed words (41_skip.md, R85 to R89). -/

namespace Sys2Proof.Machine

/-- `3XNN` SE_IMM (R85). -/
def execSeImm (x : Nibble) (nn : Byte) (s : State) : Host.Outcome State Fault Refusal :=
  .next (s.skipIf (s.reg x == nn))

/-- `4XNN` SNE_IMM (R86). -/
def execSneImm (x : Nibble) (nn : Byte) (s : State) : Host.Outcome State Fault Refusal :=
  .next (s.skipIf (s.reg x != nn))

/-- `5XY0` SE_REG (R87). -/
def execSeReg (x y : Nibble) (s : State) : Host.Outcome State Fault Refusal :=
  .next (s.skipIf (s.reg x == s.reg y))

/-- `9XY0` SNE_REG (R88). -/
def execSneReg (x y : Nibble) (s : State) : Host.Outcome State Fault Refusal :=
  .next (s.skipIf (s.reg x != s.reg y))

/-- `diag_malformed(w, a)`: the diagnostic pulse, an output signal and no state of the machine (R35 (d), R89, R147). -/
def State.diagMalformed (s : State) : State := { s with out := { s.out with diag := some (s.ir, s.instrAddr) } }

/-- A malformed word under a policy (R89): ignored, or the comparison of its group after the pulse. -/
def malformedWord (policy : MalformedPolicy) (condition : Bool) (s : State) : State :=
  match policy with
  | .ignoreInstruction => s.diagMalformed
  | .ignoreNibble => s.diagMalformed.skipIf condition

/-- `5XYN`, `n` not 0, MALFORMED_5 (R67, R89). No operand is used under this spec's policy. -/
def execMalformed5 (x y _n : Nibble) (s : State) : Host.Outcome State Fault Refusal :=
  .next (malformedWord malformedSkipPolicy (s.reg x == s.reg y) s)

/-- `9XYN`, `n` not 0, MALFORMED_9 (R67, R89). No operand is used under this spec's policy. -/
def execMalformed9 (x y _n : Nibble) (s : State) : Host.Outcome State Fault Refusal :=
  .next (malformedWord malformedSkipPolicy (s.reg x != s.reg y) s)

end Sys2Proof.Machine
end

