-- ==== Sys2Proof/Machine/TimerIndex.lean ====
section
/-! DEFINITION. Timer access and index arithmetic (46_timer_index.md, R120 to R124). -/

namespace Sys2Proof.Machine

/-- `FX07` LD_VX_DT (R120). -/
def execLdVxDt (x : Nibble) (s : State) : Host.Outcome State Fault Refusal :=
  .next (s.setReg x s.dt)

/-- `FX15` LD_DT_VX (R121, D28). -/
def execLdDtVx (x : Nibble) (s : State) : Host.Outcome State Fault Refusal :=
  .next (s.setDt (s.reg x))

/-- `FX18` LD_ST_VX (R122, D28). -/
def execLdStVx (x : Nibble) (s : State) : Host.Outcome State Fault Refusal :=
  .next (s.setSt (s.reg x))

/-- `FX1E` ADD_I: wraps modulo 65536, no flag (R123). -/
def execAddI (x : Nibble) (s : State) : Host.Outcome State Fault Refusal :=
  .next (s.setI (s.i + s.regWord x))

/-- `FX29` LD_F (R124). -/
def execLdF (x : Nibble) (s : State) : Host.Outcome State Fault Refusal :=
  .next (s.setI (s.glyphAddr x))

end Sys2Proof.Machine
end

