-- ==== Sys2Proof/Machine/Engine.lean ====
section
/-! DEFINITION. The Execution Engine: one engine step executes exactly one instruction (R64). -/

namespace Sys2Proof.Machine

/-- The fetch phase: `IR` takes the word, `PC` is advanced by 2 before execution (R64). -/
def State.fetched (s : State) (w : Word) : State := { s with ir := w, pc := s.pc + 2#16 }

/-- `EngineStep` (R64), with the faults in the order of R148: fetch out of range (R47, R145), illegal opcode (R66, R144), then
what the instruction itself raises. -/
def engineStep (s : State) : Host.Outcome State Fault Refusal :=
  if 0x0FFE < s.pc.toNat then .next (s.raise .fetchOutOfRange 0x0000#16 s.pc)
  else
    match decodeWord (s.mem.fetchWord s.pc) with
    | .ok i => exec i (s.fetched (s.mem.fetchWord s.pc))
    | .error _ =>
      .next ((s.fetched (s.mem.fetchWord s.pc)).raise .illegalOpcode (s.mem.fetchWord s.pc) s.pc)

end Sys2Proof.Machine
end

