-- ==== Sys2Proof/Machine/Scheduler.lean ====
section
/-! DEFINITION. The Timing Scheduler, the timer tick and the calls of the outside world (60_exceptions.md, R150, R154 to R162,
R164). A scheduling step is made of atomic actions: its opening (keys drained, elapsed time added), its engine steps
one by one, and its close (tick, presentations); `State.phase` says which comes next. -/

namespace Sys2Proof.Machine

/-- A timer decremented toward zero, never below (R25, R154). -/
def countDown (b : Byte) : Byte := if b = 0x00#8 then 0x00#8 else b - 1#8

/-- `TimerTick`: both timers in the same tick (R154). -/
def State.tick (s : State) : State := { s with dt := countDown s.dt, st := countDown s.st }

/-- The machine stands at another point of its scheduling (the model's own). -/
def State.setPhase (s : State) (p : Phase) : State := { s with phase := p }

/-- The calls that are left (the model's own). -/
def State.setAgenda (s : State) (calls : List Call) : State := { s with agenda := calls }

/-- `ACC_I <- ACC_I - q`: the price of an engine step (R156). -/
def State.payInstr (s : State) (q : Rat) : State := { s with accI := s.accI - q }

/-- `ACC_T <- ACC_T - q`: the price of a tick (R156). -/
def State.payTick (s : State) (q : Rat) : State := { s with accT := s.accT - q }

/-- Points (1) and (2) of R156: the time since `LAST_T` goes to both accumulators. -/
def State.elapse (s : State) (now : Rat) : State :=
  { s with accI := s.accI + (now - s.lastT), accT := s.accT + (now - s.lastT), lastT := now }

/-- `pause()` (R157). -/
def State.pausedNow (s : State) : State := { s with paused := true }

/-- `resume(now)` (R157). -/
def State.resumed (s : State) (now : Rat) : State := { s with paused := false, lastT := now }

/-- A key event joins the queue (R161). -/
def State.queueKey (s : State) (e : KeyEvent) : State := { s with keyQueue := s.keyQueue ++ [e] }

/-- Key changes at the start of a block (R164). -/
def State.changeKeys (s : State) (events : List KeyEvent) : State := { s with key := applyKeys events s.key }

/-- `ST` presented to the audio collaborator, as it stands after the tick (R159). -/
def State.presentAudio (s : State) : State := { s with out := { s.out with audio := some s.st } }

/-- `FB` presented to the display collaborator (R160). -/
def State.presentDisplay (s : State) : State := { s with out := { s.out with display := some s.fb } }

/-- Every queued key event applied to `KEY` in arrival order (R161). -/
def State.drainKeys (s : State) : State := { s with key := applyKeys s.keyQueue s.key, keyQueue := [] }

/-- The end of a scheduling step: a tick with its audio presentation, or none, then the display presentation (R156). -/
def State.close (s : State) (tick : Bool) : State :=
  (if tick then s.tick.presentAudio else s).presentDisplay.setPhase .idle

/-- Points (4) and after of R156: at most one tick, when a whole timer period has accumulated, and one period is subtracted
(C9, D5). -/
def State.closeTimed (s : State) : State :=
  if timerPeriod ≤ s.accT then (s.close true).payTick timerPeriod else s.close false

/-- The opening of `sched_step(now)`: points (1) and (2) of R156 after the key drain; a paused machine only drains the keys and
presents `FB` (R157). -/
def State.openTimed (s : State) (now : Rat) : State :=
  if s.paused then s.drainKeys.presentDisplay else (s.drainKeys.elapse now).setPhase .timed

/-- The opening of a block of R164: the key changes; a paused machine makes no engine step and no tick (R157). -/
def State.openBlock (s : State) (keys : List KeyEvent) (steps : Nat) (tick : Bool) : State :=
  if s.paused then (s.changeKeys keys).presentDisplay else (s.changeKeys keys).setPhase (.block steps tick)

/-- A call of the outside world (R34), made between two actions of the machine. A halted machine ignores scheduling steps and
blocks (R150); a timestamp that goes backwards is refused (D32; log entry 23). The timestamp is compared with `LAST_T` before
`HALTED` is tested; after a load error `LAST_T` is unspecified (R146), so there a free number decides whether `sched_step` is
refused or ignored and `resume` refused or performed (log entry 24, DESIGN CHOICE). -/
def perform (c : Call) (s : State) : Host.Outcome State Fault Refusal :=
  match c with
  | .reset image now => if now < 0 then .refused .timestampNegative else .next (s.resetWith image now)
  | .keySet k => .next (s.queueKey (.set k))
  | .keyClear k => .next (s.queueKey (.clear k))
  | .schedStep now =>
    if now < s.lastT then .refused .timestampBackwards
    else if s.halted then .next s
    else .next (s.openTimed now)
  | .pause => .next s.pausedNow
  | .resume now => if now < s.lastT then .refused .timestampBackwards else .next (s.resumed now)
  | .block keys steps tick => if s.halted then .next s else .next (s.openBlock keys steps tick)

/-- Between scheduling steps: the next call, if one is pending. Otherwise the engine goes on as in an open block of R164
(log entry 5); a halted machine is stuck (R150), a paused one waits (R157). -/
def stepIdle (s : State) : Host.Outcome State Fault Refusal :=
  match s.agenda with
  | c :: rest => perform c (s.setAgenda rest)
  | [] => if s.halted then .fault .halted else if s.paused then .next s else engineStep s

/-- Inside `sched_step`, at the head of the loop (3) of R156: end it on a fault, make one engine step for one instruction
period of the rate `ips`, or close the scheduling step. -/
def stepTimed (ips : Nat) (s : State) : Host.Outcome State Fault Refusal :=
  if s.halted then .next (s.setPhase .idle)
  else if instrPeriod ips ≤ s.accI then engineStep (s.payInstr (instrPeriod ips))
  else .next s.closeTimed

/-- Inside a block of R164: end it on a fault, make one of its engine steps, or close it. -/
def stepBlock (steps : Nat) (tick : Bool) (s : State) : Host.Outcome State Fault Refusal :=
  if s.halted then .next (s.setPhase .idle)
  else
    match steps with
    | left + 1 => engineStep (s.setPhase (.block left tick))
    | 0 => .next (s.close tick)

/-- One atomic action of the machine at the instruction rate `ips`: of the agent whose turn it is (R10). -/
def act (ips : Nat) (s : State) : Host.Outcome State Fault Refusal :=
  match s.phase with
  | .idle => stepIdle s
  | .timed => stepTimed ips s
  | .block steps tick => stepBlock steps tick s

/-- The output signals withdrawn: a pulse lasts one step (R35). -/
def State.quiet (s : State) : State := { s with out := Outputs.silent }

end Sys2Proof.Machine
end

