-- ==== Sys2Proof/Machine/Step.lean ====
section
/-! DEFINITION. One step of the whole machine (R10): exactly one agent acts, and which one is data in `State`. -/

namespace Sys2Proof.Machine

/-- One atomic action of the agent whose turn it is, at the machine's instruction rate, after the output signals of the last
action have gone. -/
def step (s : State) : Host.Outcome State Fault Refusal := act Config.ips s.quiet

/-- The state in which the instruction of bits `w` (bits above `nbits` are 0) is the next one the machine fetches and runs:
its two bytes stand at `PC` (R43), no call is pending, no scheduling step is open, and the machine is neither halted
nor paused. Nothing else changes. Log entry 6. -/
def State.withFetchWord (s : State) (nbits w : Nat) : State :=
  { s with
    mem := Memory.writeFrom s.pc 0 (bytesOfWord (BitVec.ofNat 16 (w % 2 ^ nbits))) s.mem
    agenda := []
    phase := .idle
    halted := false
    paused := false }

end Sys2Proof.Machine
end

