-- ==== Sys2Proof/Safety.lean ====
section
/-! DEFINITION. The terms in which claims are made: a component of the state and what it means that only some changed (frames), the
invariants of the machine, whose turn it is, the bytes a store leaves, and the state without its scheduler (R31, R164). -/

namespace Sys2Proof.Machine

/-! ### Frames -/

/-- A component of the state that a claim can name: each register, each byte of memory, each cell of the framebuffer is one. -/
inductive Component where
  /-- a byte of `MEM`, through the read of one byte -/
  | memByte (a : Addr)
  | reg (x : Nibble)
  | i
  | pc
  | stackEntry (j : Fin 16)
  | sp
  | dt
  | st
  /-- the cell `FB[j]` -/
  | cell (j : Fin 2048)
  | key (k : Nibble)
  | ir
  /-- `KW_VALID` and `KW_KEY` -/
  | keyWait
  /-- `HALTED`, `FAULT_CODE`, `FAULT_OPCODE`, `FAULT_PC` -/
  | faultRecord
  /-- `ACC_I`, `ACC_T`, `LAST_T`, `PAUSED` -/
  | timing
  /-- the queued key events -/
  | keyQueue
  /-- the model's own `phase` and `agenda` -/
  | turn
  /-- the model's own count of draws -/
  | draws
  /-- the output signals -/
  | outputs
deriving DecidableEq, Repr

/-- The component holds the same in both states. -/
def Component.same (s t : State) : Component → Prop
  | .memByte a => t.mem.read a = s.mem.read a
  | .reg x => t.reg x = s.reg x
  | .i => t.i = s.i
  | .pc => t.pc = s.pc
  | .stackEntry j => t.stack[j.val] = s.stack[j.val]
  | .sp => t.sp = s.sp
  | .dt => t.dt = s.dt
  | .st => t.st = s.st
  | .cell j => t.fb.linear j.val = s.fb.linear j.val
  | .key k => t.pressed k = s.pressed k
  | .ir => t.ir = s.ir
  | .keyWait => t.kwValid = s.kwValid ∧ t.kwKey = s.kwKey
  | .faultRecord =>
    t.halted = s.halted ∧ t.faultCode = s.faultCode ∧ t.faultOpcode = s.faultOpcode ∧ t.faultPc = s.faultPc
  | .timing => t.accI = s.accI ∧ t.accT = s.accT ∧ t.lastT = s.lastT ∧ t.paused = s.paused
  | .keyQueue => t.keyQueue = s.keyQueue
  | .turn => t.phase = s.phase ∧ t.agenda = s.agenda
  | .draws => t.draws = s.draws
  | .outputs => t.out = s.out

/-- From `s` to `t`, every component outside `written` is unchanged. -/
def ChangesOnly (written : Component → Prop) (s t : State) : Prop :=
  ∀ c, ¬ written c → c.same s t

/-- The bytes at `EA(0)`, …, `EA(count - 1)` of the state before. -/
def StoredFrom (s : State) (count : Nat) (c : Component) : Prop :=
  ∃ k, k < count ∧ c = .memByte (ea s.i k)

/-! ### The sprite of `DXYN` as a picture -/

/-- The sprite of `DRW Vx, Vy, n` has a 1 bit at column `cx` and row `cy` of the screen: rows 0 to `n - 1` from `V[y] mod 32`
down, columns 0 to 7 from `V[x] mod 64` to the right, neither wrapping (R112). -/
def State.spritePixel (s : State) (x y n : Nibble) (cx cy : Nat) : Bool :=
  decide (s.startRow y ≤ cy ∧ cy < s.startRow y + n.toNat ∧ s.startColumn x ≤ cx ∧ cx < s.startColumn x + 8) &&
    spriteBit (s.mem.read (ea s.i (cy - s.startRow y))) (cx - s.startColumn x)

/-! ### Key events -/

/-- The event is about key `k`. -/
def KeyEvent.about (k : Nibble) : KeyEvent → Bool
  | .set j => j == k
  | .clear j => j == k

/-- The event sets a key. -/
def KeyEvent.sets : KeyEvent → Bool
  | .set _ => true
  | .clear _ => false

/-- What the last event about key `k` in arrival order leaves, or the old flag where there is none (R161). -/
def keyAfter (events : List KeyEvent) (k : Nibble) (old : Bool) : Bool :=
  match events.reverse.find? (KeyEvent.about k) with
  | some e => e.sets
  | none => old

/-! ### Whose turn it is -/

/-- The next action of the machine is an engine step outside a timed scheduling step: nothing is pending, nothing is open, and
the machine is neither halted nor paused (R164; log entry 5). -/
abbrev EngineTurn (s : State) : Prop :=
  s.phase = .idle ∧ s.agenda = [] ∧ s.halted = false ∧ s.paused = false

/-- The next action of the machine in state `s` is an engine step, made in state `u`: in the free run of log entry 5; in a
timed scheduling step with a whole instruction period of budget left, which it pays first (R156); or in a block with an
engine step left (R164; log entry 16). The output signals of the last action have gone (R35). -/
inductive EngineMove (s : State) : State → Prop where
  | free (turn : EngineTurn s) : EngineMove s s.quiet
  | timed (phase : s.phase = .timed) (running : s.halted = false) (budget : instrPeriod Config.ips ≤ s.accI) :
    EngineMove s (s.quiet.payInstr (instrPeriod Config.ips))
  | block (left : Nat) (tick : Bool) (phase : s.phase = .block (left + 1) tick) (running : s.halted = false) :
    EngineMove s (s.quiet.setPhase (.block left tick))

/-! ### The bytes a store leaves -/

/-- The byte at `a` once `stored` has gone to `EA(0)`, `EA(1)`, …: the stored byte whose effective address is `a`, or the byte
that was there (R46, R48). -/
def State.byteAfterStore (s : State) (stored : List Byte) (a : Addr) : Byte :=
  match (List.range stored.length).find? (fun k => ea s.i k == a) with
  | some k => stored.getD k 0x00#8
  | none => s.mem.read a

/-! ### Invariants -/

/-- The memory is in its canonical form (R40). -/
abbrev MemoryCanonical (s : State) : Prop := s.mem.wf

/-- The fault record is set exactly when the machine is halted (R30, R140, R149). -/
abbrev FaultRecordConsistent (s : State) : Prop :=
  (s.halted = true ↔ s.faultCode ≠ .none) ∧ (s.halted = false → s.faultOpcode = 0 ∧ s.faultPc = 0)

/-- The word at `PC` is an `FX0A` that can be fetched (R118). -/
def AtKeyWait (s : State) : Prop :=
  s.pc.toNat ≤ 0x0FFE ∧ s.mem.fetchWord s.pc &&& 0xF0FF#16 = 0xF00A#16

/-- A chosen key is remembered only while `PC` points at an `FX0A` (R118 (6)). After a load error nothing may be read
(R146). -/
def KeyWaitAtInstruction (s : State) : Prop :=
  s.faultCode ≠ .loadError → s.kwValid = true → AtKeyWait s

/-- `PC` is at most 0x10FE and every stack entry at most 0x1000: no increment of `PC` wraps (R23). After a load error nothing
may be read (R146). -/
def PcBounded (s : State) : Prop :=
  s.faultCode ≠ .loadError → s.pc.toNat ≤ 0x10FE ∧ ∀ j : Fin 16, s.stack[j.val].toNat ≤ 0x1000

/-- Times are non-negative (R31). -/
def TimesNonnegative (s : State) : Prop := 0 ≤ s.accI ∧ 0 ≤ s.accT ∧ 0 ≤ s.lastT

/-- Outside a timed scheduling step less than one instruction period of budget is left, unless a fault has ended the run
(R156). -/
def BudgetBelowPeriod (s : State) : Prop :=
  s.halted = false → s.phase ≠ .timed → s.accI < instrPeriod Config.ips

/-- All of them. -/
structure Invariant (s : State) : Prop where
  memory : MemoryCanonical s
  fault : FaultRecordConsistent s
  keyWait : KeyWaitAtInstruction s
  pc : PcBounded s
  times : TimesNonnegative s
  budget : BudgetBelowPeriod s

/-- A run that has not gone wrong: no fault is recorded (R140: a faulted state is never final). -/
abbrev Safe (s : State) : Prop := s.halted = false

/-! ### The state without its scheduler (R31, R164) -/

/-- The state with the scheduler's accumulators, its queue and the phase put aside. -/
def State.untimed (s : State) : State :=
  { s with accI := 0, accT := 0, lastT := 0, keyQueue := [], phase := .idle }

/-- The state with all of the scheduler's state put aside: `PAUSED` and the pending calls as well (R31, R34). -/
def State.unscheduled (s : State) : State := { s.untimed with paused := false, agenda := [] }

/-- Two outcomes agree on everything but timing. -/
def AgreeUntimed : Host.Outcome State Fault Refusal → Host.Outcome State Fault Refusal → Prop
  | .next s, .next t => s.untimed = t.untimed
  | .fault r, .fault q => r = q
  | .refused r, .refused q => r = q
  | .next _, .fault _ => False
  | .next _, .refused _ => False
  | .fault _, .next _ => False
  | .fault _, .refused _ => False
  | .refused _, .next _ => False
  | .refused _, .fault _ => False

/-- `n` engine steps one after another, each of which pays one instruction period (R155, R156), `none` where one of them
halts the machine. -/
def paidSteps : Nat → State → Option State
  | 0, s => some s
  | n + 1, s =>
    match engineStep (s.quiet.payInstr (instrPeriod Config.ips)) with
    | .next t => if t.halted then none else paidSteps n t
    | .fault _ => none
    | .refused _ => none

end Sys2Proof.Machine
end

