-- ==== Sys2Proof/Certificates/Slice0/Obligations.lean ====
section
/-! DEFINITION. The statements for the provers. Each docstring names the rules of spec/ that the statement formalises. -/

open Sys2Proof Sys2Proof.Machine

/-! ### Encoding -/

/-- 95_test_vectors.md S1, R61, R62, R71: decoding the word, and the bytes, of any well-formed instruction gives it back with
every operand, whatever bytes follow. -/
def Obligations.DecodeEncodeRoundTrip : Prop :=
  ∀ i : Instr, i.wellFormed = true →
    decodeWord (encode i) = .ok i ∧ ∀ rest : List Byte, decode (encodeBytes i ++ rest) = .ok (i, rest)

/-- 95_test_vectors.md S1, R61, R68: a word that decodes is the word of the well-formed instruction it decodes to, so no word has
a bit that the decoder drops. -/
def Obligations.EncodeDecodeRoundTrip : Prop :=
  ∀ (w : Word) (i : Instr), decodeWord w = .ok i → i.wellFormed = true ∧ encode i = w

/-- R71: a word selects a row of the map exactly when `w & mask = match`, and no word selects two rows. -/
def Obligations.OpcodeMapSelectsExactly : Prop :=
  (∀ (w : Word) (r : OpcodeRow), r ∈ opcodeMap →
    ((∃ i, decodeWord w = .ok i ∧ i.mnemonic = r.mnemonic) ↔ w &&& r.mask = r.pattern)) ∧
  opcodeMap.Pairwise fun r q => ∀ w : Word, ¬ (w &&& r.mask = r.pattern ∧ w &&& q.mask = q.pattern)

/-- R65, R66, R67: the words that are illegal, and the words that are malformed. Every other word selects one of the 34
instructions. -/
def Obligations.IllegalAndMalformedWords : Prop :=
  ∀ w : Word,
    (decodeWord w = .error (.illegalOpcode w) ↔
      (w.toNat / 4096 = 0x0 ∧ w ≠ 0x00E0#16 ∧ w ≠ 0x00EE#16) ∨
      (w.toNat / 4096 = 0x8 ∧ w.toNat % 16 ∈ [0x8, 0x9, 0xA, 0xB, 0xC, 0xD, 0xF]) ∨
      (w.toNat / 4096 = 0xE ∧ w.toNat % 256 ∉ [0x9E, 0xA1]) ∨
      (w.toNat / 4096 = 0xF ∧ w.toNat % 256 ∉ [0x07, 0x0A, 0x15, 0x18, 0x1E, 0x29, 0x33, 0x55, 0x65])) ∧
    ((∃ x y n, decodeWord w = .ok (.malformed5 x y n)) ↔ w.toNat / 4096 = 0x5 ∧ w.toNat % 16 ≠ 0) ∧
    ((∃ x y n, decodeWord w = .ok (.malformed9 x y n)) ↔ w.toNat / 4096 = 0x9 ∧ w.toNat % 16 ≠ 0) ∧
    (∀ e, decodeWord w = .error e → e = .illegalOpcode w)

/-- R61, R43, R60: the word of two bytes has the byte at the lower address in its high half; the group and the five derived
fields are the slices of the word, and they overlap as R61 says. -/
def Obligations.DerivedFieldsAreSlices : Prop :=
  (∀ hi lo : Byte, (wordOfBytes hi lo).toNat = 256 * hi.toNat + lo.toNat ∧ bytesOfWord (wordOfBytes hi lo) = [hi, lo]) ∧
  ∀ w : Word,
    (fieldG w).toNat = w.toNat / 4096 ∧ (fieldNNN w).toNat = w.toNat % 4096 ∧ (fieldNN w).toNat = w.toNat % 256 ∧
    (fieldN w).toNat = w.toNat % 16 ∧ (fieldX w).toNat = w.toNat / 256 % 16 ∧ (fieldY w).toNat = w.toNat / 16 % 16 ∧
    fieldNNN w = fieldX w ++ fieldY w ++ fieldN w ∧ fieldNN w = fieldY w ++ fieldN w ∧
    w = fieldG w ++ fieldX w ++ fieldY w ++ fieldN w

/-- 95_test_vectors.md V-D1 to V-D10 and the examples of files 40 to 47: words written out from the formats of R62 and the
instructions they stand for. -/
def Obligations.SampleWordsDecode : Prop :=
  decodeWord 0b0000_0000_1110_0000#16 = .ok .cls ∧
  decodeWord 0b0000_0000_1110_1110#16 = .ok .ret ∧
  decodeWord 0b0001_0010_0011_0100#16 = .ok (.jp 0x234#12) ∧
  decodeWord 0b0011_0100_0001_0010#16 = .ok (.seImm 0x4#4 0x12#8) ∧
  decodeWord 0b0101_0001_0010_0000#16 = .ok (.seReg 0x1#4 0x2#4) ∧
  decodeWord 0b0101_0001_0010_0001#16 = .ok (.malformed5 0x1#4 0x2#4 0x1#4) ∧
  decodeWord 0b1000_0001_0010_0101#16 = .ok (.sub 0x1#4 0x2#4) ∧
  decodeWord 0b1000_0000_0000_1000#16 = .error (.illegalOpcode 0x8008#16) ∧
  decodeWord 0b1101_0001_0010_1111#16 = .ok (.drw 0x1#4 0x2#4 0xF#4) ∧
  decodeWord 0b1110_0001_1001_1110#16 = .ok (.skp 0x1#4) ∧
  decodeWord 0b1111_0001_0101_0101#16 = .ok (.stRegs 0x1#4)

/-! ### The engine step -/

/-- R64, R43, R23: where it is the engine's turn (the model's free run, log entry 5) and the two bytes at `PC`, high byte first, decode to an instruction, one step
executes exactly that instruction, in the state in which `IR` holds the word and `PC` has been advanced by 2. -/
def Obligations.StepRunsDecodedInstruction : Prop :=
  ∀ (s : State) (hi lo : Byte) (i : Instr),
    EngineTurn s → s.pc.toNat ≤ 0x0FFE →
    s.mem.read (BitVec.ofNat 12 s.pc.toNat) = hi → s.mem.read (BitVec.ofNat 12 (s.pc.toNat + 1)) = lo →
    decodeWord (hi ++ lo) = .ok i →
    step s = exec i { s with ir := hi ++ lo, pc := s.pc + 2#16, out := Outputs.silent }

/-- R155, R156, R164: inside a timed scheduling step with a whole instruction period of budget left, and inside a block (a call of
the model's own, log entry 16) with an engine step left, one step executes the decoded instruction and pays for it. -/
def Obligations.ScheduledStepRunsDecodedInstruction : Prop :=
  ∀ (s : State) (i : Instr),
    s.halted = false → s.pc.toNat ≤ 0x0FFE → decodeWord (s.mem.fetchWord s.pc) = .ok i →
    (s.phase = .timed → instrPeriod Config.ips ≤ s.accI →
      step s = exec i { s with ir := s.mem.fetchWord s.pc, pc := s.pc + 2#16, out := Outputs.silent,
                               accI := s.accI - instrPeriod Config.ips }) ∧
    (∀ left tick, s.phase = .block (left + 1) tick →
      step s = exec i { s with ir := s.mem.fetchWord s.pc, pc := s.pc + 2#16, out := Outputs.silent,
                               phase := .block left tick })

/-- The model's `withFetchWord` (log entry 6), R43, R55: the word of any well-formed instruction, stored at a `PC` that can be
fetched, is what the very next step, one of the free run (log entry 5), runs. -/
def Obligations.StoredWordIsRunNext : Prop :=
  ∀ (s : State) (i : Instr), s.mem.wf → s.pc.toNat ≤ 0x0FFE → i.wellFormed = true →
    step (s.withFetchWord 16 (encode i).toNat) =
      exec i { s.withFetchWord 16 (encode i).toNat with ir := encode i, pc := s.pc + 2#16, out := Outputs.silent }

/-- R47, R145, R149, R156: with `PC` above 0xFFE an engine step sets the fault record and changes nothing else, wherever it is
made: inside a timed scheduling step, after its instruction period is paid; in a block (log entry 16); in the free run, which
is the model's own choice (log entry 5). `u` is the state in which the engine step begins, its budget paid and the output
signals of the last step withdrawn. -/
def Obligations.FetchOutOfRangeFaults : Prop :=
  ∀ s u : State, EngineMove s u → 0x0FFE < s.pc.toNat →
    ∃ t, step s = .next t ∧ t.halted = true ∧ t.faultCode.code = 4#3 ∧ t.faultOpcode = 0x0000#16 ∧ t.faultPc = s.pc ∧
      ChangesOnly (fun c => c = .faultRecord) u t

/-- R66, R144, R149, R156: an illegal word sets the fault record with the word and its address; the fetch phase has run, so `IR`
holds the word and `PC` is `a + 2`; nothing else changes, wherever the engine step is made: inside a timed scheduling step,
after its instruction period is paid; in a block (log entry 16); in the free run, which is the model's own choice (log
entry 5). `u` is the state in which the engine step begins, its budget paid and the output signals of the last step
withdrawn. -/
def Obligations.IllegalOpcodeFaults : Prop :=
  ∀ s u : State, EngineMove s u → s.pc.toNat ≤ 0x0FFE →
    decodeWord (s.mem.fetchWord s.pc) = .error (.illegalOpcode (s.mem.fetchWord s.pc)) →
    ∃ t, step s = .next t ∧ t.halted = true ∧ t.faultCode.code = 3#3 ∧ t.faultOpcode = s.mem.fetchWord s.pc ∧
      t.faultPc = s.pc ∧ t.ir = s.mem.fetchWord s.pc ∧ t.pc.toNat = s.pc.toNat + 2 ∧
      ChangesOnly (fun c => c = .faultRecord ∨ c = .ir ∨ c = .pc) u t

/-- R150, R140: a halted machine with no call pending is stuck (the model's fault `halted`, log entry 19). A step of a halted machine leaves it halted unless it performs
a reset, and then changes no architectural state: only what the host itself writes (the queue, `PAUSED`, `LAST_T`), the
agenda and the withdrawn output signals. That key events stay queued is the model's choice (log entry 10), that `pause` and
`resume` act is its deduction (log entry 12). A fault ends the scheduling step or block in which it happens: no tick and no
presentation follow. -/
def Obligations.HaltedUntilReset : Prop :=
  ∀ s : State, s.halted = true →
    (s.phase = .idle → s.agenda = [] → step s = .fault .halted) ∧
    (s.phase ≠ .idle → ∃ t, step s = .next t ∧ t.phase = .idle ∧ t.agenda = s.agenda ∧ t.out = Outputs.silent ∧
      ChangesOnly (fun c => c = .turn ∨ c = .outputs) s t) ∧
    ∀ t, step s = .next t → (∀ image now rest, s.phase = .idle → s.agenda ≠ .reset image now :: rest) →
      t.halted = true ∧ t.accI = s.accI ∧ t.accT = s.accT ∧ t.out = Outputs.silent ∧
      ChangesOnly (fun c => c = .timing ∨ c = .keyQueue ∨ c = .turn ∨ c = .outputs) s t

/-! ### Jumps, calls, returns -/

/-- R80, R143, R149: `RET` pops into `PC` where `SP` is not 0; where it is, `StackUnderflow` with `IR` and `PC - 2` in the fault
record and nothing else changed. -/
def Obligations.ReturnPopsOrUnderflows : Prop :=
  decodeWord 0x00EE#16 = .ok .ret ∧
  ∀ s : State,
    (∀ j : Fin 16, s.sp.val = j.val + 1 →
      ∃ t, exec .ret s = .next t ∧ t.pc = s.stack[j.val] ∧ t.sp.val = j.val ∧
        ChangesOnly (fun c => c = .pc ∨ c = .sp) s t) ∧
    (s.sp.val = 0 →
      ∃ t, exec .ret s = .next t ∧ t.halted = true ∧ t.faultCode.code = 2#3 ∧ t.faultOpcode = s.ir ∧
        t.faultPc = s.pc - 2#16 ∧ ChangesOnly (fun c => c = .faultRecord) s t)

/-- R81, R83: `JP` and `JP_V0` write `PC` and nothing else; the sum of `JP_V0` uses `V[0]` and is not reduced modulo 4096. -/
def Obligations.JumpsSetPc : Prop :=
  ∀ (s : State) (nnn : Addr),
    decodeWord (0x1#4 ++ nnn) = .ok (.jp nnn) ∧ decodeWord (0xB#4 ++ nnn) = .ok (.jpV0 nnn) ∧
    (∃ t, exec (.jp nnn) s = .next t ∧ t.pc.toNat = nnn.toNat ∧ ChangesOnly (fun c => c = .pc) s t) ∧
    (∃ t, exec (.jpV0 nnn) s = .next t ∧ t.pc.toNat = nnn.toNat + (s.reg 0x0#4).toNat ∧
      ChangesOnly (fun c => c = .pc) s t)

/-- R82, R142, R149: `CALL` pushes `PC` and jumps where `SP` is not 16; where it is, `StackOverflow` with `IR` and `PC - 2` in
the fault record and nothing else changed. -/
def Obligations.CallPushesOrOverflows : Prop :=
  ∀ (s : State) (nnn : Addr),
    decodeWord (0x2#4 ++ nnn) = .ok (.call nnn) ∧
    (∀ j : Fin 16, s.sp.val = j.val →
      ∃ t, exec (.call nnn) s = .next t ∧ t.stack[j.val] = s.pc ∧ t.sp.val = j.val + 1 ∧ t.pc.toNat = nnn.toNat ∧
        ChangesOnly (fun c => c = .pc ∨ c = .sp ∨ c = .stackEntry j) s t) ∧
    (s.sp.val = 16 →
      ∃ t, exec (.call nnn) s = .next t ∧ t.halted = true ∧ t.faultCode.code = 1#3 ∧ t.faultOpcode = s.ir ∧
        t.faultPc = s.pc - 2#16 ∧ ChangesOnly (fun c => c = .faultRecord) s t)

/-- 95_test_vectors.md S6: a `RET` in any later state with the stack that a `CALL` left gives back the `PC` and the `SP` that
were current when the `CALL` executed. -/
def Obligations.CallThenReturnRoundTrip : Prop :=
  ∀ (s t t' : State) (nnn : Addr), s.sp.val < 16 → exec (.call nnn) s = .next t → t'.sp = t.sp → t'.stack = t.stack →
    ∃ u, exec .ret t' = .next u ∧ u.pc = s.pc ∧ u.sp = s.sp ∧ ∀ j : Fin 16, j.val < s.sp.val → u.stack[j.val] = s.stack[j.val]

/-! ### Skips -/

/-- R85, R86, R87, R88: the skips on registers. `PC` already holds `a + 2` (R64), so a taken skip leaves `a + 4` and one that is
not taken `a + 2`; nothing else changes. -/
def Obligations.RegisterSkips : Prop :=
  ∀ (s : State) (x y : Nibble) (nn : Byte),
    decodeWord (0x3#4 ++ x ++ nn) = .ok (.seImm x nn) ∧ decodeWord (0x4#4 ++ x ++ nn) = .ok (.sneImm x nn) ∧
    decodeWord (0x5#4 ++ x ++ y ++ 0x0#4) = .ok (.seReg x y) ∧ decodeWord (0x9#4 ++ x ++ y ++ 0x0#4) = .ok (.sneReg x y) ∧
    (∃ t, exec (.seImm x nn) s = .next t ∧ (s.reg x = nn → t.pc = s.pc + 2#16) ∧ (s.reg x ≠ nn → t.pc = s.pc) ∧
      ChangesOnly (fun c => c = .pc) s t) ∧
    (∃ t, exec (.sneImm x nn) s = .next t ∧ (s.reg x ≠ nn → t.pc = s.pc + 2#16) ∧ (s.reg x = nn → t.pc = s.pc) ∧
      ChangesOnly (fun c => c = .pc) s t) ∧
    (∃ t, exec (.seReg x y) s = .next t ∧ (s.reg x = s.reg y → t.pc = s.pc + 2#16) ∧
      (s.reg x ≠ s.reg y → t.pc = s.pc) ∧ ChangesOnly (fun c => c = .pc) s t) ∧
    (∃ t, exec (.sneReg x y) s = .next t ∧ (s.reg x ≠ s.reg y → t.pc = s.pc + 2#16) ∧
      (s.reg x = s.reg y → t.pc = s.pc) ∧ ChangesOnly (fun c => c = .pc) s t)

/-- R89, R67, R147: a malformed word, under this spec's policy (log entry 9), emits the diagnostic pulse with the word and its
address and changes no state. -/
def Obligations.MalformedWordsAreIgnored : Prop :=
  ∀ (s : State) (x y n : Nibble), n ≠ 0x0#4 →
    decodeWord (0x5#4 ++ x ++ y ++ n) = .ok (.malformed5 x y n) ∧
    decodeWord (0x9#4 ++ x ++ y ++ n) = .ok (.malformed9 x y n) ∧
    ∀ i ∈ [Instr.malformed5 x y n, Instr.malformed9 x y n],
      ∃ t, exec i s = .next t ∧ t.out.diag = some (s.ir, s.pc - 2#16) ∧ ChangesOnly (fun c => c = .outputs) s t

/-! ### Immediates, index, random -/

/-- R90, R91, R96: `LD_IMM`, `ADD_IMM` and `LD_REG` write `V[x]` and nothing else; the sum wraps modulo 256 and no flag is
written. -/
def Obligations.RegisterLoads : Prop :=
  ∀ (s : State) (x y : Nibble) (nn : Byte),
    decodeWord (0x6#4 ++ x ++ nn) = .ok (.ldImm x nn) ∧ decodeWord (0x7#4 ++ x ++ nn) = .ok (.addImm x nn) ∧
    decodeWord (0x8#4 ++ x ++ y ++ 0x0#4) = .ok (.ldReg x y) ∧
    (∃ t, exec (.ldReg x y) s = .next t ∧ t.reg x = s.reg y ∧ ChangesOnly (fun c => c = .reg x) s t) ∧
    (∃ t, exec (.ldImm x nn) s = .next t ∧ t.reg x = nn ∧ ChangesOnly (fun c => c = .reg x) s t) ∧
    (∃ t, exec (.addImm x nn) s = .next t ∧ (t.reg x).toNat = ((s.reg x).toNat + nn.toNat) % 256 ∧
      ChangesOnly (fun c => c = .reg x) s t)

/-- R92, R123, R124: the instructions that write `I`, each with the value it leaves; none writes a flag. The address of a glyph
rests on `FONT_BASE` = 0x050, the value the spec gives by decision D2. -/
def Obligations.IndexArithmetic : Prop :=
  ∀ (s : State) (nnn : Addr) (x : Nibble),
    decodeWord (0xA#4 ++ nnn) = .ok (.ldI nnn) ∧ decodeWord (0xF#4 ++ x ++ 0x1E#8) = .ok (.addI x) ∧
    decodeWord (0xF#4 ++ x ++ 0x29#8) = .ok (.ldF x) ∧
    (∃ t, exec (.ldI nnn) s = .next t ∧ t.i.toNat = nnn.toNat ∧ ChangesOnly (fun c => c = .i) s t) ∧
    (∃ t, exec (.addI x) s = .next t ∧ t.i.toNat = (s.i.toNat + (s.reg x).toNat) % 65536 ∧
      ChangesOnly (fun c => c = .i) s t) ∧
    (∃ t, exec (.ldF x) s = .next t ∧ t.i.toNat = 0x050 + 5 * (s.reg x).toNat ∧ ChangesOnly (fun c => c = .i) s t)

/-- R93: `RND` writes a fresh free byte, masked, whatever that byte is, and draws once. -/
def Obligations.RandomIsMaskedDraw : Prop :=
  ∀ (s : State) (x : Nibble) (nn : Byte),
    decodeWord (0xC#4 ++ x ++ nn) = .ok (.rnd x nn) ∧
    ∃ (r : Byte) (t : State), exec (.rnd x nn) s = .next t ∧ r = Config.randomByte s.draws ∧ t.draws = s.draws + 1 ∧
      t.reg x = r &&& nn ∧ (∀ k, nn.getLsbD k = false → (t.reg x).getLsbD k = false) ∧
      ChangesOnly (fun c => c = .reg x ∨ c = .draws) s t

/-! ### The register-to-register group -/

/-- R97, R98, R99, R9: the logic operations reset the flag, and with `x = 0xF` the flag remains. -/
def Obligations.LogicResetsFlag : Prop :=
  ∀ (s : State) (x y : Nibble),
    decodeWord (0x8#4 ++ x ++ y ++ 0x1#4) = .ok (.orReg x y) ∧ decodeWord (0x8#4 ++ x ++ y ++ 0x2#4) = .ok (.andReg x y) ∧
    decodeWord (0x8#4 ++ x ++ y ++ 0x3#4) = .ok (.xorReg x y) ∧
    ∀ p ∈ [(Instr.orReg x y, s.reg x ||| s.reg y), (Instr.andReg x y, s.reg x &&& s.reg y),
        (Instr.xorReg x y, s.reg x ^^^ s.reg y)],
      ∃ t, exec p.1 s = .next t ∧ t.reg 0xF#4 = 0x00#8 ∧ (x ≠ 0xF#4 → t.reg x = p.2) ∧
        ChangesOnly (fun c => c = .reg x ∨ c = .reg 0xF#4) s t

/-- R100, R9, R105: `ADD_REG` wraps modulo 256 and leaves the carry in the flag. -/
def Obligations.AddSetsCarry : Prop :=
  ∀ (s : State) (x y : Nibble),
    decodeWord (0x8#4 ++ x ++ y ++ 0x4#4) = .ok (.addReg x y) ∧
    ∃ t, exec (.addReg x y) s = .next t ∧
      (x ≠ 0xF#4 → (t.reg x).toNat = ((s.reg x).toNat + (s.reg y).toNat) % 256) ∧
      ((s.reg x).toNat + (s.reg y).toNat > 255 → t.reg 0xF#4 = 0x01#8) ∧
      ((s.reg x).toNat + (s.reg y).toNat ≤ 255 → t.reg 0xF#4 = 0x00#8) ∧
      ChangesOnly (fun c => c = .reg x ∨ c = .reg 0xF#4) s t

/-- R101, R103, R9, R105: the subtractions wrap modulo 256 and leave 1 in the flag exactly when there was no borrow, operands as
before the subtraction. -/
def Obligations.SubtractSetsNoBorrow : Prop :=
  ∀ (s : State) (x y : Nibble),
    decodeWord (0x8#4 ++ x ++ y ++ 0x5#4) = .ok (.sub x y) ∧ decodeWord (0x8#4 ++ x ++ y ++ 0x7#4) = .ok (.subn x y) ∧
    (∃ t, exec (.sub x y) s = .next t ∧
      (x ≠ 0xF#4 → (t.reg x).toNat = ((s.reg x).toNat + 256 - (s.reg y).toNat) % 256) ∧
      (s.reg y ≤ s.reg x → t.reg 0xF#4 = 0x01#8) ∧ (s.reg x < s.reg y → t.reg 0xF#4 = 0x00#8) ∧
      ChangesOnly (fun c => c = .reg x ∨ c = .reg 0xF#4) s t) ∧
    (∃ t, exec (.subn x y) s = .next t ∧
      (x ≠ 0xF#4 → (t.reg x).toNat = ((s.reg y).toNat + 256 - (s.reg x).toNat) % 256) ∧
      (s.reg x ≤ s.reg y → t.reg 0xF#4 = 0x01#8) ∧ (s.reg y < s.reg x → t.reg 0xF#4 = 0x00#8) ∧
      ChangesOnly (fun c => c = .reg x ∨ c = .reg 0xF#4) s t)

/-- R102, R104, R9: the shifts take `V[y]`, by one position, and leave the bit shifted out in the flag. -/
def Obligations.ShiftsTakeSourceFromY : Prop :=
  ∀ (s : State) (x y : Nibble),
    decodeWord (0x8#4 ++ x ++ y ++ 0x6#4) = .ok (.shr x y) ∧ decodeWord (0x8#4 ++ x ++ y ++ 0xE#4) = .ok (.shl x y) ∧
    (∃ t, exec (.shr x y) s = .next t ∧ (x ≠ 0xF#4 → (t.reg x).toNat = (s.reg y).toNat / 2) ∧
      (t.reg 0xF#4).toNat = (s.reg y).toNat % 2 ∧ ChangesOnly (fun c => c = .reg x ∨ c = .reg 0xF#4) s t) ∧
    (∃ t, exec (.shl x y) s = .next t ∧ (x ≠ 0xF#4 → (t.reg x).toNat = 2 * (s.reg y).toNat % 256) ∧
      (t.reg 0xF#4).toNat = (s.reg y).toNat / 128 ∧ ChangesOnly (fun c => c = .reg x ∨ c = .reg 0xF#4) s t)

/-! ### Framebuffer -/

/-- R111, R110: `CLS` clears every cell and changes nothing else. -/
def Obligations.ClearScreen : Prop :=
  decodeWord 0x00E0#16 = .ok .cls ∧
  ∀ s : State, ∃ t, exec .cls s = .next t ∧ (∀ j, j < 2048 → t.fb.linear j = false) ∧ t.fb = State.reset.fb ∧
    ChangesOnly (fun c => ∃ j, c = .cell j) s t

/-- R112, R110, R46: `DRW` XORs the sprite onto the screen, cell by cell, with start wrap and edge clipping, and leaves 1 in the
flag exactly when a drawn 1 bit met a lit cell; nothing else changes. -/
def Obligations.DrawXorsSprite : Prop :=
  ∀ (s : State) (x y n : Nibble),
    decodeWord (0xD#4 ++ x ++ y ++ n) = .ok (.drw x y n) ∧
    ∃ t, exec (.drw x y n) s = .next t ∧
      (∀ cx cy, cx < 64 → cy < 32 → t.fb.cell cx cy = (s.fb.cell cx cy ^^ s.spritePixel x y n cx cy)) ∧
      ((∃ cx cy, cx < 64 ∧ cy < 32 ∧ s.spritePixel x y n cx cy = true ∧ s.fb.cell cx cy = true) → t.reg 0xF#4 = 0x01#8) ∧
      ((∀ cx cy, cx < 64 → cy < 32 → s.spritePixel x y n cx cy = true → s.fb.cell cx cy = false) →
        t.reg 0xF#4 = 0x00#8) ∧
      ChangesOnly (fun c => c = .reg 0xF#4 ∨ ∃ j, c = .cell j) s t

/-- R112 corner case (10), C5: the same sprite drawn twice restores the screen, and the second draw collides exactly when the
first turned a cell on. -/
def Obligations.DrawTwiceRestores : Prop :=
  ∀ (s t t' u : State) (x y n : Nibble), exec (.drw x y n) s = .next t →
    t'.fb = t.fb → t'.mem = s.mem → t'.i = s.i → t'.reg x = s.reg x → t'.reg y = s.reg y →
    exec (.drw x y n) t' = .next u →
    u.fb = s.fb ∧
    (u.reg 0xF#4 = 0x01#8 ↔ ∃ cx cy, cx < 64 ∧ cy < 32 ∧ t.fb.cell cx cy = true ∧ s.fb.cell cx cy = false)

/-! ### Keypad -/

/-- R115, R116, R117: the keypad skips test the key of the low nibble of `V[x]`. Which of the two skips on pressed is the
spec's own pairing (D28). -/
def Obligations.KeypadSkips : Prop :=
  ∀ (s : State) (x k : Nibble), k.toNat = (s.reg x).toNat % 16 →
    decodeWord (0xE#4 ++ x ++ 0x9E#8) = .ok (.skp x) ∧ decodeWord (0xE#4 ++ x ++ 0xA1#8) = .ok (.sknp x) ∧
    (∃ t, exec (.skp x) s = .next t ∧ (s.pressed k = true → t.pc = s.pc + 2#16) ∧ (s.pressed k = false → t.pc = s.pc) ∧
      ChangesOnly (fun c => c = .pc) s t) ∧
    (∃ t, exec (.sknp x) s = .next t ∧ (s.pressed k = false → t.pc = s.pc + 2#16) ∧ (s.pressed k = true → t.pc = s.pc) ∧
      ChangesOnly (fun c => c = .pc) s t)

/-- R118: the key wait. Phase 1 with no key pressed and with the least pressed key chosen; phase 2 while the chosen key is
held, whatever other keys do, and at its release, when the key index is stored once and execution goes on. -/
def Obligations.KeyWaitPhases : Prop :=
  ∀ (s : State) (x : Nibble),
    decodeWord (0xF#4 ++ x ++ 0x0A#8) = .ok (.ldVxK x) ∧
    (s.kwValid = false → (∀ k, s.pressed k = false) →
      ∃ t, exec (.ldVxK x) s = .next t ∧ t.pc = s.pc - 2#16 ∧ ChangesOnly (fun c => c = .pc) s t) ∧
    (∀ k, s.kwValid = false → s.pressed k = true → (∀ j : Nibble, j.toNat < k.toNat → s.pressed j = false) →
      ∃ t, exec (.ldVxK x) s = .next t ∧ t.pc = s.pc - 2#16 ∧ t.kwValid = true ∧ t.kwKey = k ∧
        ChangesOnly (fun c => c = .pc ∨ c = .keyWait) s t) ∧
    (s.kwValid = true → s.pressed s.kwKey = true →
      ∃ t, exec (.ldVxK x) s = .next t ∧ t.pc = s.pc - 2#16 ∧ ChangesOnly (fun c => c = .pc) s t) ∧
    (s.kwValid = true → s.pressed s.kwKey = false →
      ∃ t, exec (.ldVxK x) s = .next t ∧ (t.reg x).toNat = s.kwKey.toNat ∧ t.kwValid = false ∧ t.kwKey = s.kwKey ∧
        ChangesOnly (fun c => c = .reg x ∨ c = .keyWait) s t)

/-! ### Timers -/

/-- R120, R121, R122: the timer accesses. Which of `FX15` and `FX18` writes which timer is the spec's own pairing (D28). -/
def Obligations.TimerAccess : Prop :=
  ∀ (s : State) (x : Nibble),
    decodeWord (0xF#4 ++ x ++ 0x07#8) = .ok (.ldVxDt x) ∧ decodeWord (0xF#4 ++ x ++ 0x15#8) = .ok (.ldDtVx x) ∧
    decodeWord (0xF#4 ++ x ++ 0x18#8) = .ok (.ldStVx x) ∧
    (∃ t, exec (.ldVxDt x) s = .next t ∧ t.reg x = s.dt ∧ ChangesOnly (fun c => c = .reg x) s t) ∧
    (∃ t, exec (.ldDtVx x) s = .next t ∧ t.dt = s.reg x ∧ ChangesOnly (fun c => c = .dt) s t) ∧
    (∃ t, exec (.ldStVx x) s = .next t ∧ t.st = s.reg x ∧ ChangesOnly (fun c => c = .st) s t)

/-! ### Memory operations -/

/-- R127, R46, R44: `BCD` stores the hundreds, tens and ones of `V[x]` at `EA(0)`, `EA(1)`, `EA(2)` and nothing else. -/
def Obligations.BcdStoresDigits : Prop :=
  ∀ (s : State) (x : Nibble), s.mem.wf →
    decodeWord (0xF#4 ++ x ++ 0x33#8) = .ok (.bcd x) ∧
    ∃ t, exec (.bcd x) s = .next t ∧
      (t.mem.read (ea s.i 0)).toNat = (s.reg x).toNat / 100 ∧
      (t.mem.read (ea s.i 1)).toNat = (s.reg x).toNat / 10 % 10 ∧
      (t.mem.read (ea s.i 2)).toNat = (s.reg x).toNat % 10 ∧
      ChangesOnly (StoredFrom s 3) s t

/-- R128, R46, R48: `ST_REGS` stores `V[0]` to `V[x]` at `EA(0)` to `EA(x)` and nothing else. -/
def Obligations.StoreRegisterBlock : Prop :=
  ∀ (s : State) (x : Nibble), s.mem.wf →
    decodeWord (0xF#4 ++ x ++ 0x55#8) = .ok (.stRegs x) ∧
    ∃ t, exec (.stRegs x) s = .next t ∧
      (∀ k : Nibble, k.toNat ≤ x.toNat → t.mem.read (ea s.i k.toNat) = s.reg k) ∧
      ChangesOnly (StoredFrom s (x.toNat + 1)) s t

/-- R129, R46: `LD_REGS` loads `V[0]` to `V[x]` from `EA(0)` to `EA(x)` and nothing else. -/
def Obligations.LoadRegisterBlock : Prop :=
  ∀ (s : State) (x : Nibble),
    decodeWord (0xF#4 ++ x ++ 0x65#8) = .ok (.ldRegs x) ∧
    ∃ t, exec (.ldRegs x) s = .next t ∧
      (∀ k : Nibble, k.toNat ≤ x.toNat → t.reg k = s.mem.read (ea s.i k.toNat)) ∧
      ChangesOnly (fun c => ∃ k : Nibble, k.toNat ≤ x.toNat ∧ c = .reg k) s t

/-- R128, R129, R52: a block stored and later loaded with the same `I` gives the registers back, whatever they held in
between. -/
def Obligations.StoreThenLoadRestores : Prop :=
  ∀ (s t t' : State) (x : Nibble), s.mem.wf → exec (.stRegs x) s = .next t → t'.mem = t.mem → t'.i = t.i →
    ∃ u, exec (.ldRegs x) t' = .next u ∧ ∀ k : Nibble, k.toNat ≤ x.toNat → u.reg k = s.reg k

/-- R55, R43, R188: a program can overwrite the very next instruction. After an `ST_REGS` or a `BCD` the next engine step fetches
the word of the bytes as the store leaves them, the two at `PC` wholly, partly or not at all among those stored, and executes
what it decodes to, wherever the engine step is made: inside a timed scheduling step, in a block (log entry 16), in the free
run, which is the model's own choice (log entry 5). `u` is the state in which that engine step begins. -/
def Obligations.StoreIsSeenByNextFetch : Prop :=
  ∀ (s t u : State) (x : Nibble) (stored : List Byte) (hi lo : Byte) (i : Instr), s.mem.wf → s.pc.toNat ≤ 0x0FFE →
    (exec (.stRegs x) s = .next t ∧ stored = (List.range (x.toNat + 1)).map (fun k => s.reg (BitVec.ofNat 4 k))) ∨
      (exec (.bcd x) s = .next t ∧
        stored = [(s.reg x).toNat / 100, (s.reg x).toNat / 10 % 10, (s.reg x).toNat % 10].map (BitVec.ofNat 8)) →
    EngineMove t u →
    s.byteAfterStore stored (BitVec.ofNat 12 s.pc.toNat) = hi →
    s.byteAfterStore stored (BitVec.ofNat 12 (s.pc.toNat + 1)) = lo →
    decodeWord (hi ++ lo) = .ok i →
    step t = exec i { u with ir := hi ++ lo, pc := s.pc + 2#16 }

/-! ### Which instruction writes what -/

/-- R26, R40, R42: only `CLS` and `DRW` write the framebuffer, only `BCD` and `ST_REGS` write memory. -/
def Obligations.WritersOfMemoryAndFramebuffer : Prop :=
  ∀ (i : Instr) (s t : State), exec i s = .next t →
    ((i ≠ .cls ∧ ∀ x y n, i ≠ .drw x y n) → t.fb = s.fb) ∧
    ((∀ x, i ≠ .bcd x) ∧ (∀ x, i ≠ .stRegs x) → t.mem = s.mem)

/-- R22, R24, R25, R29, R32: only `LD_I`, `ADD_I`, `LD_F` write `I`; only `CALL` and `RET` the stack; only `FX15` writes `DT`, only
`FX18` `ST`; only `FX0A` the key-wait latch. -/
def Obligations.WritersOfSpecialRegisters : Prop :=
  ∀ (i : Instr) (s t : State), exec i s = .next t →
    ((∀ nnn, i ≠ .ldI nnn) ∧ (∀ x, i ≠ .addI x) ∧ (∀ x, i ≠ .ldF x) → t.i = s.i) ∧
    (i ≠ .ret ∧ (∀ nnn, i ≠ .call nnn) → t.sp = s.sp) ∧ ((∀ nnn, i ≠ .call nnn) → t.stack = s.stack) ∧
    ((∀ x, i ≠ .ldDtVx x) → t.dt = s.dt) ∧ ((∀ x, i ≠ .ldStVx x) → t.st = s.st) ∧
    ((∀ x, i ≠ .ldVxK x) → t.kwValid = s.kwValid ∧ t.kwKey = s.kwKey)

/-- R27, R28, R31: no instruction writes the keypad, the scheduler's state, the queue of key events or `IR`. -/
def Obligations.NoInstructionWritesKeypadOrScheduler : Prop :=
  ∀ (i : Instr) (s t : State), exec i s = .next t →
    t.key = s.key ∧ t.ir = s.ir ∧ t.accI = s.accI ∧ t.accT = s.accT ∧ t.lastT = s.lastT ∧ t.paused = s.paused ∧
    t.keyQueue = s.keyQueue ∧ t.phase = s.phase ∧ t.agenda = s.agenda

/-- R21, R185: an instruction that is not one of those that write the flag as a side effect leaves `V[0xF]` unless it names
register 15 as its destination; and one that is leaves 0x00 or 0x01 in it. -/
def Obligations.FlagWriters : Prop :=
  ∀ (i : Instr) (s t : State), exec i s = .next t →
    if i.mnemonic ∈ ["OR", "AND", "XOR", "ADD_REG", "SUB", "SHR", "SUBN", "SHL", "DRW"]
    then t.reg 0xF#4 = 0x00#8 ∨ t.reg 0xF#4 = 0x01#8
    else (∀ nn, i ≠ .ldImm 0xF#4 nn) ∧ (∀ nn, i ≠ .addImm 0xF#4 nn) ∧ (∀ y, i ≠ .ldReg 0xF#4 y) ∧
      (∀ nn, i ≠ .rnd 0xF#4 nn) ∧ i ≠ .ldVxDt 0xF#4 ∧ i ≠ .ldVxK 0xF#4 ∧ i ≠ .ldRegs 0xF#4 → t.reg 0xF#4 = s.reg 0xF#4

/-- R141, R148: an instruction faults only where `RET` finds the stack empty or `CALL` finds it full. -/
def Obligations.OnlyStackFaultsAtExecute : Prop :=
  ∀ (i : Instr) (s : State), s.halted = false →
    ∃ t, exec i s = .next t ∧
      (t.halted = true ↔ (i = .ret ∧ s.sp.val = 0) ∨ ((∃ nnn, i = .call nnn) ∧ s.sp.val = 16))

/-- R23: how an instruction that does not fault leaves `PC`, which holds `a + 2` when it executes: a jump and a call at most
0x0FFF, `JP_V0` at most 0x10FE, a return at a stack entry; a skip at `a + 2` or `a + 4`; the key wait at `a + 2` or at `a`;
every other instruction at `a + 2`. -/
def Obligations.PcAfterInstruction : Prop :=
  ∀ (i : Instr) (s t : State), exec i s = .next t → s.halted = false → t.halted = false →
    if i.mnemonic ∈ ["JP", "CALL"] then t.pc.toNat ≤ 0x0FFF
    else if i.mnemonic = "JP_V0" then t.pc.toNat ≤ 0x10FE
    else if i.mnemonic = "RET" then ∃ j : Fin 16, t.pc = s.stack[j.val]
    else if i.mnemonic ∈ ["SE_IMM", "SNE_IMM", "SE_REG", "SNE_REG", "SKP", "SKNP"] then t.pc = s.pc ∨ t.pc = s.pc + 2#16
    else if i.mnemonic = "LD_VX_K" then t.pc = s.pc ∨ t.pc = s.pc - 2#16
    else t.pc = s.pc

/-- R31, R57, R184: no instruction reads or writes the scheduler's state: in two states that differ only in the accumulators,
`LAST_T`, `PAUSED`, the queued key events, the phase and the pending calls, an engine step does the same, and it leaves all of
these as they were. -/
def Obligations.EngineIgnoresTiming : Prop :=
  ∀ s t : State, s.unscheduled = t.unscheduled →
    ∃ u v, engineStep s = .next u ∧ engineStep t = .next v ∧ u.unscheduled = v.unscheduled ∧
      ∀ c ∈ [Component.timing, .keyQueue, .turn], c.same s u ∧ c.same t v

/-! ### Timers, scheduler, keypad input -/

/-- R154: a tick decrements both timers, each not below zero, and writes nothing else. -/
def Obligations.TickCountsDown : Prop :=
  ∀ s : State, s.tick.dt.toNat = s.dt.toNat - 1 ∧ s.tick.st.toNat = s.st.toNat - 1 ∧
    ChangesOnly (fun c => c = .dt ∨ c = .st) s s.tick

/-- R161, R34: `key_set` and `key_clear` are queued in arrival order, and change neither `KEY` nor anything else. That they are
queued on a halted machine too is the model's choice (log entry 10). -/
def Obligations.KeyCallsAreQueued : Prop :=
  ∀ (s : State) (k : Nibble) (rest : List Call), s.phase = .idle →
    (s.agenda = .keySet k :: rest →
      ∃ t, step s = .next t ∧ t.keyQueue = s.keyQueue ++ [.set k] ∧ t.agenda = rest ∧ t.phase = .idle ∧
        ChangesOnly (fun c => c = .keyQueue ∨ c = .turn ∨ c = .outputs) s t) ∧
    (s.agenda = .keyClear k :: rest →
      ∃ t, step s = .next t ∧ t.keyQueue = s.keyQueue ++ [.clear k] ∧ t.agenda = rest ∧ t.phase = .idle ∧
        ChangesOnly (fun c => c = .keyQueue ∨ c = .turn ∨ c = .outputs) s t)

/-- R156 (1), (2), R161: a scheduling step of a running machine applies every queued key event in arrival order, so that the last
event about a key decides, adds the elapsed time to both accumulators, and changes nothing else. -/
def Obligations.SchedStepOpens : Prop :=
  ∀ (s : State) (now : Rat) (rest : List Call), s.phase = .idle → s.agenda = .schedStep now :: rest →
    s.halted = false → s.paused = false → s.lastT ≤ now →
    ∃ t, step s = .next t ∧ (∀ k, t.pressed k = keyAfter s.keyQueue k (s.pressed k)) ∧ t.keyQueue = [] ∧
      t.accI = s.accI + (now - s.lastT) ∧ t.accT = s.accT + (now - s.lastT) ∧ t.lastT = now ∧ t.paused = false ∧
      t.phase = .timed ∧ t.agenda = rest ∧
      ChangesOnly (fun c => (∃ k, c = .key k) ∨ c = .keyQueue ∨ c = .timing ∨ c = .turn ∨ c = .outputs) s t

/-- R156 (4), R154, R159, R160: with less than an instruction period of budget left, the scheduling step ends with exactly one
tick if a whole timer period has accumulated, which is subtracted once, and none otherwise; `ST` is presented after the
decrement, `FB` last. -/
def Obligations.SchedStepCloses : Prop :=
  ∀ s : State, s.phase = .timed → s.halted = false → s.accI < instrPeriod Config.ips →
    (1 / 60 ≤ s.accT →
      ∃ t, step s = .next t ∧ t.dt.toNat = s.dt.toNat - 1 ∧ t.st.toNat = s.st.toNat - 1 ∧ t.accT = s.accT - 1 / 60 ∧
        t.accI = s.accI ∧ t.lastT = s.lastT ∧ t.paused = s.paused ∧ t.phase = .idle ∧ t.agenda = s.agenda ∧
        t.out = { diag := none, audio := some t.st, display := some s.fb } ∧
        ChangesOnly (fun c => c = .dt ∨ c = .st ∨ c = .timing ∨ c = .turn ∨ c = .outputs) s t) ∧
    (s.accT < 1 / 60 →
      ∃ t, step s = .next t ∧ t.phase = .idle ∧ t.agenda = s.agenda ∧
        t.out = { diag := none, audio := none, display := some s.fb } ∧
        ChangesOnly (fun c => c = .turn ∨ c = .outputs) s t)

/-- R157: `pause` and `resume` write `PAUSED`, and `resume` also `LAST_T`, so that the time spent paused enters no accumulator. A
scheduling step of a paused machine applies the key events, presents `FB`, and changes neither an accumulator nor
`LAST_T`. That `pause` and `resume` act on a halted machine too is the model's deduction (log entry 12). -/
def Obligations.PauseAndResume : Prop :=
  ∀ (s : State) (now : Rat) (rest : List Call), s.phase = .idle →
    (s.agenda = .pause :: rest →
      ∃ t, step s = .next t ∧ t.paused = true ∧ t.accI = s.accI ∧ t.accT = s.accT ∧ t.lastT = s.lastT ∧ t.phase = .idle ∧
        t.agenda = rest ∧ ChangesOnly (fun c => c = .timing ∨ c = .turn ∨ c = .outputs) s t) ∧
    (s.agenda = .resume now :: rest → s.lastT ≤ now →
      ∃ t, step s = .next t ∧ t.paused = false ∧ t.accI = s.accI ∧ t.accT = s.accT ∧ t.lastT = now ∧ t.phase = .idle ∧
        t.agenda = rest ∧ ChangesOnly (fun c => c = .timing ∨ c = .turn ∨ c = .outputs) s t) ∧
    (s.agenda = .schedStep now :: rest → s.lastT ≤ now → s.halted = false → s.paused = true →
      ∃ t, step s = .next t ∧ (∀ k, t.pressed k = keyAfter s.keyQueue k (s.pressed k)) ∧ t.keyQueue = [] ∧
        t.phase = .idle ∧ t.agenda = rest ∧ t.out = { diag := none, audio := none, display := some s.fb } ∧
        ChangesOnly (fun c => (∃ k, c = .key k) ∨ c = .keyQueue ∨ c = .turn ∨ c = .outputs) s t)

/-- R34 (c), D32: a timestamp that goes backwards is outside the interface, and the model refuses it (log entry 23), on a halted
machine too. After a load error `LAST_T` is a free number, and so is whether this applies (log entry 24). -/
def Obligations.BackwardTimestampRefused : Prop :=
  ∀ (s : State) (now : Rat) (rest : List Call), s.phase = .idle → now < s.lastT →
    s.agenda = .schedStep now :: rest ∨ s.agenda = .resume now :: rest → step s = .refused .timestampBackwards

/-- R156, R158: a whole scheduling step of a running machine: with `n = floor((ACC_I + dt) * IPS)`, if none of the `n` engine steps
faults, then after the opening, the `n` engine steps and the close the machine is between scheduling steps again, with
`0 <= ACC_I < P_I` and the budget of exactly `n` instruction periods spent. -/
def Obligations.SchedStepRunsItsBudget : Prop :=
  ∀ (s u : State) (now : Rat) (rest : List Call) (n : Nat), s.phase = .idle → s.agenda = .schedStep now :: rest →
    s.halted = false → s.paused = false → s.lastT ≤ now → 0 ≤ s.accI →
    n = ⌊(s.accI + (now - s.lastT)) * (Config.ips : Rat)⌋₊ →
    paidSteps n ((s.setAgenda rest).openTimed now) = some u →
    Host.Core.run Sys2Proof.core (n + 2) s = .next u.quiet.closeTimed ∧
    u.quiet.closeTimed.phase = .idle ∧ u.quiet.closeTimed.agenda = rest ∧
    u.quiet.closeTimed.accI = s.accI + (now - s.lastT) - n * instrPeriod Config.ips ∧
    0 ≤ u.quiet.closeTimed.accI ∧ u.quiet.closeTimed.accI < instrPeriod Config.ips ∧
    u.quiet.closeTimed.lastT = now ∧
    u.quiet.closeTimed.accT = s.accT + (now - s.lastT) - (if 1 / 60 ≤ s.accT + (now - s.lastT) then 1 / 60 else 0)

/-- R164, R158: a scheduling step is a block: the key changes that the queue holds, `floor((ACC_I + dt) * IPS)` engine steps, and a
tick exactly when a timer period has accumulated. Step by step, faults included, the timed machine and the untimed one
agree on everything but the timing. The call `block` and its presentations are the model's own (log entry 16), and so is the
free run in which both go on after the close (log entry 5). -/
def Obligations.SchedStepIsBlock : Prop :=
  ∀ (s : State) (now : Rat) (k : Nat), s.phase = .idle → s.agenda = [.schedStep now] →
    s.halted = false → s.paused = false → s.lastT ≤ now →
    AgreeUntimed (Host.Core.run Sys2Proof.core (k + 1) s)
      (Host.Core.run Sys2Proof.core (k + 1)
        { s with agenda := [.block s.keyQueue ⌊(s.accI + (now - s.lastT)) * (Config.ips : Rat)⌋₊
                              (decide (1 / 60 ≤ s.accT + (now - s.lastT)))] })

/-! ### Reset -/

/-- R36, R180, R182, R37: a reset with an acceptable image leaves exactly the cold-boot state: every register at its reset
value, the font in its range, the image at 0x200 on, every other byte 0x00. The glyph bytes are the spec's default
(log entry 1). -/
def Obligations.ResetLeavesColdBootState : Prop :=
  ∀ (s : State) (image : List Byte) (now : Rat) (rest : List Call), s.phase = .idle →
    s.agenda = .reset (some image) now :: rest → image.length ≤ 3584 → 0 ≤ now →
    ∃ t, step s = .next t ∧ (∀ x, t.reg x = 0x00#8) ∧ t.pc = 0x0200#16 ∧ t.i = 0x0000#16 ∧ t.sp.val = 0 ∧
      (∀ j : Fin 16, t.stack[j.val] = 0x0000#16) ∧ t.dt = 0x00#8 ∧ t.st = 0x00#8 ∧ (∀ cx cy, t.fb.cell cx cy = false) ∧
      (∀ k, t.pressed k = false) ∧ t.ir = 0x0000#16 ∧ t.kwValid = false ∧ t.kwKey = 0x0#4 ∧ t.halted = false ∧
      t.faultCode.code = 0#3 ∧ t.faultOpcode = 0x0000#16 ∧ t.faultPc = 0x0000#16 ∧ t.accI = 0 ∧ t.accT = 0 ∧
      t.paused = false ∧ t.lastT = now ∧ t.agenda = rest ∧
      (∀ (a : Addr), t.mem.read a =
        if 0x200 ≤ a.toNat then image.getD (a.toNat - 0x200) 0x00#8
        else if 0x050 ≤ a.toNat ∧ a.toNat < 0x0A0 then font.getD (a.toNat - 0x050) 0x00#8 else 0x00#8)

/-- R181: a soft reset gives the cold-boot state whatever ran before: two machines reset with the same image at the same time
differ at most in the model's own draw counter. That the queue of key events is empty after it, whatever was queued, is the
model's choice (log entry 10), which the spec does not state. -/
def Obligations.ResetForgetsThePast : Prop :=
  ∀ (s t : State) (image : List Byte) (now : Rat) (rest : List Call), s.phase = .idle → t.phase = .idle →
    s.agenda = .reset (some image) now :: rest → t.agenda = s.agenda → image.length ≤ 3584 → 0 ≤ now →
    ∃ u v, step s = .next u ∧ step t = .next v ∧ u.draws = s.draws ∧ v = { u with draws := t.draws }

/-- R146, R182, R141: an image that is too long, or unreadable, halts the machine with `LoadError`. Nothing is said of the rest
of the state, which R146 leaves unspecified. -/
def Obligations.LoadErrorHalts : Prop :=
  ∀ (s : State) (image : Option (List Byte)) (now : Rat) (rest : List Call), s.phase = .idle →
    s.agenda = .reset image now :: rest → 0 ≤ now → (∀ bytes, image = some bytes → 3584 < bytes.length) →
    ∃ t, step s = .next t ∧ t.halted = true ∧ t.faultCode.code = 5#3 ∧ t.faultOpcode = 0x0000#16 ∧ t.faultPc = 0x0000#16

/-! ### Invariants -/

/-- The state after reset meets every invariant. -/
def Obligations.ResetMeetsInvariant : Prop := Invariant State.reset

/-- R40: every step keeps the memory canonical, inside 0..4095. -/
def Obligations.MemoryCanonicalInvariant : Prop :=
  ∀ s t : State, MemoryCanonical s → step s = .next t → MemoryCanonical t

/-- R30, R149: every step keeps the fault record consistent with `HALTED`. -/
def Obligations.FaultRecordInvariant : Prop :=
  ∀ s t : State, FaultRecordConsistent s → step s = .next t → FaultRecordConsistent t

/-- R118 corner case (6): every step keeps that a chosen key is remembered only while `PC` points at the waiting `FX0A`. -/
def Obligations.KeyWaitInvariant : Prop :=
  ∀ s t : State, FaultRecordConsistent s → KeyWaitAtInstruction s → step s = .next t → KeyWaitAtInstruction t

/-- R23, R83, R24: every step keeps `PC` at most 0x10FE and every stack entry at most 0x1000, so `PC + 2` never wraps. -/
def Obligations.PcBoundedInvariant : Prop :=
  ∀ s t : State, FaultRecordConsistent s → PcBounded s → step s = .next t → PcBounded t

/-- R31, R156: every step keeps the times non-negative, and the budget below one instruction period outside a timed scheduling
step. -/
def Obligations.BudgetInvariant : Prop :=
  ∀ s t : State, TimesNonnegative s ∧ BudgetBelowPeriod s → step s = .next t → TimesNonnegative t ∧ BudgetBelowPeriod t
end

