-- ==== Sys2Proof/Laws/Decode.lean ====
section
/-! SUPPORT. The fields of a word as numbers, and of a word put together from its parts. -/

namespace Sys2Proof

theorem fieldG_toNat (w : Word) : (fieldG w).toNat = w.toNat / 4096 := by
  have := w.isLt
  simp only [fieldG, BitVec.extractLsb'_toNat, Nat.shiftRight_eq_div_pow]
  omega

theorem fieldNNN_toNat (w : Word) : (fieldNNN w).toNat = w.toNat % 4096 := by
  simp only [fieldNNN, BitVec.extractLsb'_toNat, Nat.shiftRight_eq_div_pow]
  omega

theorem fieldNN_toNat (w : Word) : (fieldNN w).toNat = w.toNat % 256 := by
  simp only [fieldNN, BitVec.extractLsb'_toNat, Nat.shiftRight_eq_div_pow]
  omega

theorem fieldN_toNat (w : Word) : (fieldN w).toNat = w.toNat % 16 := by
  simp only [fieldN, BitVec.extractLsb'_toNat, Nat.shiftRight_eq_div_pow]
  omega

theorem fieldX_toNat (w : Word) : (fieldX w).toNat = w.toNat / 256 % 16 := by
  simp only [fieldX, BitVec.extractLsb'_toNat, Nat.shiftRight_eq_div_pow]

theorem fieldY_toNat (w : Word) : (fieldY w).toNat = w.toNat / 16 % 16 := by
  simp only [fieldY, BitVec.extractLsb'_toNat, Nat.shiftRight_eq_div_pow]

/-- A concatenation as a number. -/
theorem toNat_append_eq {m n : Nat} (a : BitVec m) (b : BitVec n) : (a ++ b).toNat = a.toNat * 2 ^ n + b.toNat := by
  rw [BitVec.toNat_append, ← Nat.shiftLeft_add_eq_or_of_lt b.isLt, Nat.shiftLeft_eq]

/-- Format `NNN` (R62). -/
theorem nnn_toNat (g : Nibble) (a : Addr) : (g ++ a : Word).toNat = g.toNat * 4096 + a.toNat :=
  toNat_append_eq g a

/-- Format `XNN` and `XFF` (R62). -/
theorem xnn_toNat (g x : Nibble) (b : Byte) : (g ++ x ++ b : Word).toNat = g.toNat * 4096 + x.toNat * 256 + b.toNat := by
  have h1 := toNat_append_eq (g ++ x) b
  have h2 := toNat_append_eq g x
  rw [h2] at h1
  exact h1.trans (by omega)

/-- Format `XYN` (R62). -/
theorem xyn_toNat (g x y n : Nibble) :
    (g ++ x ++ y ++ n : Word).toNat = g.toNat * 4096 + x.toNat * 256 + y.toNat * 16 + n.toNat := by
  have h1 := toNat_append_eq (g ++ x ++ y) n
  have h2 := toNat_append_eq (g ++ x) y
  have h3 := toNat_append_eq g x
  rw [h2, h3] at h1
  exact h1.trans (by omega)

/-! ### The fields of a word in each format -/

section
variable (g x y n : Nibble) (a : Addr) (b : Byte)

@[simp] theorem fieldG_nnn : fieldG (g ++ a) = g := by
  apply BitVec.eq_of_toNat_eq; have := a.isLt; have := g.isLt; rw [fieldG_toNat, nnn_toNat]; omega
@[simp] theorem fieldNNN_nnn : fieldNNN (g ++ a) = a := by
  apply BitVec.eq_of_toNat_eq; have := a.isLt; rw [fieldNNN_toNat, nnn_toNat]; omega
@[simp] theorem fieldG_xnn : fieldG (g ++ x ++ b) = g := by
  apply BitVec.eq_of_toNat_eq; have := x.isLt; have := b.isLt; rw [fieldG_toNat, xnn_toNat]; omega
@[simp] theorem fieldX_xnn : fieldX (g ++ x ++ b) = x := by
  apply BitVec.eq_of_toNat_eq; have := x.isLt; have := b.isLt; rw [fieldX_toNat, xnn_toNat]; omega
@[simp] theorem fieldNN_xnn : fieldNN (g ++ x ++ b) = b := by
  apply BitVec.eq_of_toNat_eq; have := x.isLt; have := b.isLt; rw [fieldNN_toNat, xnn_toNat]; omega
@[simp] theorem fieldG_xyn : fieldG (g ++ x ++ y ++ n) = g := by
  apply BitVec.eq_of_toNat_eq; have := x.isLt; have := y.isLt; have := n.isLt; rw [fieldG_toNat, xyn_toNat]; omega
@[simp] theorem fieldX_xyn : fieldX (g ++ x ++ y ++ n) = x := by
  apply BitVec.eq_of_toNat_eq; have := x.isLt; have := y.isLt; have := n.isLt; rw [fieldX_toNat, xyn_toNat]; omega
@[simp] theorem fieldY_xyn : fieldY (g ++ x ++ y ++ n) = y := by
  apply BitVec.eq_of_toNat_eq; have := x.isLt; have := y.isLt; have := n.isLt; rw [fieldY_toNat, xyn_toNat]; omega
@[simp] theorem fieldN_xyn : fieldN (g ++ x ++ y ++ n) = n := by
  apply BitVec.eq_of_toNat_eq; have := x.isLt; have := y.isLt; have := n.isLt; rw [fieldN_toNat, xyn_toNat]; omega

end

/-- The two bytes of a word put together again (R43). -/
theorem wordOfBytes_bytesOfWord (w : Word) : wordOfBytes (w.extractLsb' 8 8) (w.extractLsb' 0 8) = w := by
  apply BitVec.eq_of_toNat_eq
  have := w.isLt
  have h := toNat_append_eq (w.extractLsb' 8 8) (w.extractLsb' 0 8)
  simp only [BitVec.extractLsb'_toNat, Nat.shiftRight_eq_div_pow] at h
  exact h.trans (by omega)

end Sys2Proof
end

