-- ==== Sys2Proof/Laws/State.lean ====
section
/-! SUPPORT. One lemma per field per named update of `State`, so that no later proof unfolds an update. The proofs are written `(rfl)`,
not `rfl`: `simp` then rewrites a condition together with its decision procedure, and `split_ifs` works on the result. -/

namespace Sys2Proof.Machine

variable (s : State)

/-! ### `setReg` -/

@[simp] theorem State.setReg_mem (x : Nibble) (b : Byte) : (s.setReg x b).mem = s.mem := (rfl)
@[simp] theorem State.setReg_v (x : Nibble) (b : Byte) : (s.setReg x b).v = s.v.set x.toNat b x.isLt := (rfl)
@[simp] theorem State.setReg_i (x : Nibble) (b : Byte) : (s.setReg x b).i = s.i := (rfl)
@[simp] theorem State.setReg_pc (x : Nibble) (b : Byte) : (s.setReg x b).pc = s.pc := (rfl)
@[simp] theorem State.setReg_stack (x : Nibble) (b : Byte) : (s.setReg x b).stack = s.stack := (rfl)
@[simp] theorem State.setReg_sp (x : Nibble) (b : Byte) : (s.setReg x b).sp = s.sp := (rfl)
@[simp] theorem State.setReg_dt (x : Nibble) (b : Byte) : (s.setReg x b).dt = s.dt := (rfl)
@[simp] theorem State.setReg_st (x : Nibble) (b : Byte) : (s.setReg x b).st = s.st := (rfl)
@[simp] theorem State.setReg_fb (x : Nibble) (b : Byte) : (s.setReg x b).fb = s.fb := (rfl)
@[simp] theorem State.setReg_key (x : Nibble) (b : Byte) : (s.setReg x b).key = s.key := (rfl)
@[simp] theorem State.setReg_ir (x : Nibble) (b : Byte) : (s.setReg x b).ir = s.ir := (rfl)
@[simp] theorem State.setReg_kwValid (x : Nibble) (b : Byte) : (s.setReg x b).kwValid = s.kwValid := (rfl)
@[simp] theorem State.setReg_kwKey (x : Nibble) (b : Byte) : (s.setReg x b).kwKey = s.kwKey := (rfl)
@[simp] theorem State.setReg_halted (x : Nibble) (b : Byte) : (s.setReg x b).halted = s.halted := (rfl)
@[simp] theorem State.setReg_faultCode (x : Nibble) (b : Byte) : (s.setReg x b).faultCode = s.faultCode := (rfl)
@[simp] theorem State.setReg_faultOpcode (x : Nibble) (b : Byte) : (s.setReg x b).faultOpcode = s.faultOpcode := (rfl)
@[simp] theorem State.setReg_faultPc (x : Nibble) (b : Byte) : (s.setReg x b).faultPc = s.faultPc := (rfl)
@[simp] theorem State.setReg_accI (x : Nibble) (b : Byte) : (s.setReg x b).accI = s.accI := (rfl)
@[simp] theorem State.setReg_accT (x : Nibble) (b : Byte) : (s.setReg x b).accT = s.accT := (rfl)
@[simp] theorem State.setReg_lastT (x : Nibble) (b : Byte) : (s.setReg x b).lastT = s.lastT := (rfl)
@[simp] theorem State.setReg_paused (x : Nibble) (b : Byte) : (s.setReg x b).paused = s.paused := (rfl)
@[simp] theorem State.setReg_keyQueue (x : Nibble) (b : Byte) : (s.setReg x b).keyQueue = s.keyQueue := (rfl)
@[simp] theorem State.setReg_phase (x : Nibble) (b : Byte) : (s.setReg x b).phase = s.phase := (rfl)
@[simp] theorem State.setReg_agenda (x : Nibble) (b : Byte) : (s.setReg x b).agenda = s.agenda := (rfl)
@[simp] theorem State.setReg_draws (x : Nibble) (b : Byte) : (s.setReg x b).draws = s.draws := (rfl)
@[simp] theorem State.setReg_out (x : Nibble) (b : Byte) : (s.setReg x b).out = s.out := (rfl)
@[simp] theorem State.setReg_pressed (x : Nibble) (b : Byte) (z : Nibble) : (s.setReg x b).pressed z = s.pressed z := (rfl)
@[simp] theorem State.setReg_instrAddr (x : Nibble) (b : Byte) : (s.setReg x b).instrAddr = s.instrAddr := (rfl)

/-! ### `setResult` -/

@[simp] theorem State.setResult_mem (x : Nibble) (r f : Byte) : (s.setResult x r f).mem = s.mem := (rfl)
@[simp] theorem State.setResult_i (x : Nibble) (r f : Byte) : (s.setResult x r f).i = s.i := (rfl)
@[simp] theorem State.setResult_pc (x : Nibble) (r f : Byte) : (s.setResult x r f).pc = s.pc := (rfl)
@[simp] theorem State.setResult_stack (x : Nibble) (r f : Byte) : (s.setResult x r f).stack = s.stack := (rfl)
@[simp] theorem State.setResult_sp (x : Nibble) (r f : Byte) : (s.setResult x r f).sp = s.sp := (rfl)
@[simp] theorem State.setResult_dt (x : Nibble) (r f : Byte) : (s.setResult x r f).dt = s.dt := (rfl)
@[simp] theorem State.setResult_st (x : Nibble) (r f : Byte) : (s.setResult x r f).st = s.st := (rfl)
@[simp] theorem State.setResult_fb (x : Nibble) (r f : Byte) : (s.setResult x r f).fb = s.fb := (rfl)
@[simp] theorem State.setResult_key (x : Nibble) (r f : Byte) : (s.setResult x r f).key = s.key := (rfl)
@[simp] theorem State.setResult_ir (x : Nibble) (r f : Byte) : (s.setResult x r f).ir = s.ir := (rfl)
@[simp] theorem State.setResult_kwValid (x : Nibble) (r f : Byte) : (s.setResult x r f).kwValid = s.kwValid := (rfl)
@[simp] theorem State.setResult_kwKey (x : Nibble) (r f : Byte) : (s.setResult x r f).kwKey = s.kwKey := (rfl)
@[simp] theorem State.setResult_halted (x : Nibble) (r f : Byte) : (s.setResult x r f).halted = s.halted := (rfl)
@[simp] theorem State.setResult_faultCode (x : Nibble) (r f : Byte) : (s.setResult x r f).faultCode = s.faultCode := (rfl)
@[simp] theorem State.setResult_faultOpcode (x : Nibble) (r f : Byte) : (s.setResult x r f).faultOpcode = s.faultOpcode := (rfl)
@[simp] theorem State.setResult_faultPc (x : Nibble) (r f : Byte) : (s.setResult x r f).faultPc = s.faultPc := (rfl)
@[simp] theorem State.setResult_accI (x : Nibble) (r f : Byte) : (s.setResult x r f).accI = s.accI := (rfl)
@[simp] theorem State.setResult_accT (x : Nibble) (r f : Byte) : (s.setResult x r f).accT = s.accT := (rfl)
@[simp] theorem State.setResult_lastT (x : Nibble) (r f : Byte) : (s.setResult x r f).lastT = s.lastT := (rfl)
@[simp] theorem State.setResult_paused (x : Nibble) (r f : Byte) : (s.setResult x r f).paused = s.paused := (rfl)
@[simp] theorem State.setResult_keyQueue (x : Nibble) (r f : Byte) : (s.setResult x r f).keyQueue = s.keyQueue := (rfl)
@[simp] theorem State.setResult_phase (x : Nibble) (r f : Byte) : (s.setResult x r f).phase = s.phase := (rfl)
@[simp] theorem State.setResult_agenda (x : Nibble) (r f : Byte) : (s.setResult x r f).agenda = s.agenda := (rfl)
@[simp] theorem State.setResult_draws (x : Nibble) (r f : Byte) : (s.setResult x r f).draws = s.draws := (rfl)
@[simp] theorem State.setResult_out (x : Nibble) (r f : Byte) : (s.setResult x r f).out = s.out := (rfl)
@[simp] theorem State.setResult_pressed (x : Nibble) (r f : Byte) (z : Nibble) : (s.setResult x r f).pressed z = s.pressed z := (rfl)
@[simp] theorem State.setResult_instrAddr (x : Nibble) (r f : Byte) : (s.setResult x r f).instrAddr = s.instrAddr := (rfl)

/-! ### `setI` -/

@[simp] theorem State.setI_mem (w : Word) : (s.setI w).mem = s.mem := (rfl)
@[simp] theorem State.setI_v (w : Word) : (s.setI w).v = s.v := (rfl)
@[simp] theorem State.setI_i (w : Word) : (s.setI w).i = w := (rfl)
@[simp] theorem State.setI_pc (w : Word) : (s.setI w).pc = s.pc := (rfl)
@[simp] theorem State.setI_stack (w : Word) : (s.setI w).stack = s.stack := (rfl)
@[simp] theorem State.setI_sp (w : Word) : (s.setI w).sp = s.sp := (rfl)
@[simp] theorem State.setI_dt (w : Word) : (s.setI w).dt = s.dt := (rfl)
@[simp] theorem State.setI_st (w : Word) : (s.setI w).st = s.st := (rfl)
@[simp] theorem State.setI_fb (w : Word) : (s.setI w).fb = s.fb := (rfl)
@[simp] theorem State.setI_key (w : Word) : (s.setI w).key = s.key := (rfl)
@[simp] theorem State.setI_ir (w : Word) : (s.setI w).ir = s.ir := (rfl)
@[simp] theorem State.setI_kwValid (w : Word) : (s.setI w).kwValid = s.kwValid := (rfl)
@[simp] theorem State.setI_kwKey (w : Word) : (s.setI w).kwKey = s.kwKey := (rfl)
@[simp] theorem State.setI_halted (w : Word) : (s.setI w).halted = s.halted := (rfl)
@[simp] theorem State.setI_faultCode (w : Word) : (s.setI w).faultCode = s.faultCode := (rfl)
@[simp] theorem State.setI_faultOpcode (w : Word) : (s.setI w).faultOpcode = s.faultOpcode := (rfl)
@[simp] theorem State.setI_faultPc (w : Word) : (s.setI w).faultPc = s.faultPc := (rfl)
@[simp] theorem State.setI_accI (w : Word) : (s.setI w).accI = s.accI := (rfl)
@[simp] theorem State.setI_accT (w : Word) : (s.setI w).accT = s.accT := (rfl)
@[simp] theorem State.setI_lastT (w : Word) : (s.setI w).lastT = s.lastT := (rfl)
@[simp] theorem State.setI_paused (w : Word) : (s.setI w).paused = s.paused := (rfl)
@[simp] theorem State.setI_keyQueue (w : Word) : (s.setI w).keyQueue = s.keyQueue := (rfl)
@[simp] theorem State.setI_phase (w : Word) : (s.setI w).phase = s.phase := (rfl)
@[simp] theorem State.setI_agenda (w : Word) : (s.setI w).agenda = s.agenda := (rfl)
@[simp] theorem State.setI_draws (w : Word) : (s.setI w).draws = s.draws := (rfl)
@[simp] theorem State.setI_out (w : Word) : (s.setI w).out = s.out := (rfl)
@[simp] theorem State.setI_reg (w : Word) (z : Nibble) : (s.setI w).reg z = s.reg z := (rfl)
@[simp] theorem State.setI_pressed (w : Word) (z : Nibble) : (s.setI w).pressed z = s.pressed z := (rfl)
@[simp] theorem State.setI_instrAddr (w : Word) : (s.setI w).instrAddr = s.instrAddr := (rfl)

/-! ### `setPc` -/

@[simp] theorem State.setPc_mem (w : Word) : (s.setPc w).mem = s.mem := (rfl)
@[simp] theorem State.setPc_v (w : Word) : (s.setPc w).v = s.v := (rfl)
@[simp] theorem State.setPc_i (w : Word) : (s.setPc w).i = s.i := (rfl)
@[simp] theorem State.setPc_pc (w : Word) : (s.setPc w).pc = w := (rfl)
@[simp] theorem State.setPc_stack (w : Word) : (s.setPc w).stack = s.stack := (rfl)
@[simp] theorem State.setPc_sp (w : Word) : (s.setPc w).sp = s.sp := (rfl)
@[simp] theorem State.setPc_dt (w : Word) : (s.setPc w).dt = s.dt := (rfl)
@[simp] theorem State.setPc_st (w : Word) : (s.setPc w).st = s.st := (rfl)
@[simp] theorem State.setPc_fb (w : Word) : (s.setPc w).fb = s.fb := (rfl)
@[simp] theorem State.setPc_key (w : Word) : (s.setPc w).key = s.key := (rfl)
@[simp] theorem State.setPc_ir (w : Word) : (s.setPc w).ir = s.ir := (rfl)
@[simp] theorem State.setPc_kwValid (w : Word) : (s.setPc w).kwValid = s.kwValid := (rfl)
@[simp] theorem State.setPc_kwKey (w : Word) : (s.setPc w).kwKey = s.kwKey := (rfl)
@[simp] theorem State.setPc_halted (w : Word) : (s.setPc w).halted = s.halted := (rfl)
@[simp] theorem State.setPc_faultCode (w : Word) : (s.setPc w).faultCode = s.faultCode := (rfl)
@[simp] theorem State.setPc_faultOpcode (w : Word) : (s.setPc w).faultOpcode = s.faultOpcode := (rfl)
@[simp] theorem State.setPc_faultPc (w : Word) : (s.setPc w).faultPc = s.faultPc := (rfl)
@[simp] theorem State.setPc_accI (w : Word) : (s.setPc w).accI = s.accI := (rfl)
@[simp] theorem State.setPc_accT (w : Word) : (s.setPc w).accT = s.accT := (rfl)
@[simp] theorem State.setPc_lastT (w : Word) : (s.setPc w).lastT = s.lastT := (rfl)
@[simp] theorem State.setPc_paused (w : Word) : (s.setPc w).paused = s.paused := (rfl)
@[simp] theorem State.setPc_keyQueue (w : Word) : (s.setPc w).keyQueue = s.keyQueue := (rfl)
@[simp] theorem State.setPc_phase (w : Word) : (s.setPc w).phase = s.phase := (rfl)
@[simp] theorem State.setPc_agenda (w : Word) : (s.setPc w).agenda = s.agenda := (rfl)
@[simp] theorem State.setPc_draws (w : Word) : (s.setPc w).draws = s.draws := (rfl)
@[simp] theorem State.setPc_out (w : Word) : (s.setPc w).out = s.out := (rfl)
@[simp] theorem State.setPc_reg (w : Word) (z : Nibble) : (s.setPc w).reg z = s.reg z := (rfl)
@[simp] theorem State.setPc_pressed (w : Word) (z : Nibble) : (s.setPc w).pressed z = s.pressed z := (rfl)

/-! ### `skip` -/

@[simp] theorem State.skip_mem : (s.skip).mem = s.mem := (rfl)
@[simp] theorem State.skip_v : (s.skip).v = s.v := (rfl)
@[simp] theorem State.skip_i : (s.skip).i = s.i := (rfl)
@[simp] theorem State.skip_pc : (s.skip).pc = s.pc + 2#16 := (rfl)
@[simp] theorem State.skip_stack : (s.skip).stack = s.stack := (rfl)
@[simp] theorem State.skip_sp : (s.skip).sp = s.sp := (rfl)
@[simp] theorem State.skip_dt : (s.skip).dt = s.dt := (rfl)
@[simp] theorem State.skip_st : (s.skip).st = s.st := (rfl)
@[simp] theorem State.skip_fb : (s.skip).fb = s.fb := (rfl)
@[simp] theorem State.skip_key : (s.skip).key = s.key := (rfl)
@[simp] theorem State.skip_ir : (s.skip).ir = s.ir := (rfl)
@[simp] theorem State.skip_kwValid : (s.skip).kwValid = s.kwValid := (rfl)
@[simp] theorem State.skip_kwKey : (s.skip).kwKey = s.kwKey := (rfl)
@[simp] theorem State.skip_halted : (s.skip).halted = s.halted := (rfl)
@[simp] theorem State.skip_faultCode : (s.skip).faultCode = s.faultCode := (rfl)
@[simp] theorem State.skip_faultOpcode : (s.skip).faultOpcode = s.faultOpcode := (rfl)
@[simp] theorem State.skip_faultPc : (s.skip).faultPc = s.faultPc := (rfl)
@[simp] theorem State.skip_accI : (s.skip).accI = s.accI := (rfl)
@[simp] theorem State.skip_accT : (s.skip).accT = s.accT := (rfl)
@[simp] theorem State.skip_lastT : (s.skip).lastT = s.lastT := (rfl)
@[simp] theorem State.skip_paused : (s.skip).paused = s.paused := (rfl)
@[simp] theorem State.skip_keyQueue : (s.skip).keyQueue = s.keyQueue := (rfl)
@[simp] theorem State.skip_phase : (s.skip).phase = s.phase := (rfl)
@[simp] theorem State.skip_agenda : (s.skip).agenda = s.agenda := (rfl)
@[simp] theorem State.skip_draws : (s.skip).draws = s.draws := (rfl)
@[simp] theorem State.skip_out : (s.skip).out = s.out := (rfl)
@[simp] theorem State.skip_reg (z : Nibble) : (s.skip).reg z = s.reg z := (rfl)
@[simp] theorem State.skip_pressed (z : Nibble) : (s.skip).pressed z = s.pressed z := (rfl)

/-! ### `skipIf` -/

@[simp] theorem State.skipIf_mem (c : Bool) : (s.skipIf c).mem = s.mem := by cases c <;> rfl
@[simp] theorem State.skipIf_v (c : Bool) : (s.skipIf c).v = s.v := by cases c <;> rfl
@[simp] theorem State.skipIf_i (c : Bool) : (s.skipIf c).i = s.i := by cases c <;> rfl
@[simp] theorem State.skipIf_pc (c : Bool) : (s.skipIf c).pc = if c then s.pc + 2#16 else s.pc := by cases c <;> rfl
@[simp] theorem State.skipIf_stack (c : Bool) : (s.skipIf c).stack = s.stack := by cases c <;> rfl
@[simp] theorem State.skipIf_sp (c : Bool) : (s.skipIf c).sp = s.sp := by cases c <;> rfl
@[simp] theorem State.skipIf_dt (c : Bool) : (s.skipIf c).dt = s.dt := by cases c <;> rfl
@[simp] theorem State.skipIf_st (c : Bool) : (s.skipIf c).st = s.st := by cases c <;> rfl
@[simp] theorem State.skipIf_fb (c : Bool) : (s.skipIf c).fb = s.fb := by cases c <;> rfl
@[simp] theorem State.skipIf_key (c : Bool) : (s.skipIf c).key = s.key := by cases c <;> rfl
@[simp] theorem State.skipIf_ir (c : Bool) : (s.skipIf c).ir = s.ir := by cases c <;> rfl
@[simp] theorem State.skipIf_kwValid (c : Bool) : (s.skipIf c).kwValid = s.kwValid := by cases c <;> rfl
@[simp] theorem State.skipIf_kwKey (c : Bool) : (s.skipIf c).kwKey = s.kwKey := by cases c <;> rfl
@[simp] theorem State.skipIf_halted (c : Bool) : (s.skipIf c).halted = s.halted := by cases c <;> rfl
@[simp] theorem State.skipIf_faultCode (c : Bool) : (s.skipIf c).faultCode = s.faultCode := by cases c <;> rfl
@[simp] theorem State.skipIf_faultOpcode (c : Bool) : (s.skipIf c).faultOpcode = s.faultOpcode := by cases c <;> rfl
@[simp] theorem State.skipIf_faultPc (c : Bool) : (s.skipIf c).faultPc = s.faultPc := by cases c <;> rfl
@[simp] theorem State.skipIf_accI (c : Bool) : (s.skipIf c).accI = s.accI := by cases c <;> rfl
@[simp] theorem State.skipIf_accT (c : Bool) : (s.skipIf c).accT = s.accT := by cases c <;> rfl
@[simp] theorem State.skipIf_lastT (c : Bool) : (s.skipIf c).lastT = s.lastT := by cases c <;> rfl
@[simp] theorem State.skipIf_paused (c : Bool) : (s.skipIf c).paused = s.paused := by cases c <;> rfl
@[simp] theorem State.skipIf_keyQueue (c : Bool) : (s.skipIf c).keyQueue = s.keyQueue := by cases c <;> rfl
@[simp] theorem State.skipIf_phase (c : Bool) : (s.skipIf c).phase = s.phase := by cases c <;> rfl
@[simp] theorem State.skipIf_agenda (c : Bool) : (s.skipIf c).agenda = s.agenda := by cases c <;> rfl
@[simp] theorem State.skipIf_draws (c : Bool) : (s.skipIf c).draws = s.draws := by cases c <;> rfl
@[simp] theorem State.skipIf_out (c : Bool) : (s.skipIf c).out = s.out := by cases c <;> rfl
@[simp] theorem State.skipIf_reg (c : Bool) (z : Nibble) : (s.skipIf c).reg z = s.reg z := by cases c <;> rfl
@[simp] theorem State.skipIf_pressed (c : Bool) (z : Nibble) : (s.skipIf c).pressed z = s.pressed z := by cases c <;> rfl

/-! ### `setV` -/

@[simp] theorem State.setV_mem (w : Vector Byte 16) : (s.setV w).mem = s.mem := (rfl)
@[simp] theorem State.setV_v (w : Vector Byte 16) : (s.setV w).v = w := (rfl)
@[simp] theorem State.setV_i (w : Vector Byte 16) : (s.setV w).i = s.i := (rfl)
@[simp] theorem State.setV_pc (w : Vector Byte 16) : (s.setV w).pc = s.pc := (rfl)
@[simp] theorem State.setV_stack (w : Vector Byte 16) : (s.setV w).stack = s.stack := (rfl)
@[simp] theorem State.setV_sp (w : Vector Byte 16) : (s.setV w).sp = s.sp := (rfl)
@[simp] theorem State.setV_dt (w : Vector Byte 16) : (s.setV w).dt = s.dt := (rfl)
@[simp] theorem State.setV_st (w : Vector Byte 16) : (s.setV w).st = s.st := (rfl)
@[simp] theorem State.setV_fb (w : Vector Byte 16) : (s.setV w).fb = s.fb := (rfl)
@[simp] theorem State.setV_key (w : Vector Byte 16) : (s.setV w).key = s.key := (rfl)
@[simp] theorem State.setV_ir (w : Vector Byte 16) : (s.setV w).ir = s.ir := (rfl)
@[simp] theorem State.setV_kwValid (w : Vector Byte 16) : (s.setV w).kwValid = s.kwValid := (rfl)
@[simp] theorem State.setV_kwKey (w : Vector Byte 16) : (s.setV w).kwKey = s.kwKey := (rfl)
@[simp] theorem State.setV_halted (w : Vector Byte 16) : (s.setV w).halted = s.halted := (rfl)
@[simp] theorem State.setV_faultCode (w : Vector Byte 16) : (s.setV w).faultCode = s.faultCode := (rfl)
@[simp] theorem State.setV_faultOpcode (w : Vector Byte 16) : (s.setV w).faultOpcode = s.faultOpcode := (rfl)
@[simp] theorem State.setV_faultPc (w : Vector Byte 16) : (s.setV w).faultPc = s.faultPc := (rfl)
@[simp] theorem State.setV_accI (w : Vector Byte 16) : (s.setV w).accI = s.accI := (rfl)
@[simp] theorem State.setV_accT (w : Vector Byte 16) : (s.setV w).accT = s.accT := (rfl)
@[simp] theorem State.setV_lastT (w : Vector Byte 16) : (s.setV w).lastT = s.lastT := (rfl)
@[simp] theorem State.setV_paused (w : Vector Byte 16) : (s.setV w).paused = s.paused := (rfl)
@[simp] theorem State.setV_keyQueue (w : Vector Byte 16) : (s.setV w).keyQueue = s.keyQueue := (rfl)
@[simp] theorem State.setV_phase (w : Vector Byte 16) : (s.setV w).phase = s.phase := (rfl)
@[simp] theorem State.setV_agenda (w : Vector Byte 16) : (s.setV w).agenda = s.agenda := (rfl)
@[simp] theorem State.setV_draws (w : Vector Byte 16) : (s.setV w).draws = s.draws := (rfl)
@[simp] theorem State.setV_out (w : Vector Byte 16) : (s.setV w).out = s.out := (rfl)
@[simp] theorem State.setV_pressed (w : Vector Byte 16) (z : Nibble) : (s.setV w).pressed z = s.pressed z := (rfl)
@[simp] theorem State.setV_instrAddr (w : Vector Byte 16) : (s.setV w).instrAddr = s.instrAddr := (rfl)

/-! ### `setMem` -/

@[simp] theorem State.setMem_mem (m : Memory) : (s.setMem m).mem = m := (rfl)
@[simp] theorem State.setMem_v (m : Memory) : (s.setMem m).v = s.v := (rfl)
@[simp] theorem State.setMem_i (m : Memory) : (s.setMem m).i = s.i := (rfl)
@[simp] theorem State.setMem_pc (m : Memory) : (s.setMem m).pc = s.pc := (rfl)
@[simp] theorem State.setMem_stack (m : Memory) : (s.setMem m).stack = s.stack := (rfl)
@[simp] theorem State.setMem_sp (m : Memory) : (s.setMem m).sp = s.sp := (rfl)
@[simp] theorem State.setMem_dt (m : Memory) : (s.setMem m).dt = s.dt := (rfl)
@[simp] theorem State.setMem_st (m : Memory) : (s.setMem m).st = s.st := (rfl)
@[simp] theorem State.setMem_fb (m : Memory) : (s.setMem m).fb = s.fb := (rfl)
@[simp] theorem State.setMem_key (m : Memory) : (s.setMem m).key = s.key := (rfl)
@[simp] theorem State.setMem_ir (m : Memory) : (s.setMem m).ir = s.ir := (rfl)
@[simp] theorem State.setMem_kwValid (m : Memory) : (s.setMem m).kwValid = s.kwValid := (rfl)
@[simp] theorem State.setMem_kwKey (m : Memory) : (s.setMem m).kwKey = s.kwKey := (rfl)
@[simp] theorem State.setMem_halted (m : Memory) : (s.setMem m).halted = s.halted := (rfl)
@[simp] theorem State.setMem_faultCode (m : Memory) : (s.setMem m).faultCode = s.faultCode := (rfl)
@[simp] theorem State.setMem_faultOpcode (m : Memory) : (s.setMem m).faultOpcode = s.faultOpcode := (rfl)
@[simp] theorem State.setMem_faultPc (m : Memory) : (s.setMem m).faultPc = s.faultPc := (rfl)
@[simp] theorem State.setMem_accI (m : Memory) : (s.setMem m).accI = s.accI := (rfl)
@[simp] theorem State.setMem_accT (m : Memory) : (s.setMem m).accT = s.accT := (rfl)
@[simp] theorem State.setMem_lastT (m : Memory) : (s.setMem m).lastT = s.lastT := (rfl)
@[simp] theorem State.setMem_paused (m : Memory) : (s.setMem m).paused = s.paused := (rfl)
@[simp] theorem State.setMem_keyQueue (m : Memory) : (s.setMem m).keyQueue = s.keyQueue := (rfl)
@[simp] theorem State.setMem_phase (m : Memory) : (s.setMem m).phase = s.phase := (rfl)
@[simp] theorem State.setMem_agenda (m : Memory) : (s.setMem m).agenda = s.agenda := (rfl)
@[simp] theorem State.setMem_draws (m : Memory) : (s.setMem m).draws = s.draws := (rfl)
@[simp] theorem State.setMem_out (m : Memory) : (s.setMem m).out = s.out := (rfl)
@[simp] theorem State.setMem_reg (m : Memory) (z : Nibble) : (s.setMem m).reg z = s.reg z := (rfl)
@[simp] theorem State.setMem_pressed (m : Memory) (z : Nibble) : (s.setMem m).pressed z = s.pressed z := (rfl)
@[simp] theorem State.setMem_instrAddr (m : Memory) : (s.setMem m).instrAddr = s.instrAddr := (rfl)

/-! ### `setFb` -/

@[simp] theorem State.setFb_mem (f : Framebuffer) : (s.setFb f).mem = s.mem := (rfl)
@[simp] theorem State.setFb_v (f : Framebuffer) : (s.setFb f).v = s.v := (rfl)
@[simp] theorem State.setFb_i (f : Framebuffer) : (s.setFb f).i = s.i := (rfl)
@[simp] theorem State.setFb_pc (f : Framebuffer) : (s.setFb f).pc = s.pc := (rfl)
@[simp] theorem State.setFb_stack (f : Framebuffer) : (s.setFb f).stack = s.stack := (rfl)
@[simp] theorem State.setFb_sp (f : Framebuffer) : (s.setFb f).sp = s.sp := (rfl)
@[simp] theorem State.setFb_dt (f : Framebuffer) : (s.setFb f).dt = s.dt := (rfl)
@[simp] theorem State.setFb_st (f : Framebuffer) : (s.setFb f).st = s.st := (rfl)
@[simp] theorem State.setFb_fb (f : Framebuffer) : (s.setFb f).fb = f := (rfl)
@[simp] theorem State.setFb_key (f : Framebuffer) : (s.setFb f).key = s.key := (rfl)
@[simp] theorem State.setFb_ir (f : Framebuffer) : (s.setFb f).ir = s.ir := (rfl)
@[simp] theorem State.setFb_kwValid (f : Framebuffer) : (s.setFb f).kwValid = s.kwValid := (rfl)
@[simp] theorem State.setFb_kwKey (f : Framebuffer) : (s.setFb f).kwKey = s.kwKey := (rfl)
@[simp] theorem State.setFb_halted (f : Framebuffer) : (s.setFb f).halted = s.halted := (rfl)
@[simp] theorem State.setFb_faultCode (f : Framebuffer) : (s.setFb f).faultCode = s.faultCode := (rfl)
@[simp] theorem State.setFb_faultOpcode (f : Framebuffer) : (s.setFb f).faultOpcode = s.faultOpcode := (rfl)
@[simp] theorem State.setFb_faultPc (f : Framebuffer) : (s.setFb f).faultPc = s.faultPc := (rfl)
@[simp] theorem State.setFb_accI (f : Framebuffer) : (s.setFb f).accI = s.accI := (rfl)
@[simp] theorem State.setFb_accT (f : Framebuffer) : (s.setFb f).accT = s.accT := (rfl)
@[simp] theorem State.setFb_lastT (f : Framebuffer) : (s.setFb f).lastT = s.lastT := (rfl)
@[simp] theorem State.setFb_paused (f : Framebuffer) : (s.setFb f).paused = s.paused := (rfl)
@[simp] theorem State.setFb_keyQueue (f : Framebuffer) : (s.setFb f).keyQueue = s.keyQueue := (rfl)
@[simp] theorem State.setFb_phase (f : Framebuffer) : (s.setFb f).phase = s.phase := (rfl)
@[simp] theorem State.setFb_agenda (f : Framebuffer) : (s.setFb f).agenda = s.agenda := (rfl)
@[simp] theorem State.setFb_draws (f : Framebuffer) : (s.setFb f).draws = s.draws := (rfl)
@[simp] theorem State.setFb_out (f : Framebuffer) : (s.setFb f).out = s.out := (rfl)
@[simp] theorem State.setFb_reg (f : Framebuffer) (z : Nibble) : (s.setFb f).reg z = s.reg z := (rfl)
@[simp] theorem State.setFb_pressed (f : Framebuffer) (z : Nibble) : (s.setFb f).pressed z = s.pressed z := (rfl)
@[simp] theorem State.setFb_instrAddr (f : Framebuffer) : (s.setFb f).instrAddr = s.instrAddr := (rfl)

/-! ### `setDt` -/

@[simp] theorem State.setDt_mem (b : Byte) : (s.setDt b).mem = s.mem := (rfl)
@[simp] theorem State.setDt_v (b : Byte) : (s.setDt b).v = s.v := (rfl)
@[simp] theorem State.setDt_i (b : Byte) : (s.setDt b).i = s.i := (rfl)
@[simp] theorem State.setDt_pc (b : Byte) : (s.setDt b).pc = s.pc := (rfl)
@[simp] theorem State.setDt_stack (b : Byte) : (s.setDt b).stack = s.stack := (rfl)
@[simp] theorem State.setDt_sp (b : Byte) : (s.setDt b).sp = s.sp := (rfl)
@[simp] theorem State.setDt_dt (b : Byte) : (s.setDt b).dt = b := (rfl)
@[simp] theorem State.setDt_st (b : Byte) : (s.setDt b).st = s.st := (rfl)
@[simp] theorem State.setDt_fb (b : Byte) : (s.setDt b).fb = s.fb := (rfl)
@[simp] theorem State.setDt_key (b : Byte) : (s.setDt b).key = s.key := (rfl)
@[simp] theorem State.setDt_ir (b : Byte) : (s.setDt b).ir = s.ir := (rfl)
@[simp] theorem State.setDt_kwValid (b : Byte) : (s.setDt b).kwValid = s.kwValid := (rfl)
@[simp] theorem State.setDt_kwKey (b : Byte) : (s.setDt b).kwKey = s.kwKey := (rfl)
@[simp] theorem State.setDt_halted (b : Byte) : (s.setDt b).halted = s.halted := (rfl)
@[simp] theorem State.setDt_faultCode (b : Byte) : (s.setDt b).faultCode = s.faultCode := (rfl)
@[simp] theorem State.setDt_faultOpcode (b : Byte) : (s.setDt b).faultOpcode = s.faultOpcode := (rfl)
@[simp] theorem State.setDt_faultPc (b : Byte) : (s.setDt b).faultPc = s.faultPc := (rfl)
@[simp] theorem State.setDt_accI (b : Byte) : (s.setDt b).accI = s.accI := (rfl)
@[simp] theorem State.setDt_accT (b : Byte) : (s.setDt b).accT = s.accT := (rfl)
@[simp] theorem State.setDt_lastT (b : Byte) : (s.setDt b).lastT = s.lastT := (rfl)
@[simp] theorem State.setDt_paused (b : Byte) : (s.setDt b).paused = s.paused := (rfl)
@[simp] theorem State.setDt_keyQueue (b : Byte) : (s.setDt b).keyQueue = s.keyQueue := (rfl)
@[simp] theorem State.setDt_phase (b : Byte) : (s.setDt b).phase = s.phase := (rfl)
@[simp] theorem State.setDt_agenda (b : Byte) : (s.setDt b).agenda = s.agenda := (rfl)
@[simp] theorem State.setDt_draws (b : Byte) : (s.setDt b).draws = s.draws := (rfl)
@[simp] theorem State.setDt_out (b : Byte) : (s.setDt b).out = s.out := (rfl)
@[simp] theorem State.setDt_reg (b : Byte) (z : Nibble) : (s.setDt b).reg z = s.reg z := (rfl)
@[simp] theorem State.setDt_pressed (b : Byte) (z : Nibble) : (s.setDt b).pressed z = s.pressed z := (rfl)
@[simp] theorem State.setDt_instrAddr (b : Byte) : (s.setDt b).instrAddr = s.instrAddr := (rfl)

/-! ### `setSt` -/

@[simp] theorem State.setSt_mem (b : Byte) : (s.setSt b).mem = s.mem := (rfl)
@[simp] theorem State.setSt_v (b : Byte) : (s.setSt b).v = s.v := (rfl)
@[simp] theorem State.setSt_i (b : Byte) : (s.setSt b).i = s.i := (rfl)
@[simp] theorem State.setSt_pc (b : Byte) : (s.setSt b).pc = s.pc := (rfl)
@[simp] theorem State.setSt_stack (b : Byte) : (s.setSt b).stack = s.stack := (rfl)
@[simp] theorem State.setSt_sp (b : Byte) : (s.setSt b).sp = s.sp := (rfl)
@[simp] theorem State.setSt_dt (b : Byte) : (s.setSt b).dt = s.dt := (rfl)
@[simp] theorem State.setSt_st (b : Byte) : (s.setSt b).st = b := (rfl)
@[simp] theorem State.setSt_fb (b : Byte) : (s.setSt b).fb = s.fb := (rfl)
@[simp] theorem State.setSt_key (b : Byte) : (s.setSt b).key = s.key := (rfl)
@[simp] theorem State.setSt_ir (b : Byte) : (s.setSt b).ir = s.ir := (rfl)
@[simp] theorem State.setSt_kwValid (b : Byte) : (s.setSt b).kwValid = s.kwValid := (rfl)
@[simp] theorem State.setSt_kwKey (b : Byte) : (s.setSt b).kwKey = s.kwKey := (rfl)
@[simp] theorem State.setSt_halted (b : Byte) : (s.setSt b).halted = s.halted := (rfl)
@[simp] theorem State.setSt_faultCode (b : Byte) : (s.setSt b).faultCode = s.faultCode := (rfl)
@[simp] theorem State.setSt_faultOpcode (b : Byte) : (s.setSt b).faultOpcode = s.faultOpcode := (rfl)
@[simp] theorem State.setSt_faultPc (b : Byte) : (s.setSt b).faultPc = s.faultPc := (rfl)
@[simp] theorem State.setSt_accI (b : Byte) : (s.setSt b).accI = s.accI := (rfl)
@[simp] theorem State.setSt_accT (b : Byte) : (s.setSt b).accT = s.accT := (rfl)
@[simp] theorem State.setSt_lastT (b : Byte) : (s.setSt b).lastT = s.lastT := (rfl)
@[simp] theorem State.setSt_paused (b : Byte) : (s.setSt b).paused = s.paused := (rfl)
@[simp] theorem State.setSt_keyQueue (b : Byte) : (s.setSt b).keyQueue = s.keyQueue := (rfl)
@[simp] theorem State.setSt_phase (b : Byte) : (s.setSt b).phase = s.phase := (rfl)
@[simp] theorem State.setSt_agenda (b : Byte) : (s.setSt b).agenda = s.agenda := (rfl)
@[simp] theorem State.setSt_draws (b : Byte) : (s.setSt b).draws = s.draws := (rfl)
@[simp] theorem State.setSt_out (b : Byte) : (s.setSt b).out = s.out := (rfl)
@[simp] theorem State.setSt_reg (b : Byte) (z : Nibble) : (s.setSt b).reg z = s.reg z := (rfl)
@[simp] theorem State.setSt_pressed (b : Byte) (z : Nibble) : (s.setSt b).pressed z = s.pressed z := (rfl)
@[simp] theorem State.setSt_instrAddr (b : Byte) : (s.setSt b).instrAddr = s.instrAddr := (rfl)

/-! ### `holdKey` -/

@[simp] theorem State.holdKey_mem (k : Nibble) : (s.holdKey k).mem = s.mem := (rfl)
@[simp] theorem State.holdKey_v (k : Nibble) : (s.holdKey k).v = s.v := (rfl)
@[simp] theorem State.holdKey_i (k : Nibble) : (s.holdKey k).i = s.i := (rfl)
@[simp] theorem State.holdKey_pc (k : Nibble) : (s.holdKey k).pc = s.pc := (rfl)
@[simp] theorem State.holdKey_stack (k : Nibble) : (s.holdKey k).stack = s.stack := (rfl)
@[simp] theorem State.holdKey_sp (k : Nibble) : (s.holdKey k).sp = s.sp := (rfl)
@[simp] theorem State.holdKey_dt (k : Nibble) : (s.holdKey k).dt = s.dt := (rfl)
@[simp] theorem State.holdKey_st (k : Nibble) : (s.holdKey k).st = s.st := (rfl)
@[simp] theorem State.holdKey_fb (k : Nibble) : (s.holdKey k).fb = s.fb := (rfl)
@[simp] theorem State.holdKey_key (k : Nibble) : (s.holdKey k).key = s.key := (rfl)
@[simp] theorem State.holdKey_ir (k : Nibble) : (s.holdKey k).ir = s.ir := (rfl)
@[simp] theorem State.holdKey_kwValid (k : Nibble) : (s.holdKey k).kwValid = true := (rfl)
@[simp] theorem State.holdKey_kwKey (k : Nibble) : (s.holdKey k).kwKey = k := (rfl)
@[simp] theorem State.holdKey_halted (k : Nibble) : (s.holdKey k).halted = s.halted := (rfl)
@[simp] theorem State.holdKey_faultCode (k : Nibble) : (s.holdKey k).faultCode = s.faultCode := (rfl)
@[simp] theorem State.holdKey_faultOpcode (k : Nibble) : (s.holdKey k).faultOpcode = s.faultOpcode := (rfl)
@[simp] theorem State.holdKey_faultPc (k : Nibble) : (s.holdKey k).faultPc = s.faultPc := (rfl)
@[simp] theorem State.holdKey_accI (k : Nibble) : (s.holdKey k).accI = s.accI := (rfl)
@[simp] theorem State.holdKey_accT (k : Nibble) : (s.holdKey k).accT = s.accT := (rfl)
@[simp] theorem State.holdKey_lastT (k : Nibble) : (s.holdKey k).lastT = s.lastT := (rfl)
@[simp] theorem State.holdKey_paused (k : Nibble) : (s.holdKey k).paused = s.paused := (rfl)
@[simp] theorem State.holdKey_keyQueue (k : Nibble) : (s.holdKey k).keyQueue = s.keyQueue := (rfl)
@[simp] theorem State.holdKey_phase (k : Nibble) : (s.holdKey k).phase = s.phase := (rfl)
@[simp] theorem State.holdKey_agenda (k : Nibble) : (s.holdKey k).agenda = s.agenda := (rfl)
@[simp] theorem State.holdKey_draws (k : Nibble) : (s.holdKey k).draws = s.draws := (rfl)
@[simp] theorem State.holdKey_out (k : Nibble) : (s.holdKey k).out = s.out := (rfl)
@[simp] theorem State.holdKey_reg (k : Nibble) (z : Nibble) : (s.holdKey k).reg z = s.reg z := (rfl)
@[simp] theorem State.holdKey_pressed (k : Nibble) (z : Nibble) : (s.holdKey k).pressed z = s.pressed z := (rfl)
@[simp] theorem State.holdKey_instrAddr (k : Nibble) : (s.holdKey k).instrAddr = s.instrAddr := (rfl)

/-! ### `releaseKey` -/

@[simp] theorem State.releaseKey_mem : (s.releaseKey).mem = s.mem := (rfl)
@[simp] theorem State.releaseKey_v : (s.releaseKey).v = s.v := (rfl)
@[simp] theorem State.releaseKey_i : (s.releaseKey).i = s.i := (rfl)
@[simp] theorem State.releaseKey_pc : (s.releaseKey).pc = s.pc := (rfl)
@[simp] theorem State.releaseKey_stack : (s.releaseKey).stack = s.stack := (rfl)
@[simp] theorem State.releaseKey_sp : (s.releaseKey).sp = s.sp := (rfl)
@[simp] theorem State.releaseKey_dt : (s.releaseKey).dt = s.dt := (rfl)
@[simp] theorem State.releaseKey_st : (s.releaseKey).st = s.st := (rfl)
@[simp] theorem State.releaseKey_fb : (s.releaseKey).fb = s.fb := (rfl)
@[simp] theorem State.releaseKey_key : (s.releaseKey).key = s.key := (rfl)
@[simp] theorem State.releaseKey_ir : (s.releaseKey).ir = s.ir := (rfl)
@[simp] theorem State.releaseKey_kwValid : (s.releaseKey).kwValid = false := (rfl)
@[simp] theorem State.releaseKey_kwKey : (s.releaseKey).kwKey = s.kwKey := (rfl)
@[simp] theorem State.releaseKey_halted : (s.releaseKey).halted = s.halted := (rfl)
@[simp] theorem State.releaseKey_faultCode : (s.releaseKey).faultCode = s.faultCode := (rfl)
@[simp] theorem State.releaseKey_faultOpcode : (s.releaseKey).faultOpcode = s.faultOpcode := (rfl)
@[simp] theorem State.releaseKey_faultPc : (s.releaseKey).faultPc = s.faultPc := (rfl)
@[simp] theorem State.releaseKey_accI : (s.releaseKey).accI = s.accI := (rfl)
@[simp] theorem State.releaseKey_accT : (s.releaseKey).accT = s.accT := (rfl)
@[simp] theorem State.releaseKey_lastT : (s.releaseKey).lastT = s.lastT := (rfl)
@[simp] theorem State.releaseKey_paused : (s.releaseKey).paused = s.paused := (rfl)
@[simp] theorem State.releaseKey_keyQueue : (s.releaseKey).keyQueue = s.keyQueue := (rfl)
@[simp] theorem State.releaseKey_phase : (s.releaseKey).phase = s.phase := (rfl)
@[simp] theorem State.releaseKey_agenda : (s.releaseKey).agenda = s.agenda := (rfl)
@[simp] theorem State.releaseKey_draws : (s.releaseKey).draws = s.draws := (rfl)
@[simp] theorem State.releaseKey_out : (s.releaseKey).out = s.out := (rfl)
@[simp] theorem State.releaseKey_reg (z : Nibble) : (s.releaseKey).reg z = s.reg z := (rfl)
@[simp] theorem State.releaseKey_pressed (z : Nibble) : (s.releaseKey).pressed z = s.pressed z := (rfl)
@[simp] theorem State.releaseKey_instrAddr : (s.releaseKey).instrAddr = s.instrAddr := (rfl)

/-! ### `drawn` -/

@[simp] theorem State.drawn_mem : (s.drawn).mem = s.mem := (rfl)
@[simp] theorem State.drawn_v : (s.drawn).v = s.v := (rfl)
@[simp] theorem State.drawn_i : (s.drawn).i = s.i := (rfl)
@[simp] theorem State.drawn_pc : (s.drawn).pc = s.pc := (rfl)
@[simp] theorem State.drawn_stack : (s.drawn).stack = s.stack := (rfl)
@[simp] theorem State.drawn_sp : (s.drawn).sp = s.sp := (rfl)
@[simp] theorem State.drawn_dt : (s.drawn).dt = s.dt := (rfl)
@[simp] theorem State.drawn_st : (s.drawn).st = s.st := (rfl)
@[simp] theorem State.drawn_fb : (s.drawn).fb = s.fb := (rfl)
@[simp] theorem State.drawn_key : (s.drawn).key = s.key := (rfl)
@[simp] theorem State.drawn_ir : (s.drawn).ir = s.ir := (rfl)
@[simp] theorem State.drawn_kwValid : (s.drawn).kwValid = s.kwValid := (rfl)
@[simp] theorem State.drawn_kwKey : (s.drawn).kwKey = s.kwKey := (rfl)
@[simp] theorem State.drawn_halted : (s.drawn).halted = s.halted := (rfl)
@[simp] theorem State.drawn_faultCode : (s.drawn).faultCode = s.faultCode := (rfl)
@[simp] theorem State.drawn_faultOpcode : (s.drawn).faultOpcode = s.faultOpcode := (rfl)
@[simp] theorem State.drawn_faultPc : (s.drawn).faultPc = s.faultPc := (rfl)
@[simp] theorem State.drawn_accI : (s.drawn).accI = s.accI := (rfl)
@[simp] theorem State.drawn_accT : (s.drawn).accT = s.accT := (rfl)
@[simp] theorem State.drawn_lastT : (s.drawn).lastT = s.lastT := (rfl)
@[simp] theorem State.drawn_paused : (s.drawn).paused = s.paused := (rfl)
@[simp] theorem State.drawn_keyQueue : (s.drawn).keyQueue = s.keyQueue := (rfl)
@[simp] theorem State.drawn_phase : (s.drawn).phase = s.phase := (rfl)
@[simp] theorem State.drawn_agenda : (s.drawn).agenda = s.agenda := (rfl)
@[simp] theorem State.drawn_draws : (s.drawn).draws = s.draws + 1 := (rfl)
@[simp] theorem State.drawn_out : (s.drawn).out = s.out := (rfl)
@[simp] theorem State.drawn_reg (z : Nibble) : (s.drawn).reg z = s.reg z := (rfl)
@[simp] theorem State.drawn_pressed (z : Nibble) : (s.drawn).pressed z = s.pressed z := (rfl)
@[simp] theorem State.drawn_instrAddr : (s.drawn).instrAddr = s.instrAddr := (rfl)

/-! ### `raise` -/

@[simp] theorem State.raise_mem (c : FaultCode) (w a : Word) : (s.raise c w a).mem = s.mem := (rfl)
@[simp] theorem State.raise_v (c : FaultCode) (w a : Word) : (s.raise c w a).v = s.v := (rfl)
@[simp] theorem State.raise_i (c : FaultCode) (w a : Word) : (s.raise c w a).i = s.i := (rfl)
@[simp] theorem State.raise_pc (c : FaultCode) (w a : Word) : (s.raise c w a).pc = s.pc := (rfl)
@[simp] theorem State.raise_stack (c : FaultCode) (w a : Word) : (s.raise c w a).stack = s.stack := (rfl)
@[simp] theorem State.raise_sp (c : FaultCode) (w a : Word) : (s.raise c w a).sp = s.sp := (rfl)
@[simp] theorem State.raise_dt (c : FaultCode) (w a : Word) : (s.raise c w a).dt = s.dt := (rfl)
@[simp] theorem State.raise_st (c : FaultCode) (w a : Word) : (s.raise c w a).st = s.st := (rfl)
@[simp] theorem State.raise_fb (c : FaultCode) (w a : Word) : (s.raise c w a).fb = s.fb := (rfl)
@[simp] theorem State.raise_key (c : FaultCode) (w a : Word) : (s.raise c w a).key = s.key := (rfl)
@[simp] theorem State.raise_ir (c : FaultCode) (w a : Word) : (s.raise c w a).ir = s.ir := (rfl)
@[simp] theorem State.raise_kwValid (c : FaultCode) (w a : Word) : (s.raise c w a).kwValid = s.kwValid := (rfl)
@[simp] theorem State.raise_kwKey (c : FaultCode) (w a : Word) : (s.raise c w a).kwKey = s.kwKey := (rfl)
@[simp] theorem State.raise_halted (c : FaultCode) (w a : Word) : (s.raise c w a).halted = true := (rfl)
@[simp] theorem State.raise_faultCode (c : FaultCode) (w a : Word) : (s.raise c w a).faultCode = c := (rfl)
@[simp] theorem State.raise_faultOpcode (c : FaultCode) (w a : Word) : (s.raise c w a).faultOpcode = w := (rfl)
@[simp] theorem State.raise_faultPc (c : FaultCode) (w a : Word) : (s.raise c w a).faultPc = a := (rfl)
@[simp] theorem State.raise_accI (c : FaultCode) (w a : Word) : (s.raise c w a).accI = s.accI := (rfl)
@[simp] theorem State.raise_accT (c : FaultCode) (w a : Word) : (s.raise c w a).accT = s.accT := (rfl)
@[simp] theorem State.raise_lastT (c : FaultCode) (w a : Word) : (s.raise c w a).lastT = s.lastT := (rfl)
@[simp] theorem State.raise_paused (c : FaultCode) (w a : Word) : (s.raise c w a).paused = s.paused := (rfl)
@[simp] theorem State.raise_keyQueue (c : FaultCode) (w a : Word) : (s.raise c w a).keyQueue = s.keyQueue := (rfl)
@[simp] theorem State.raise_phase (c : FaultCode) (w a : Word) : (s.raise c w a).phase = s.phase := (rfl)
@[simp] theorem State.raise_agenda (c : FaultCode) (w a : Word) : (s.raise c w a).agenda = s.agenda := (rfl)
@[simp] theorem State.raise_draws (c : FaultCode) (w a : Word) : (s.raise c w a).draws = s.draws := (rfl)
@[simp] theorem State.raise_out (c : FaultCode) (w a : Word) : (s.raise c w a).out = s.out := (rfl)
@[simp] theorem State.raise_reg (c : FaultCode) (w a : Word) (z : Nibble) : (s.raise c w a).reg z = s.reg z := (rfl)
@[simp] theorem State.raise_pressed (c : FaultCode) (w a : Word) (z : Nibble) : (s.raise c w a).pressed z = s.pressed z := (rfl)
@[simp] theorem State.raise_instrAddr (c : FaultCode) (w a : Word) : (s.raise c w a).instrAddr = s.instrAddr := (rfl)

/-! ### `fetched` -/

@[simp] theorem State.fetched_mem (w : Word) : (s.fetched w).mem = s.mem := (rfl)
@[simp] theorem State.fetched_v (w : Word) : (s.fetched w).v = s.v := (rfl)
@[simp] theorem State.fetched_i (w : Word) : (s.fetched w).i = s.i := (rfl)
@[simp] theorem State.fetched_pc (w : Word) : (s.fetched w).pc = s.pc + 2#16 := (rfl)
@[simp] theorem State.fetched_stack (w : Word) : (s.fetched w).stack = s.stack := (rfl)
@[simp] theorem State.fetched_sp (w : Word) : (s.fetched w).sp = s.sp := (rfl)
@[simp] theorem State.fetched_dt (w : Word) : (s.fetched w).dt = s.dt := (rfl)
@[simp] theorem State.fetched_st (w : Word) : (s.fetched w).st = s.st := (rfl)
@[simp] theorem State.fetched_fb (w : Word) : (s.fetched w).fb = s.fb := (rfl)
@[simp] theorem State.fetched_key (w : Word) : (s.fetched w).key = s.key := (rfl)
@[simp] theorem State.fetched_ir (w : Word) : (s.fetched w).ir = w := (rfl)
@[simp] theorem State.fetched_kwValid (w : Word) : (s.fetched w).kwValid = s.kwValid := (rfl)
@[simp] theorem State.fetched_kwKey (w : Word) : (s.fetched w).kwKey = s.kwKey := (rfl)
@[simp] theorem State.fetched_halted (w : Word) : (s.fetched w).halted = s.halted := (rfl)
@[simp] theorem State.fetched_faultCode (w : Word) : (s.fetched w).faultCode = s.faultCode := (rfl)
@[simp] theorem State.fetched_faultOpcode (w : Word) : (s.fetched w).faultOpcode = s.faultOpcode := (rfl)
@[simp] theorem State.fetched_faultPc (w : Word) : (s.fetched w).faultPc = s.faultPc := (rfl)
@[simp] theorem State.fetched_accI (w : Word) : (s.fetched w).accI = s.accI := (rfl)
@[simp] theorem State.fetched_accT (w : Word) : (s.fetched w).accT = s.accT := (rfl)
@[simp] theorem State.fetched_lastT (w : Word) : (s.fetched w).lastT = s.lastT := (rfl)
@[simp] theorem State.fetched_paused (w : Word) : (s.fetched w).paused = s.paused := (rfl)
@[simp] theorem State.fetched_keyQueue (w : Word) : (s.fetched w).keyQueue = s.keyQueue := (rfl)
@[simp] theorem State.fetched_phase (w : Word) : (s.fetched w).phase = s.phase := (rfl)
@[simp] theorem State.fetched_agenda (w : Word) : (s.fetched w).agenda = s.agenda := (rfl)
@[simp] theorem State.fetched_draws (w : Word) : (s.fetched w).draws = s.draws := (rfl)
@[simp] theorem State.fetched_out (w : Word) : (s.fetched w).out = s.out := (rfl)
@[simp] theorem State.fetched_reg (w : Word) (z : Nibble) : (s.fetched w).reg z = s.reg z := (rfl)
@[simp] theorem State.fetched_pressed (w : Word) (z : Nibble) : (s.fetched w).pressed z = s.pressed z := (rfl)

/-! ### `repeatInstr` -/

@[simp] theorem State.repeatInstr_mem : (s.repeatInstr).mem = s.mem := (rfl)
@[simp] theorem State.repeatInstr_v : (s.repeatInstr).v = s.v := (rfl)
@[simp] theorem State.repeatInstr_i : (s.repeatInstr).i = s.i := (rfl)
@[simp] theorem State.repeatInstr_pc : (s.repeatInstr).pc = s.instrAddr := (rfl)
@[simp] theorem State.repeatInstr_stack : (s.repeatInstr).stack = s.stack := (rfl)
@[simp] theorem State.repeatInstr_sp : (s.repeatInstr).sp = s.sp := (rfl)
@[simp] theorem State.repeatInstr_dt : (s.repeatInstr).dt = s.dt := (rfl)
@[simp] theorem State.repeatInstr_st : (s.repeatInstr).st = s.st := (rfl)
@[simp] theorem State.repeatInstr_fb : (s.repeatInstr).fb = s.fb := (rfl)
@[simp] theorem State.repeatInstr_key : (s.repeatInstr).key = s.key := (rfl)
@[simp] theorem State.repeatInstr_ir : (s.repeatInstr).ir = s.ir := (rfl)
@[simp] theorem State.repeatInstr_kwValid : (s.repeatInstr).kwValid = s.kwValid := (rfl)
@[simp] theorem State.repeatInstr_kwKey : (s.repeatInstr).kwKey = s.kwKey := (rfl)
@[simp] theorem State.repeatInstr_halted : (s.repeatInstr).halted = s.halted := (rfl)
@[simp] theorem State.repeatInstr_faultCode : (s.repeatInstr).faultCode = s.faultCode := (rfl)
@[simp] theorem State.repeatInstr_faultOpcode : (s.repeatInstr).faultOpcode = s.faultOpcode := (rfl)
@[simp] theorem State.repeatInstr_faultPc : (s.repeatInstr).faultPc = s.faultPc := (rfl)
@[simp] theorem State.repeatInstr_accI : (s.repeatInstr).accI = s.accI := (rfl)
@[simp] theorem State.repeatInstr_accT : (s.repeatInstr).accT = s.accT := (rfl)
@[simp] theorem State.repeatInstr_lastT : (s.repeatInstr).lastT = s.lastT := (rfl)
@[simp] theorem State.repeatInstr_paused : (s.repeatInstr).paused = s.paused := (rfl)
@[simp] theorem State.repeatInstr_keyQueue : (s.repeatInstr).keyQueue = s.keyQueue := (rfl)
@[simp] theorem State.repeatInstr_phase : (s.repeatInstr).phase = s.phase := (rfl)
@[simp] theorem State.repeatInstr_agenda : (s.repeatInstr).agenda = s.agenda := (rfl)
@[simp] theorem State.repeatInstr_draws : (s.repeatInstr).draws = s.draws := (rfl)
@[simp] theorem State.repeatInstr_out : (s.repeatInstr).out = s.out := (rfl)
@[simp] theorem State.repeatInstr_reg (z : Nibble) : (s.repeatInstr).reg z = s.reg z := (rfl)
@[simp] theorem State.repeatInstr_pressed (z : Nibble) : (s.repeatInstr).pressed z = s.pressed z := (rfl)

/-! ### `chooseKey` -/

@[simp] theorem State.chooseKey_mem : (s.chooseKey).mem = s.mem := by unfold State.chooseKey; split <;> rfl
@[simp] theorem State.chooseKey_v : (s.chooseKey).v = s.v := by unfold State.chooseKey; split <;> rfl
@[simp] theorem State.chooseKey_i : (s.chooseKey).i = s.i := by unfold State.chooseKey; split <;> rfl
@[simp] theorem State.chooseKey_pc : (s.chooseKey).pc = s.pc := by unfold State.chooseKey; split <;> rfl
@[simp] theorem State.chooseKey_stack : (s.chooseKey).stack = s.stack := by unfold State.chooseKey; split <;> rfl
@[simp] theorem State.chooseKey_sp : (s.chooseKey).sp = s.sp := by unfold State.chooseKey; split <;> rfl
@[simp] theorem State.chooseKey_dt : (s.chooseKey).dt = s.dt := by unfold State.chooseKey; split <;> rfl
@[simp] theorem State.chooseKey_st : (s.chooseKey).st = s.st := by unfold State.chooseKey; split <;> rfl
@[simp] theorem State.chooseKey_fb : (s.chooseKey).fb = s.fb := by unfold State.chooseKey; split <;> rfl
@[simp] theorem State.chooseKey_key : (s.chooseKey).key = s.key := by unfold State.chooseKey; split <;> rfl
@[simp] theorem State.chooseKey_ir : (s.chooseKey).ir = s.ir := by unfold State.chooseKey; split <;> rfl
@[simp] theorem State.chooseKey_halted : (s.chooseKey).halted = s.halted := by unfold State.chooseKey; split <;> rfl
@[simp] theorem State.chooseKey_faultCode : (s.chooseKey).faultCode = s.faultCode := by unfold State.chooseKey; split <;> rfl
@[simp] theorem State.chooseKey_faultOpcode : (s.chooseKey).faultOpcode = s.faultOpcode := by unfold State.chooseKey; split <;> rfl
@[simp] theorem State.chooseKey_faultPc : (s.chooseKey).faultPc = s.faultPc := by unfold State.chooseKey; split <;> rfl
@[simp] theorem State.chooseKey_accI : (s.chooseKey).accI = s.accI := by unfold State.chooseKey; split <;> rfl
@[simp] theorem State.chooseKey_accT : (s.chooseKey).accT = s.accT := by unfold State.chooseKey; split <;> rfl
@[simp] theorem State.chooseKey_lastT : (s.chooseKey).lastT = s.lastT := by unfold State.chooseKey; split <;> rfl
@[simp] theorem State.chooseKey_paused : (s.chooseKey).paused = s.paused := by unfold State.chooseKey; split <;> rfl
@[simp] theorem State.chooseKey_keyQueue : (s.chooseKey).keyQueue = s.keyQueue := by unfold State.chooseKey; split <;> rfl
@[simp] theorem State.chooseKey_phase : (s.chooseKey).phase = s.phase := by unfold State.chooseKey; split <;> rfl
@[simp] theorem State.chooseKey_agenda : (s.chooseKey).agenda = s.agenda := by unfold State.chooseKey; split <;> rfl
@[simp] theorem State.chooseKey_draws : (s.chooseKey).draws = s.draws := by unfold State.chooseKey; split <;> rfl
@[simp] theorem State.chooseKey_out : (s.chooseKey).out = s.out := by unfold State.chooseKey; split <;> rfl
@[simp] theorem State.chooseKey_reg (z : Nibble) : (s.chooseKey).reg z = s.reg z := by unfold State.chooseKey; split <;> rfl
@[simp] theorem State.chooseKey_pressed (z : Nibble) : (s.chooseKey).pressed z = s.pressed z := by unfold State.chooseKey; split <;> rfl
@[simp] theorem State.chooseKey_instrAddr : (s.chooseKey).instrAddr = s.instrAddr := by unfold State.chooseKey; split <;> rfl

/-! ### `diagMalformed` -/

@[simp] theorem State.diagMalformed_mem : (s.diagMalformed).mem = s.mem := (rfl)
@[simp] theorem State.diagMalformed_v : (s.diagMalformed).v = s.v := (rfl)
@[simp] theorem State.diagMalformed_i : (s.diagMalformed).i = s.i := (rfl)
@[simp] theorem State.diagMalformed_pc : (s.diagMalformed).pc = s.pc := (rfl)
@[simp] theorem State.diagMalformed_stack : (s.diagMalformed).stack = s.stack := (rfl)
@[simp] theorem State.diagMalformed_sp : (s.diagMalformed).sp = s.sp := (rfl)
@[simp] theorem State.diagMalformed_dt : (s.diagMalformed).dt = s.dt := (rfl)
@[simp] theorem State.diagMalformed_st : (s.diagMalformed).st = s.st := (rfl)
@[simp] theorem State.diagMalformed_fb : (s.diagMalformed).fb = s.fb := (rfl)
@[simp] theorem State.diagMalformed_key : (s.diagMalformed).key = s.key := (rfl)
@[simp] theorem State.diagMalformed_ir : (s.diagMalformed).ir = s.ir := (rfl)
@[simp] theorem State.diagMalformed_kwValid : (s.diagMalformed).kwValid = s.kwValid := (rfl)
@[simp] theorem State.diagMalformed_kwKey : (s.diagMalformed).kwKey = s.kwKey := (rfl)
@[simp] theorem State.diagMalformed_halted : (s.diagMalformed).halted = s.halted := (rfl)
@[simp] theorem State.diagMalformed_faultCode : (s.diagMalformed).faultCode = s.faultCode := (rfl)
@[simp] theorem State.diagMalformed_faultOpcode : (s.diagMalformed).faultOpcode = s.faultOpcode := (rfl)
@[simp] theorem State.diagMalformed_faultPc : (s.diagMalformed).faultPc = s.faultPc := (rfl)
@[simp] theorem State.diagMalformed_accI : (s.diagMalformed).accI = s.accI := (rfl)
@[simp] theorem State.diagMalformed_accT : (s.diagMalformed).accT = s.accT := (rfl)
@[simp] theorem State.diagMalformed_lastT : (s.diagMalformed).lastT = s.lastT := (rfl)
@[simp] theorem State.diagMalformed_paused : (s.diagMalformed).paused = s.paused := (rfl)
@[simp] theorem State.diagMalformed_keyQueue : (s.diagMalformed).keyQueue = s.keyQueue := (rfl)
@[simp] theorem State.diagMalformed_phase : (s.diagMalformed).phase = s.phase := (rfl)
@[simp] theorem State.diagMalformed_agenda : (s.diagMalformed).agenda = s.agenda := (rfl)
@[simp] theorem State.diagMalformed_draws : (s.diagMalformed).draws = s.draws := (rfl)
@[simp] theorem State.diagMalformed_out : (s.diagMalformed).out = { s.out with diag := some (s.ir, s.instrAddr) } := (rfl)
@[simp] theorem State.diagMalformed_reg (z : Nibble) : (s.diagMalformed).reg z = s.reg z := (rfl)
@[simp] theorem State.diagMalformed_pressed (z : Nibble) : (s.diagMalformed).pressed z = s.pressed z := (rfl)
@[simp] theorem State.diagMalformed_instrAddr : (s.diagMalformed).instrAddr = s.instrAddr := (rfl)

/-! ### `tick` -/

@[simp] theorem State.tick_mem : (s.tick).mem = s.mem := (rfl)
@[simp] theorem State.tick_v : (s.tick).v = s.v := (rfl)
@[simp] theorem State.tick_i : (s.tick).i = s.i := (rfl)
@[simp] theorem State.tick_pc : (s.tick).pc = s.pc := (rfl)
@[simp] theorem State.tick_stack : (s.tick).stack = s.stack := (rfl)
@[simp] theorem State.tick_sp : (s.tick).sp = s.sp := (rfl)
@[simp] theorem State.tick_dt : (s.tick).dt = countDown s.dt := (rfl)
@[simp] theorem State.tick_st : (s.tick).st = countDown s.st := (rfl)
@[simp] theorem State.tick_fb : (s.tick).fb = s.fb := (rfl)
@[simp] theorem State.tick_key : (s.tick).key = s.key := (rfl)
@[simp] theorem State.tick_ir : (s.tick).ir = s.ir := (rfl)
@[simp] theorem State.tick_kwValid : (s.tick).kwValid = s.kwValid := (rfl)
@[simp] theorem State.tick_kwKey : (s.tick).kwKey = s.kwKey := (rfl)
@[simp] theorem State.tick_halted : (s.tick).halted = s.halted := (rfl)
@[simp] theorem State.tick_faultCode : (s.tick).faultCode = s.faultCode := (rfl)
@[simp] theorem State.tick_faultOpcode : (s.tick).faultOpcode = s.faultOpcode := (rfl)
@[simp] theorem State.tick_faultPc : (s.tick).faultPc = s.faultPc := (rfl)
@[simp] theorem State.tick_accI : (s.tick).accI = s.accI := (rfl)
@[simp] theorem State.tick_accT : (s.tick).accT = s.accT := (rfl)
@[simp] theorem State.tick_lastT : (s.tick).lastT = s.lastT := (rfl)
@[simp] theorem State.tick_paused : (s.tick).paused = s.paused := (rfl)
@[simp] theorem State.tick_keyQueue : (s.tick).keyQueue = s.keyQueue := (rfl)
@[simp] theorem State.tick_phase : (s.tick).phase = s.phase := (rfl)
@[simp] theorem State.tick_agenda : (s.tick).agenda = s.agenda := (rfl)
@[simp] theorem State.tick_draws : (s.tick).draws = s.draws := (rfl)
@[simp] theorem State.tick_out : (s.tick).out = s.out := (rfl)
@[simp] theorem State.tick_reg (z : Nibble) : (s.tick).reg z = s.reg z := (rfl)
@[simp] theorem State.tick_pressed (z : Nibble) : (s.tick).pressed z = s.pressed z := (rfl)
@[simp] theorem State.tick_instrAddr : (s.tick).instrAddr = s.instrAddr := (rfl)

/-! ### `quiet` -/

@[simp] theorem State.quiet_mem : (s.quiet).mem = s.mem := (rfl)
@[simp] theorem State.quiet_v : (s.quiet).v = s.v := (rfl)
@[simp] theorem State.quiet_i : (s.quiet).i = s.i := (rfl)
@[simp] theorem State.quiet_pc : (s.quiet).pc = s.pc := (rfl)
@[simp] theorem State.quiet_stack : (s.quiet).stack = s.stack := (rfl)
@[simp] theorem State.quiet_sp : (s.quiet).sp = s.sp := (rfl)
@[simp] theorem State.quiet_dt : (s.quiet).dt = s.dt := (rfl)
@[simp] theorem State.quiet_st : (s.quiet).st = s.st := (rfl)
@[simp] theorem State.quiet_fb : (s.quiet).fb = s.fb := (rfl)
@[simp] theorem State.quiet_key : (s.quiet).key = s.key := (rfl)
@[simp] theorem State.quiet_ir : (s.quiet).ir = s.ir := (rfl)
@[simp] theorem State.quiet_kwValid : (s.quiet).kwValid = s.kwValid := (rfl)
@[simp] theorem State.quiet_kwKey : (s.quiet).kwKey = s.kwKey := (rfl)
@[simp] theorem State.quiet_halted : (s.quiet).halted = s.halted := (rfl)
@[simp] theorem State.quiet_faultCode : (s.quiet).faultCode = s.faultCode := (rfl)
@[simp] theorem State.quiet_faultOpcode : (s.quiet).faultOpcode = s.faultOpcode := (rfl)
@[simp] theorem State.quiet_faultPc : (s.quiet).faultPc = s.faultPc := (rfl)
@[simp] theorem State.quiet_accI : (s.quiet).accI = s.accI := (rfl)
@[simp] theorem State.quiet_accT : (s.quiet).accT = s.accT := (rfl)
@[simp] theorem State.quiet_lastT : (s.quiet).lastT = s.lastT := (rfl)
@[simp] theorem State.quiet_paused : (s.quiet).paused = s.paused := (rfl)
@[simp] theorem State.quiet_keyQueue : (s.quiet).keyQueue = s.keyQueue := (rfl)
@[simp] theorem State.quiet_phase : (s.quiet).phase = s.phase := (rfl)
@[simp] theorem State.quiet_agenda : (s.quiet).agenda = s.agenda := (rfl)
@[simp] theorem State.quiet_draws : (s.quiet).draws = s.draws := (rfl)
@[simp] theorem State.quiet_out : (s.quiet).out = Outputs.silent := (rfl)
@[simp] theorem State.quiet_reg (z : Nibble) : (s.quiet).reg z = s.reg z := (rfl)
@[simp] theorem State.quiet_pressed (z : Nibble) : (s.quiet).pressed z = s.pressed z := (rfl)
@[simp] theorem State.quiet_instrAddr : (s.quiet).instrAddr = s.instrAddr := (rfl)

/-! ### `presentAudio` -/

@[simp] theorem State.presentAudio_mem : (s.presentAudio).mem = s.mem := (rfl)
@[simp] theorem State.presentAudio_v : (s.presentAudio).v = s.v := (rfl)
@[simp] theorem State.presentAudio_i : (s.presentAudio).i = s.i := (rfl)
@[simp] theorem State.presentAudio_pc : (s.presentAudio).pc = s.pc := (rfl)
@[simp] theorem State.presentAudio_stack : (s.presentAudio).stack = s.stack := (rfl)
@[simp] theorem State.presentAudio_sp : (s.presentAudio).sp = s.sp := (rfl)
@[simp] theorem State.presentAudio_dt : (s.presentAudio).dt = s.dt := (rfl)
@[simp] theorem State.presentAudio_st : (s.presentAudio).st = s.st := (rfl)
@[simp] theorem State.presentAudio_fb : (s.presentAudio).fb = s.fb := (rfl)
@[simp] theorem State.presentAudio_key : (s.presentAudio).key = s.key := (rfl)
@[simp] theorem State.presentAudio_ir : (s.presentAudio).ir = s.ir := (rfl)
@[simp] theorem State.presentAudio_kwValid : (s.presentAudio).kwValid = s.kwValid := (rfl)
@[simp] theorem State.presentAudio_kwKey : (s.presentAudio).kwKey = s.kwKey := (rfl)
@[simp] theorem State.presentAudio_halted : (s.presentAudio).halted = s.halted := (rfl)
@[simp] theorem State.presentAudio_faultCode : (s.presentAudio).faultCode = s.faultCode := (rfl)
@[simp] theorem State.presentAudio_faultOpcode : (s.presentAudio).faultOpcode = s.faultOpcode := (rfl)
@[simp] theorem State.presentAudio_faultPc : (s.presentAudio).faultPc = s.faultPc := (rfl)
@[simp] theorem State.presentAudio_accI : (s.presentAudio).accI = s.accI := (rfl)
@[simp] theorem State.presentAudio_accT : (s.presentAudio).accT = s.accT := (rfl)
@[simp] theorem State.presentAudio_lastT : (s.presentAudio).lastT = s.lastT := (rfl)
@[simp] theorem State.presentAudio_paused : (s.presentAudio).paused = s.paused := (rfl)
@[simp] theorem State.presentAudio_keyQueue : (s.presentAudio).keyQueue = s.keyQueue := (rfl)
@[simp] theorem State.presentAudio_phase : (s.presentAudio).phase = s.phase := (rfl)
@[simp] theorem State.presentAudio_agenda : (s.presentAudio).agenda = s.agenda := (rfl)
@[simp] theorem State.presentAudio_draws : (s.presentAudio).draws = s.draws := (rfl)
@[simp] theorem State.presentAudio_out : (s.presentAudio).out = { s.out with audio := some s.st } := (rfl)
@[simp] theorem State.presentAudio_reg (z : Nibble) : (s.presentAudio).reg z = s.reg z := (rfl)
@[simp] theorem State.presentAudio_pressed (z : Nibble) : (s.presentAudio).pressed z = s.pressed z := (rfl)
@[simp] theorem State.presentAudio_instrAddr : (s.presentAudio).instrAddr = s.instrAddr := (rfl)

/-! ### `presentDisplay` -/

@[simp] theorem State.presentDisplay_mem : (s.presentDisplay).mem = s.mem := (rfl)
@[simp] theorem State.presentDisplay_v : (s.presentDisplay).v = s.v := (rfl)
@[simp] theorem State.presentDisplay_i : (s.presentDisplay).i = s.i := (rfl)
@[simp] theorem State.presentDisplay_pc : (s.presentDisplay).pc = s.pc := (rfl)
@[simp] theorem State.presentDisplay_stack : (s.presentDisplay).stack = s.stack := (rfl)
@[simp] theorem State.presentDisplay_sp : (s.presentDisplay).sp = s.sp := (rfl)
@[simp] theorem State.presentDisplay_dt : (s.presentDisplay).dt = s.dt := (rfl)
@[simp] theorem State.presentDisplay_st : (s.presentDisplay).st = s.st := (rfl)
@[simp] theorem State.presentDisplay_fb : (s.presentDisplay).fb = s.fb := (rfl)
@[simp] theorem State.presentDisplay_key : (s.presentDisplay).key = s.key := (rfl)
@[simp] theorem State.presentDisplay_ir : (s.presentDisplay).ir = s.ir := (rfl)
@[simp] theorem State.presentDisplay_kwValid : (s.presentDisplay).kwValid = s.kwValid := (rfl)
@[simp] theorem State.presentDisplay_kwKey : (s.presentDisplay).kwKey = s.kwKey := (rfl)
@[simp] theorem State.presentDisplay_halted : (s.presentDisplay).halted = s.halted := (rfl)
@[simp] theorem State.presentDisplay_faultCode : (s.presentDisplay).faultCode = s.faultCode := (rfl)
@[simp] theorem State.presentDisplay_faultOpcode : (s.presentDisplay).faultOpcode = s.faultOpcode := (rfl)
@[simp] theorem State.presentDisplay_faultPc : (s.presentDisplay).faultPc = s.faultPc := (rfl)
@[simp] theorem State.presentDisplay_accI : (s.presentDisplay).accI = s.accI := (rfl)
@[simp] theorem State.presentDisplay_accT : (s.presentDisplay).accT = s.accT := (rfl)
@[simp] theorem State.presentDisplay_lastT : (s.presentDisplay).lastT = s.lastT := (rfl)
@[simp] theorem State.presentDisplay_paused : (s.presentDisplay).paused = s.paused := (rfl)
@[simp] theorem State.presentDisplay_keyQueue : (s.presentDisplay).keyQueue = s.keyQueue := (rfl)
@[simp] theorem State.presentDisplay_phase : (s.presentDisplay).phase = s.phase := (rfl)
@[simp] theorem State.presentDisplay_agenda : (s.presentDisplay).agenda = s.agenda := (rfl)
@[simp] theorem State.presentDisplay_draws : (s.presentDisplay).draws = s.draws := (rfl)
@[simp] theorem State.presentDisplay_out : (s.presentDisplay).out = { s.out with display := some s.fb } := (rfl)
@[simp] theorem State.presentDisplay_reg (z : Nibble) : (s.presentDisplay).reg z = s.reg z := (rfl)
@[simp] theorem State.presentDisplay_pressed (z : Nibble) : (s.presentDisplay).pressed z = s.pressed z := (rfl)
@[simp] theorem State.presentDisplay_instrAddr : (s.presentDisplay).instrAddr = s.instrAddr := (rfl)

/-! ### `setPhase` -/

@[simp] theorem State.setPhase_mem (p : Phase) : (s.setPhase p).mem = s.mem := (rfl)
@[simp] theorem State.setPhase_v (p : Phase) : (s.setPhase p).v = s.v := (rfl)
@[simp] theorem State.setPhase_i (p : Phase) : (s.setPhase p).i = s.i := (rfl)
@[simp] theorem State.setPhase_pc (p : Phase) : (s.setPhase p).pc = s.pc := (rfl)
@[simp] theorem State.setPhase_stack (p : Phase) : (s.setPhase p).stack = s.stack := (rfl)
@[simp] theorem State.setPhase_sp (p : Phase) : (s.setPhase p).sp = s.sp := (rfl)
@[simp] theorem State.setPhase_dt (p : Phase) : (s.setPhase p).dt = s.dt := (rfl)
@[simp] theorem State.setPhase_st (p : Phase) : (s.setPhase p).st = s.st := (rfl)
@[simp] theorem State.setPhase_fb (p : Phase) : (s.setPhase p).fb = s.fb := (rfl)
@[simp] theorem State.setPhase_key (p : Phase) : (s.setPhase p).key = s.key := (rfl)
@[simp] theorem State.setPhase_ir (p : Phase) : (s.setPhase p).ir = s.ir := (rfl)
@[simp] theorem State.setPhase_kwValid (p : Phase) : (s.setPhase p).kwValid = s.kwValid := (rfl)
@[simp] theorem State.setPhase_kwKey (p : Phase) : (s.setPhase p).kwKey = s.kwKey := (rfl)
@[simp] theorem State.setPhase_halted (p : Phase) : (s.setPhase p).halted = s.halted := (rfl)
@[simp] theorem State.setPhase_faultCode (p : Phase) : (s.setPhase p).faultCode = s.faultCode := (rfl)
@[simp] theorem State.setPhase_faultOpcode (p : Phase) : (s.setPhase p).faultOpcode = s.faultOpcode := (rfl)
@[simp] theorem State.setPhase_faultPc (p : Phase) : (s.setPhase p).faultPc = s.faultPc := (rfl)
@[simp] theorem State.setPhase_accI (p : Phase) : (s.setPhase p).accI = s.accI := (rfl)
@[simp] theorem State.setPhase_accT (p : Phase) : (s.setPhase p).accT = s.accT := (rfl)
@[simp] theorem State.setPhase_lastT (p : Phase) : (s.setPhase p).lastT = s.lastT := (rfl)
@[simp] theorem State.setPhase_paused (p : Phase) : (s.setPhase p).paused = s.paused := (rfl)
@[simp] theorem State.setPhase_keyQueue (p : Phase) : (s.setPhase p).keyQueue = s.keyQueue := (rfl)
@[simp] theorem State.setPhase_phase (p : Phase) : (s.setPhase p).phase = p := (rfl)
@[simp] theorem State.setPhase_agenda (p : Phase) : (s.setPhase p).agenda = s.agenda := (rfl)
@[simp] theorem State.setPhase_draws (p : Phase) : (s.setPhase p).draws = s.draws := (rfl)
@[simp] theorem State.setPhase_out (p : Phase) : (s.setPhase p).out = s.out := (rfl)
@[simp] theorem State.setPhase_reg (p : Phase) (z : Nibble) : (s.setPhase p).reg z = s.reg z := (rfl)
@[simp] theorem State.setPhase_pressed (p : Phase) (z : Nibble) : (s.setPhase p).pressed z = s.pressed z := (rfl)
@[simp] theorem State.setPhase_instrAddr (p : Phase) : (s.setPhase p).instrAddr = s.instrAddr := (rfl)

/-! ### `setAgenda` -/

@[simp] theorem State.setAgenda_mem (l : List Call) : (s.setAgenda l).mem = s.mem := (rfl)
@[simp] theorem State.setAgenda_v (l : List Call) : (s.setAgenda l).v = s.v := (rfl)
@[simp] theorem State.setAgenda_i (l : List Call) : (s.setAgenda l).i = s.i := (rfl)
@[simp] theorem State.setAgenda_pc (l : List Call) : (s.setAgenda l).pc = s.pc := (rfl)
@[simp] theorem State.setAgenda_stack (l : List Call) : (s.setAgenda l).stack = s.stack := (rfl)
@[simp] theorem State.setAgenda_sp (l : List Call) : (s.setAgenda l).sp = s.sp := (rfl)
@[simp] theorem State.setAgenda_dt (l : List Call) : (s.setAgenda l).dt = s.dt := (rfl)
@[simp] theorem State.setAgenda_st (l : List Call) : (s.setAgenda l).st = s.st := (rfl)
@[simp] theorem State.setAgenda_fb (l : List Call) : (s.setAgenda l).fb = s.fb := (rfl)
@[simp] theorem State.setAgenda_key (l : List Call) : (s.setAgenda l).key = s.key := (rfl)
@[simp] theorem State.setAgenda_ir (l : List Call) : (s.setAgenda l).ir = s.ir := (rfl)
@[simp] theorem State.setAgenda_kwValid (l : List Call) : (s.setAgenda l).kwValid = s.kwValid := (rfl)
@[simp] theorem State.setAgenda_kwKey (l : List Call) : (s.setAgenda l).kwKey = s.kwKey := (rfl)
@[simp] theorem State.setAgenda_halted (l : List Call) : (s.setAgenda l).halted = s.halted := (rfl)
@[simp] theorem State.setAgenda_faultCode (l : List Call) : (s.setAgenda l).faultCode = s.faultCode := (rfl)
@[simp] theorem State.setAgenda_faultOpcode (l : List Call) : (s.setAgenda l).faultOpcode = s.faultOpcode := (rfl)
@[simp] theorem State.setAgenda_faultPc (l : List Call) : (s.setAgenda l).faultPc = s.faultPc := (rfl)
@[simp] theorem State.setAgenda_accI (l : List Call) : (s.setAgenda l).accI = s.accI := (rfl)
@[simp] theorem State.setAgenda_accT (l : List Call) : (s.setAgenda l).accT = s.accT := (rfl)
@[simp] theorem State.setAgenda_lastT (l : List Call) : (s.setAgenda l).lastT = s.lastT := (rfl)
@[simp] theorem State.setAgenda_paused (l : List Call) : (s.setAgenda l).paused = s.paused := (rfl)
@[simp] theorem State.setAgenda_keyQueue (l : List Call) : (s.setAgenda l).keyQueue = s.keyQueue := (rfl)
@[simp] theorem State.setAgenda_phase (l : List Call) : (s.setAgenda l).phase = s.phase := (rfl)
@[simp] theorem State.setAgenda_agenda (l : List Call) : (s.setAgenda l).agenda = l := (rfl)
@[simp] theorem State.setAgenda_draws (l : List Call) : (s.setAgenda l).draws = s.draws := (rfl)
@[simp] theorem State.setAgenda_out (l : List Call) : (s.setAgenda l).out = s.out := (rfl)
@[simp] theorem State.setAgenda_reg (l : List Call) (z : Nibble) : (s.setAgenda l).reg z = s.reg z := (rfl)
@[simp] theorem State.setAgenda_pressed (l : List Call) (z : Nibble) : (s.setAgenda l).pressed z = s.pressed z := (rfl)
@[simp] theorem State.setAgenda_instrAddr (l : List Call) : (s.setAgenda l).instrAddr = s.instrAddr := (rfl)

/-! ### `payInstr` -/

@[simp] theorem State.payInstr_mem (q : Rat) : (s.payInstr q).mem = s.mem := (rfl)
@[simp] theorem State.payInstr_v (q : Rat) : (s.payInstr q).v = s.v := (rfl)
@[simp] theorem State.payInstr_i (q : Rat) : (s.payInstr q).i = s.i := (rfl)
@[simp] theorem State.payInstr_pc (q : Rat) : (s.payInstr q).pc = s.pc := (rfl)
@[simp] theorem State.payInstr_stack (q : Rat) : (s.payInstr q).stack = s.stack := (rfl)
@[simp] theorem State.payInstr_sp (q : Rat) : (s.payInstr q).sp = s.sp := (rfl)
@[simp] theorem State.payInstr_dt (q : Rat) : (s.payInstr q).dt = s.dt := (rfl)
@[simp] theorem State.payInstr_st (q : Rat) : (s.payInstr q).st = s.st := (rfl)
@[simp] theorem State.payInstr_fb (q : Rat) : (s.payInstr q).fb = s.fb := (rfl)
@[simp] theorem State.payInstr_key (q : Rat) : (s.payInstr q).key = s.key := (rfl)
@[simp] theorem State.payInstr_ir (q : Rat) : (s.payInstr q).ir = s.ir := (rfl)
@[simp] theorem State.payInstr_kwValid (q : Rat) : (s.payInstr q).kwValid = s.kwValid := (rfl)
@[simp] theorem State.payInstr_kwKey (q : Rat) : (s.payInstr q).kwKey = s.kwKey := (rfl)
@[simp] theorem State.payInstr_halted (q : Rat) : (s.payInstr q).halted = s.halted := (rfl)
@[simp] theorem State.payInstr_faultCode (q : Rat) : (s.payInstr q).faultCode = s.faultCode := (rfl)
@[simp] theorem State.payInstr_faultOpcode (q : Rat) : (s.payInstr q).faultOpcode = s.faultOpcode := (rfl)
@[simp] theorem State.payInstr_faultPc (q : Rat) : (s.payInstr q).faultPc = s.faultPc := (rfl)
@[simp] theorem State.payInstr_accI (q : Rat) : (s.payInstr q).accI = s.accI - q := (rfl)
@[simp] theorem State.payInstr_accT (q : Rat) : (s.payInstr q).accT = s.accT := (rfl)
@[simp] theorem State.payInstr_lastT (q : Rat) : (s.payInstr q).lastT = s.lastT := (rfl)
@[simp] theorem State.payInstr_paused (q : Rat) : (s.payInstr q).paused = s.paused := (rfl)
@[simp] theorem State.payInstr_keyQueue (q : Rat) : (s.payInstr q).keyQueue = s.keyQueue := (rfl)
@[simp] theorem State.payInstr_phase (q : Rat) : (s.payInstr q).phase = s.phase := (rfl)
@[simp] theorem State.payInstr_agenda (q : Rat) : (s.payInstr q).agenda = s.agenda := (rfl)
@[simp] theorem State.payInstr_draws (q : Rat) : (s.payInstr q).draws = s.draws := (rfl)
@[simp] theorem State.payInstr_out (q : Rat) : (s.payInstr q).out = s.out := (rfl)
@[simp] theorem State.payInstr_reg (q : Rat) (z : Nibble) : (s.payInstr q).reg z = s.reg z := (rfl)
@[simp] theorem State.payInstr_pressed (q : Rat) (z : Nibble) : (s.payInstr q).pressed z = s.pressed z := (rfl)
@[simp] theorem State.payInstr_instrAddr (q : Rat) : (s.payInstr q).instrAddr = s.instrAddr := (rfl)

/-! ### `payTick` -/

@[simp] theorem State.payTick_mem (q : Rat) : (s.payTick q).mem = s.mem := (rfl)
@[simp] theorem State.payTick_v (q : Rat) : (s.payTick q).v = s.v := (rfl)
@[simp] theorem State.payTick_i (q : Rat) : (s.payTick q).i = s.i := (rfl)
@[simp] theorem State.payTick_pc (q : Rat) : (s.payTick q).pc = s.pc := (rfl)
@[simp] theorem State.payTick_stack (q : Rat) : (s.payTick q).stack = s.stack := (rfl)
@[simp] theorem State.payTick_sp (q : Rat) : (s.payTick q).sp = s.sp := (rfl)
@[simp] theorem State.payTick_dt (q : Rat) : (s.payTick q).dt = s.dt := (rfl)
@[simp] theorem State.payTick_st (q : Rat) : (s.payTick q).st = s.st := (rfl)
@[simp] theorem State.payTick_fb (q : Rat) : (s.payTick q).fb = s.fb := (rfl)
@[simp] theorem State.payTick_key (q : Rat) : (s.payTick q).key = s.key := (rfl)
@[simp] theorem State.payTick_ir (q : Rat) : (s.payTick q).ir = s.ir := (rfl)
@[simp] theorem State.payTick_kwValid (q : Rat) : (s.payTick q).kwValid = s.kwValid := (rfl)
@[simp] theorem State.payTick_kwKey (q : Rat) : (s.payTick q).kwKey = s.kwKey := (rfl)
@[simp] theorem State.payTick_halted (q : Rat) : (s.payTick q).halted = s.halted := (rfl)
@[simp] theorem State.payTick_faultCode (q : Rat) : (s.payTick q).faultCode = s.faultCode := (rfl)
@[simp] theorem State.payTick_faultOpcode (q : Rat) : (s.payTick q).faultOpcode = s.faultOpcode := (rfl)
@[simp] theorem State.payTick_faultPc (q : Rat) : (s.payTick q).faultPc = s.faultPc := (rfl)
@[simp] theorem State.payTick_accI (q : Rat) : (s.payTick q).accI = s.accI := (rfl)
@[simp] theorem State.payTick_accT (q : Rat) : (s.payTick q).accT = s.accT - q := (rfl)
@[simp] theorem State.payTick_lastT (q : Rat) : (s.payTick q).lastT = s.lastT := (rfl)
@[simp] theorem State.payTick_paused (q : Rat) : (s.payTick q).paused = s.paused := (rfl)
@[simp] theorem State.payTick_keyQueue (q : Rat) : (s.payTick q).keyQueue = s.keyQueue := (rfl)
@[simp] theorem State.payTick_phase (q : Rat) : (s.payTick q).phase = s.phase := (rfl)
@[simp] theorem State.payTick_agenda (q : Rat) : (s.payTick q).agenda = s.agenda := (rfl)
@[simp] theorem State.payTick_draws (q : Rat) : (s.payTick q).draws = s.draws := (rfl)
@[simp] theorem State.payTick_out (q : Rat) : (s.payTick q).out = s.out := (rfl)
@[simp] theorem State.payTick_reg (q : Rat) (z : Nibble) : (s.payTick q).reg z = s.reg z := (rfl)
@[simp] theorem State.payTick_pressed (q : Rat) (z : Nibble) : (s.payTick q).pressed z = s.pressed z := (rfl)
@[simp] theorem State.payTick_instrAddr (q : Rat) : (s.payTick q).instrAddr = s.instrAddr := (rfl)

/-! ### `elapse` -/

@[simp] theorem State.elapse_mem (now : Rat) : (s.elapse now).mem = s.mem := (rfl)
@[simp] theorem State.elapse_v (now : Rat) : (s.elapse now).v = s.v := (rfl)
@[simp] theorem State.elapse_i (now : Rat) : (s.elapse now).i = s.i := (rfl)
@[simp] theorem State.elapse_pc (now : Rat) : (s.elapse now).pc = s.pc := (rfl)
@[simp] theorem State.elapse_stack (now : Rat) : (s.elapse now).stack = s.stack := (rfl)
@[simp] theorem State.elapse_sp (now : Rat) : (s.elapse now).sp = s.sp := (rfl)
@[simp] theorem State.elapse_dt (now : Rat) : (s.elapse now).dt = s.dt := (rfl)
@[simp] theorem State.elapse_st (now : Rat) : (s.elapse now).st = s.st := (rfl)
@[simp] theorem State.elapse_fb (now : Rat) : (s.elapse now).fb = s.fb := (rfl)
@[simp] theorem State.elapse_key (now : Rat) : (s.elapse now).key = s.key := (rfl)
@[simp] theorem State.elapse_ir (now : Rat) : (s.elapse now).ir = s.ir := (rfl)
@[simp] theorem State.elapse_kwValid (now : Rat) : (s.elapse now).kwValid = s.kwValid := (rfl)
@[simp] theorem State.elapse_kwKey (now : Rat) : (s.elapse now).kwKey = s.kwKey := (rfl)
@[simp] theorem State.elapse_halted (now : Rat) : (s.elapse now).halted = s.halted := (rfl)
@[simp] theorem State.elapse_faultCode (now : Rat) : (s.elapse now).faultCode = s.faultCode := (rfl)
@[simp] theorem State.elapse_faultOpcode (now : Rat) : (s.elapse now).faultOpcode = s.faultOpcode := (rfl)
@[simp] theorem State.elapse_faultPc (now : Rat) : (s.elapse now).faultPc = s.faultPc := (rfl)
@[simp] theorem State.elapse_accI (now : Rat) : (s.elapse now).accI = s.accI + (now - s.lastT) := (rfl)
@[simp] theorem State.elapse_accT (now : Rat) : (s.elapse now).accT = s.accT + (now - s.lastT) := (rfl)
@[simp] theorem State.elapse_lastT (now : Rat) : (s.elapse now).lastT = now := (rfl)
@[simp] theorem State.elapse_paused (now : Rat) : (s.elapse now).paused = s.paused := (rfl)
@[simp] theorem State.elapse_keyQueue (now : Rat) : (s.elapse now).keyQueue = s.keyQueue := (rfl)
@[simp] theorem State.elapse_phase (now : Rat) : (s.elapse now).phase = s.phase := (rfl)
@[simp] theorem State.elapse_agenda (now : Rat) : (s.elapse now).agenda = s.agenda := (rfl)
@[simp] theorem State.elapse_draws (now : Rat) : (s.elapse now).draws = s.draws := (rfl)
@[simp] theorem State.elapse_out (now : Rat) : (s.elapse now).out = s.out := (rfl)
@[simp] theorem State.elapse_reg (now : Rat) (z : Nibble) : (s.elapse now).reg z = s.reg z := (rfl)
@[simp] theorem State.elapse_pressed (now : Rat) (z : Nibble) : (s.elapse now).pressed z = s.pressed z := (rfl)
@[simp] theorem State.elapse_instrAddr (now : Rat) : (s.elapse now).instrAddr = s.instrAddr := (rfl)

/-! ### `pausedNow` -/

@[simp] theorem State.pausedNow_mem : (s.pausedNow).mem = s.mem := (rfl)
@[simp] theorem State.pausedNow_v : (s.pausedNow).v = s.v := (rfl)
@[simp] theorem State.pausedNow_i : (s.pausedNow).i = s.i := (rfl)
@[simp] theorem State.pausedNow_pc : (s.pausedNow).pc = s.pc := (rfl)
@[simp] theorem State.pausedNow_stack : (s.pausedNow).stack = s.stack := (rfl)
@[simp] theorem State.pausedNow_sp : (s.pausedNow).sp = s.sp := (rfl)
@[simp] theorem State.pausedNow_dt : (s.pausedNow).dt = s.dt := (rfl)
@[simp] theorem State.pausedNow_st : (s.pausedNow).st = s.st := (rfl)
@[simp] theorem State.pausedNow_fb : (s.pausedNow).fb = s.fb := (rfl)
@[simp] theorem State.pausedNow_key : (s.pausedNow).key = s.key := (rfl)
@[simp] theorem State.pausedNow_ir : (s.pausedNow).ir = s.ir := (rfl)
@[simp] theorem State.pausedNow_kwValid : (s.pausedNow).kwValid = s.kwValid := (rfl)
@[simp] theorem State.pausedNow_kwKey : (s.pausedNow).kwKey = s.kwKey := (rfl)
@[simp] theorem State.pausedNow_halted : (s.pausedNow).halted = s.halted := (rfl)
@[simp] theorem State.pausedNow_faultCode : (s.pausedNow).faultCode = s.faultCode := (rfl)
@[simp] theorem State.pausedNow_faultOpcode : (s.pausedNow).faultOpcode = s.faultOpcode := (rfl)
@[simp] theorem State.pausedNow_faultPc : (s.pausedNow).faultPc = s.faultPc := (rfl)
@[simp] theorem State.pausedNow_accI : (s.pausedNow).accI = s.accI := (rfl)
@[simp] theorem State.pausedNow_accT : (s.pausedNow).accT = s.accT := (rfl)
@[simp] theorem State.pausedNow_lastT : (s.pausedNow).lastT = s.lastT := (rfl)
@[simp] theorem State.pausedNow_paused : (s.pausedNow).paused = true := (rfl)
@[simp] theorem State.pausedNow_keyQueue : (s.pausedNow).keyQueue = s.keyQueue := (rfl)
@[simp] theorem State.pausedNow_phase : (s.pausedNow).phase = s.phase := (rfl)
@[simp] theorem State.pausedNow_agenda : (s.pausedNow).agenda = s.agenda := (rfl)
@[simp] theorem State.pausedNow_draws : (s.pausedNow).draws = s.draws := (rfl)
@[simp] theorem State.pausedNow_out : (s.pausedNow).out = s.out := (rfl)
@[simp] theorem State.pausedNow_reg (z : Nibble) : (s.pausedNow).reg z = s.reg z := (rfl)
@[simp] theorem State.pausedNow_pressed (z : Nibble) : (s.pausedNow).pressed z = s.pressed z := (rfl)
@[simp] theorem State.pausedNow_instrAddr : (s.pausedNow).instrAddr = s.instrAddr := (rfl)

/-! ### `resumed` -/

@[simp] theorem State.resumed_mem (now : Rat) : (s.resumed now).mem = s.mem := (rfl)
@[simp] theorem State.resumed_v (now : Rat) : (s.resumed now).v = s.v := (rfl)
@[simp] theorem State.resumed_i (now : Rat) : (s.resumed now).i = s.i := (rfl)
@[simp] theorem State.resumed_pc (now : Rat) : (s.resumed now).pc = s.pc := (rfl)
@[simp] theorem State.resumed_stack (now : Rat) : (s.resumed now).stack = s.stack := (rfl)
@[simp] theorem State.resumed_sp (now : Rat) : (s.resumed now).sp = s.sp := (rfl)
@[simp] theorem State.resumed_dt (now : Rat) : (s.resumed now).dt = s.dt := (rfl)
@[simp] theorem State.resumed_st (now : Rat) : (s.resumed now).st = s.st := (rfl)
@[simp] theorem State.resumed_fb (now : Rat) : (s.resumed now).fb = s.fb := (rfl)
@[simp] theorem State.resumed_key (now : Rat) : (s.resumed now).key = s.key := (rfl)
@[simp] theorem State.resumed_ir (now : Rat) : (s.resumed now).ir = s.ir := (rfl)
@[simp] theorem State.resumed_kwValid (now : Rat) : (s.resumed now).kwValid = s.kwValid := (rfl)
@[simp] theorem State.resumed_kwKey (now : Rat) : (s.resumed now).kwKey = s.kwKey := (rfl)
@[simp] theorem State.resumed_halted (now : Rat) : (s.resumed now).halted = s.halted := (rfl)
@[simp] theorem State.resumed_faultCode (now : Rat) : (s.resumed now).faultCode = s.faultCode := (rfl)
@[simp] theorem State.resumed_faultOpcode (now : Rat) : (s.resumed now).faultOpcode = s.faultOpcode := (rfl)
@[simp] theorem State.resumed_faultPc (now : Rat) : (s.resumed now).faultPc = s.faultPc := (rfl)
@[simp] theorem State.resumed_accI (now : Rat) : (s.resumed now).accI = s.accI := (rfl)
@[simp] theorem State.resumed_accT (now : Rat) : (s.resumed now).accT = s.accT := (rfl)
@[simp] theorem State.resumed_lastT (now : Rat) : (s.resumed now).lastT = now := (rfl)
@[simp] theorem State.resumed_paused (now : Rat) : (s.resumed now).paused = false := (rfl)
@[simp] theorem State.resumed_keyQueue (now : Rat) : (s.resumed now).keyQueue = s.keyQueue := (rfl)
@[simp] theorem State.resumed_phase (now : Rat) : (s.resumed now).phase = s.phase := (rfl)
@[simp] theorem State.resumed_agenda (now : Rat) : (s.resumed now).agenda = s.agenda := (rfl)
@[simp] theorem State.resumed_draws (now : Rat) : (s.resumed now).draws = s.draws := (rfl)
@[simp] theorem State.resumed_out (now : Rat) : (s.resumed now).out = s.out := (rfl)
@[simp] theorem State.resumed_reg (now : Rat) (z : Nibble) : (s.resumed now).reg z = s.reg z := (rfl)
@[simp] theorem State.resumed_pressed (now : Rat) (z : Nibble) : (s.resumed now).pressed z = s.pressed z := (rfl)
@[simp] theorem State.resumed_instrAddr (now : Rat) : (s.resumed now).instrAddr = s.instrAddr := (rfl)

/-! ### `queueKey` -/

@[simp] theorem State.queueKey_mem (e : KeyEvent) : (s.queueKey e).mem = s.mem := (rfl)
@[simp] theorem State.queueKey_v (e : KeyEvent) : (s.queueKey e).v = s.v := (rfl)
@[simp] theorem State.queueKey_i (e : KeyEvent) : (s.queueKey e).i = s.i := (rfl)
@[simp] theorem State.queueKey_pc (e : KeyEvent) : (s.queueKey e).pc = s.pc := (rfl)
@[simp] theorem State.queueKey_stack (e : KeyEvent) : (s.queueKey e).stack = s.stack := (rfl)
@[simp] theorem State.queueKey_sp (e : KeyEvent) : (s.queueKey e).sp = s.sp := (rfl)
@[simp] theorem State.queueKey_dt (e : KeyEvent) : (s.queueKey e).dt = s.dt := (rfl)
@[simp] theorem State.queueKey_st (e : KeyEvent) : (s.queueKey e).st = s.st := (rfl)
@[simp] theorem State.queueKey_fb (e : KeyEvent) : (s.queueKey e).fb = s.fb := (rfl)
@[simp] theorem State.queueKey_key (e : KeyEvent) : (s.queueKey e).key = s.key := (rfl)
@[simp] theorem State.queueKey_ir (e : KeyEvent) : (s.queueKey e).ir = s.ir := (rfl)
@[simp] theorem State.queueKey_kwValid (e : KeyEvent) : (s.queueKey e).kwValid = s.kwValid := (rfl)
@[simp] theorem State.queueKey_kwKey (e : KeyEvent) : (s.queueKey e).kwKey = s.kwKey := (rfl)
@[simp] theorem State.queueKey_halted (e : KeyEvent) : (s.queueKey e).halted = s.halted := (rfl)
@[simp] theorem State.queueKey_faultCode (e : KeyEvent) : (s.queueKey e).faultCode = s.faultCode := (rfl)
@[simp] theorem State.queueKey_faultOpcode (e : KeyEvent) : (s.queueKey e).faultOpcode = s.faultOpcode := (rfl)
@[simp] theorem State.queueKey_faultPc (e : KeyEvent) : (s.queueKey e).faultPc = s.faultPc := (rfl)
@[simp] theorem State.queueKey_accI (e : KeyEvent) : (s.queueKey e).accI = s.accI := (rfl)
@[simp] theorem State.queueKey_accT (e : KeyEvent) : (s.queueKey e).accT = s.accT := (rfl)
@[simp] theorem State.queueKey_lastT (e : KeyEvent) : (s.queueKey e).lastT = s.lastT := (rfl)
@[simp] theorem State.queueKey_paused (e : KeyEvent) : (s.queueKey e).paused = s.paused := (rfl)
@[simp] theorem State.queueKey_keyQueue (e : KeyEvent) : (s.queueKey e).keyQueue = s.keyQueue ++ [e] := (rfl)
@[simp] theorem State.queueKey_phase (e : KeyEvent) : (s.queueKey e).phase = s.phase := (rfl)
@[simp] theorem State.queueKey_agenda (e : KeyEvent) : (s.queueKey e).agenda = s.agenda := (rfl)
@[simp] theorem State.queueKey_draws (e : KeyEvent) : (s.queueKey e).draws = s.draws := (rfl)
@[simp] theorem State.queueKey_out (e : KeyEvent) : (s.queueKey e).out = s.out := (rfl)
@[simp] theorem State.queueKey_reg (e : KeyEvent) (z : Nibble) : (s.queueKey e).reg z = s.reg z := (rfl)
@[simp] theorem State.queueKey_pressed (e : KeyEvent) (z : Nibble) : (s.queueKey e).pressed z = s.pressed z := (rfl)
@[simp] theorem State.queueKey_instrAddr (e : KeyEvent) : (s.queueKey e).instrAddr = s.instrAddr := (rfl)

/-! ### `changeKeys` -/

@[simp] theorem State.changeKeys_mem (es : List KeyEvent) : (s.changeKeys es).mem = s.mem := (rfl)
@[simp] theorem State.changeKeys_v (es : List KeyEvent) : (s.changeKeys es).v = s.v := (rfl)
@[simp] theorem State.changeKeys_i (es : List KeyEvent) : (s.changeKeys es).i = s.i := (rfl)
@[simp] theorem State.changeKeys_pc (es : List KeyEvent) : (s.changeKeys es).pc = s.pc := (rfl)
@[simp] theorem State.changeKeys_stack (es : List KeyEvent) : (s.changeKeys es).stack = s.stack := (rfl)
@[simp] theorem State.changeKeys_sp (es : List KeyEvent) : (s.changeKeys es).sp = s.sp := (rfl)
@[simp] theorem State.changeKeys_dt (es : List KeyEvent) : (s.changeKeys es).dt = s.dt := (rfl)
@[simp] theorem State.changeKeys_st (es : List KeyEvent) : (s.changeKeys es).st = s.st := (rfl)
@[simp] theorem State.changeKeys_fb (es : List KeyEvent) : (s.changeKeys es).fb = s.fb := (rfl)
@[simp] theorem State.changeKeys_key (es : List KeyEvent) : (s.changeKeys es).key = applyKeys es s.key := (rfl)
@[simp] theorem State.changeKeys_ir (es : List KeyEvent) : (s.changeKeys es).ir = s.ir := (rfl)
@[simp] theorem State.changeKeys_kwValid (es : List KeyEvent) : (s.changeKeys es).kwValid = s.kwValid := (rfl)
@[simp] theorem State.changeKeys_kwKey (es : List KeyEvent) : (s.changeKeys es).kwKey = s.kwKey := (rfl)
@[simp] theorem State.changeKeys_halted (es : List KeyEvent) : (s.changeKeys es).halted = s.halted := (rfl)
@[simp] theorem State.changeKeys_faultCode (es : List KeyEvent) : (s.changeKeys es).faultCode = s.faultCode := (rfl)
@[simp] theorem State.changeKeys_faultOpcode (es : List KeyEvent) : (s.changeKeys es).faultOpcode = s.faultOpcode := (rfl)
@[simp] theorem State.changeKeys_faultPc (es : List KeyEvent) : (s.changeKeys es).faultPc = s.faultPc := (rfl)
@[simp] theorem State.changeKeys_accI (es : List KeyEvent) : (s.changeKeys es).accI = s.accI := (rfl)
@[simp] theorem State.changeKeys_accT (es : List KeyEvent) : (s.changeKeys es).accT = s.accT := (rfl)
@[simp] theorem State.changeKeys_lastT (es : List KeyEvent) : (s.changeKeys es).lastT = s.lastT := (rfl)
@[simp] theorem State.changeKeys_paused (es : List KeyEvent) : (s.changeKeys es).paused = s.paused := (rfl)
@[simp] theorem State.changeKeys_keyQueue (es : List KeyEvent) : (s.changeKeys es).keyQueue = s.keyQueue := (rfl)
@[simp] theorem State.changeKeys_phase (es : List KeyEvent) : (s.changeKeys es).phase = s.phase := (rfl)
@[simp] theorem State.changeKeys_agenda (es : List KeyEvent) : (s.changeKeys es).agenda = s.agenda := (rfl)
@[simp] theorem State.changeKeys_draws (es : List KeyEvent) : (s.changeKeys es).draws = s.draws := (rfl)
@[simp] theorem State.changeKeys_out (es : List KeyEvent) : (s.changeKeys es).out = s.out := (rfl)
@[simp] theorem State.changeKeys_reg (es : List KeyEvent) (z : Nibble) : (s.changeKeys es).reg z = s.reg z := (rfl)
@[simp] theorem State.changeKeys_instrAddr (es : List KeyEvent) : (s.changeKeys es).instrAddr = s.instrAddr := (rfl)

/-! ### `pushed` -/

@[simp] theorem State.pushed_mem (w : Word) (h : s.sp.val < 16) : (s.pushed w h).mem = s.mem := (rfl)
@[simp] theorem State.pushed_v (w : Word) (h : s.sp.val < 16) : (s.pushed w h).v = s.v := (rfl)
@[simp] theorem State.pushed_i (w : Word) (h : s.sp.val < 16) : (s.pushed w h).i = s.i := (rfl)
@[simp] theorem State.pushed_pc (w : Word) (h : s.sp.val < 16) : (s.pushed w h).pc = s.pc := (rfl)
@[simp] theorem State.pushed_stack (w : Word) (h : s.sp.val < 16) : (s.pushed w h).stack = s.stack.set s.sp.val w h := (rfl)
@[simp] theorem State.pushed_sp (w : Word) (h : s.sp.val < 16) : (s.pushed w h).sp = ⟨s.sp.val + 1, Nat.succ_lt_succ h⟩ := (rfl)
@[simp] theorem State.pushed_dt (w : Word) (h : s.sp.val < 16) : (s.pushed w h).dt = s.dt := (rfl)
@[simp] theorem State.pushed_st (w : Word) (h : s.sp.val < 16) : (s.pushed w h).st = s.st := (rfl)
@[simp] theorem State.pushed_fb (w : Word) (h : s.sp.val < 16) : (s.pushed w h).fb = s.fb := (rfl)
@[simp] theorem State.pushed_key (w : Word) (h : s.sp.val < 16) : (s.pushed w h).key = s.key := (rfl)
@[simp] theorem State.pushed_ir (w : Word) (h : s.sp.val < 16) : (s.pushed w h).ir = s.ir := (rfl)
@[simp] theorem State.pushed_kwValid (w : Word) (h : s.sp.val < 16) : (s.pushed w h).kwValid = s.kwValid := (rfl)
@[simp] theorem State.pushed_kwKey (w : Word) (h : s.sp.val < 16) : (s.pushed w h).kwKey = s.kwKey := (rfl)
@[simp] theorem State.pushed_halted (w : Word) (h : s.sp.val < 16) : (s.pushed w h).halted = s.halted := (rfl)
@[simp] theorem State.pushed_faultCode (w : Word) (h : s.sp.val < 16) : (s.pushed w h).faultCode = s.faultCode := (rfl)
@[simp] theorem State.pushed_faultOpcode (w : Word) (h : s.sp.val < 16) : (s.pushed w h).faultOpcode = s.faultOpcode := (rfl)
@[simp] theorem State.pushed_faultPc (w : Word) (h : s.sp.val < 16) : (s.pushed w h).faultPc = s.faultPc := (rfl)
@[simp] theorem State.pushed_accI (w : Word) (h : s.sp.val < 16) : (s.pushed w h).accI = s.accI := (rfl)
@[simp] theorem State.pushed_accT (w : Word) (h : s.sp.val < 16) : (s.pushed w h).accT = s.accT := (rfl)
@[simp] theorem State.pushed_lastT (w : Word) (h : s.sp.val < 16) : (s.pushed w h).lastT = s.lastT := (rfl)
@[simp] theorem State.pushed_paused (w : Word) (h : s.sp.val < 16) : (s.pushed w h).paused = s.paused := (rfl)
@[simp] theorem State.pushed_keyQueue (w : Word) (h : s.sp.val < 16) : (s.pushed w h).keyQueue = s.keyQueue := (rfl)
@[simp] theorem State.pushed_phase (w : Word) (h : s.sp.val < 16) : (s.pushed w h).phase = s.phase := (rfl)
@[simp] theorem State.pushed_agenda (w : Word) (h : s.sp.val < 16) : (s.pushed w h).agenda = s.agenda := (rfl)
@[simp] theorem State.pushed_draws (w : Word) (h : s.sp.val < 16) : (s.pushed w h).draws = s.draws := (rfl)
@[simp] theorem State.pushed_out (w : Word) (h : s.sp.val < 16) : (s.pushed w h).out = s.out := (rfl)
@[simp] theorem State.pushed_reg (w : Word) (h : s.sp.val < 16) (z : Nibble) : (s.pushed w h).reg z = s.reg z := (rfl)
@[simp] theorem State.pushed_pressed (w : Word) (h : s.sp.val < 16) (z : Nibble) : (s.pushed w h).pressed z = s.pressed z := (rfl)
@[simp] theorem State.pushed_instrAddr (w : Word) (h : s.sp.val < 16) : (s.pushed w h).instrAddr = s.instrAddr := (rfl)

/-! ### `popped` -/

@[simp] theorem State.popped_mem : (s.popped).mem = s.mem := (rfl)
@[simp] theorem State.popped_v : (s.popped).v = s.v := (rfl)
@[simp] theorem State.popped_i : (s.popped).i = s.i := (rfl)
@[simp] theorem State.popped_pc : (s.popped).pc = s.pc := (rfl)
@[simp] theorem State.popped_stack : (s.popped).stack = s.stack := (rfl)
@[simp] theorem State.popped_sp : (s.popped).sp = ⟨s.sp.val - 1, by omega⟩ := (rfl)
@[simp] theorem State.popped_dt : (s.popped).dt = s.dt := (rfl)
@[simp] theorem State.popped_st : (s.popped).st = s.st := (rfl)
@[simp] theorem State.popped_fb : (s.popped).fb = s.fb := (rfl)
@[simp] theorem State.popped_key : (s.popped).key = s.key := (rfl)
@[simp] theorem State.popped_ir : (s.popped).ir = s.ir := (rfl)
@[simp] theorem State.popped_kwValid : (s.popped).kwValid = s.kwValid := (rfl)
@[simp] theorem State.popped_kwKey : (s.popped).kwKey = s.kwKey := (rfl)
@[simp] theorem State.popped_halted : (s.popped).halted = s.halted := (rfl)
@[simp] theorem State.popped_faultCode : (s.popped).faultCode = s.faultCode := (rfl)
@[simp] theorem State.popped_faultOpcode : (s.popped).faultOpcode = s.faultOpcode := (rfl)
@[simp] theorem State.popped_faultPc : (s.popped).faultPc = s.faultPc := (rfl)
@[simp] theorem State.popped_accI : (s.popped).accI = s.accI := (rfl)
@[simp] theorem State.popped_accT : (s.popped).accT = s.accT := (rfl)
@[simp] theorem State.popped_lastT : (s.popped).lastT = s.lastT := (rfl)
@[simp] theorem State.popped_paused : (s.popped).paused = s.paused := (rfl)
@[simp] theorem State.popped_keyQueue : (s.popped).keyQueue = s.keyQueue := (rfl)
@[simp] theorem State.popped_phase : (s.popped).phase = s.phase := (rfl)
@[simp] theorem State.popped_agenda : (s.popped).agenda = s.agenda := (rfl)
@[simp] theorem State.popped_draws : (s.popped).draws = s.draws := (rfl)
@[simp] theorem State.popped_out : (s.popped).out = s.out := (rfl)
@[simp] theorem State.popped_reg (z : Nibble) : (s.popped).reg z = s.reg z := (rfl)
@[simp] theorem State.popped_pressed (z : Nibble) : (s.popped).pressed z = s.pressed z := (rfl)
@[simp] theorem State.popped_instrAddr : (s.popped).instrAddr = s.instrAddr := (rfl)

/-! ### `drainKeys` -/

@[simp] theorem State.drainKeys_mem : (s.drainKeys).mem = s.mem := (rfl)
@[simp] theorem State.drainKeys_v : (s.drainKeys).v = s.v := (rfl)
@[simp] theorem State.drainKeys_i : (s.drainKeys).i = s.i := (rfl)
@[simp] theorem State.drainKeys_pc : (s.drainKeys).pc = s.pc := (rfl)
@[simp] theorem State.drainKeys_stack : (s.drainKeys).stack = s.stack := (rfl)
@[simp] theorem State.drainKeys_sp : (s.drainKeys).sp = s.sp := (rfl)
@[simp] theorem State.drainKeys_dt : (s.drainKeys).dt = s.dt := (rfl)
@[simp] theorem State.drainKeys_st : (s.drainKeys).st = s.st := (rfl)
@[simp] theorem State.drainKeys_fb : (s.drainKeys).fb = s.fb := (rfl)
@[simp] theorem State.drainKeys_key : (s.drainKeys).key = applyKeys s.keyQueue s.key := (rfl)
@[simp] theorem State.drainKeys_ir : (s.drainKeys).ir = s.ir := (rfl)
@[simp] theorem State.drainKeys_kwValid : (s.drainKeys).kwValid = s.kwValid := (rfl)
@[simp] theorem State.drainKeys_kwKey : (s.drainKeys).kwKey = s.kwKey := (rfl)
@[simp] theorem State.drainKeys_halted : (s.drainKeys).halted = s.halted := (rfl)
@[simp] theorem State.drainKeys_faultCode : (s.drainKeys).faultCode = s.faultCode := (rfl)
@[simp] theorem State.drainKeys_faultOpcode : (s.drainKeys).faultOpcode = s.faultOpcode := (rfl)
@[simp] theorem State.drainKeys_faultPc : (s.drainKeys).faultPc = s.faultPc := (rfl)
@[simp] theorem State.drainKeys_accI : (s.drainKeys).accI = s.accI := (rfl)
@[simp] theorem State.drainKeys_accT : (s.drainKeys).accT = s.accT := (rfl)
@[simp] theorem State.drainKeys_lastT : (s.drainKeys).lastT = s.lastT := (rfl)
@[simp] theorem State.drainKeys_paused : (s.drainKeys).paused = s.paused := (rfl)
@[simp] theorem State.drainKeys_keyQueue : (s.drainKeys).keyQueue = [] := (rfl)
@[simp] theorem State.drainKeys_phase : (s.drainKeys).phase = s.phase := (rfl)
@[simp] theorem State.drainKeys_agenda : (s.drainKeys).agenda = s.agenda := (rfl)
@[simp] theorem State.drainKeys_draws : (s.drainKeys).draws = s.draws := (rfl)
@[simp] theorem State.drainKeys_out : (s.drainKeys).out = s.out := (rfl)
@[simp] theorem State.drainKeys_reg (z : Nibble) : (s.drainKeys).reg z = s.reg z := (rfl)
@[simp] theorem State.drainKeys_instrAddr : (s.drainKeys).instrAddr = s.instrAddr := (rfl)

end Sys2Proof.Machine
end

