-- ==== Sys2Proof/Laws/Display.lean ====
section
/-! SUPPORT. What drawing does to a cell and to the collision. -/

namespace Sys2Proof.Machine

/-- Framebuffers that agree on every cell are equal. -/
theorem Framebuffer.ext_cell (f g : Framebuffer) (h : ∀ cx cy, cx < 64 → cy < 32 → f.cell cx cy = g.cell cx cy) : f = g := by
  apply Vector.ext
  intro cy hcy
  apply BitVec.eq_of_getLsbD_eq
  intro cx hcx
  have := h cx cy hcx hcy
  simpa [Framebuffer.cell, hcy] using this

theorem Framebuffer.cell_xorCell (fb : Framebuffer) (cx cy ax ay : Nat) (bit : Bool) (hx : cx < 64) (hy : cy < 32) :
    (fb.xorCell cx cy bit).cell ax ay = (fb.cell ax ay ^^ (bit && decide (ax = cx ∧ ay = cy))) := by
  unfold Framebuffer.xorCell Framebuffer.cell
  by_cases hay : ay < 32
  · simp only [hay, hy, dif_pos, Vector.getElem_set]
    by_cases he : cy = ay
    · subst he
      cases bit <;> simp [BitVec.getLsbD_xor, BitVec.getLsbD_twoPow, eq_comm]
      omega
    · simp [he, Ne.symm he]
  · have : ay ≠ cy := by omega
    simp [hay, this]

theorem Framebuffer.cell_blank (cx cy : Nat) : Framebuffer.blank.cell cx cy = false := by
  unfold Framebuffer.cell Framebuffer.blank
  split <;> simp

/-- The row `cy` of a drawing after the columns from `c` on: each drawn cell XORed with its bit, the others as before; a hit where
a drawn 1 bit met a lit cell. -/
theorem drawRow_spec (byte : Byte) (x0 cy : Nat) (hy : cy < 32) (left : Nat) :
    ∀ (c : Nat) (d : Drawing),
      (∀ ax ay, (drawRow byte x0 cy left c d).fb.cell ax ay =
        (d.fb.cell ax ay ^^ (decide (ay = cy ∧ x0 + c ≤ ax ∧ ax < x0 + c + left ∧ ax < 64) && spriteBit byte (ax - x0)))) ∧
      ((drawRow byte x0 cy left c d).hit = true ↔
        d.hit = true ∨ ∃ ax, x0 + c ≤ ax ∧ ax < x0 + c + left ∧ ax < 64 ∧ spriteBit byte (ax - x0) = true ∧
          d.fb.cell ax cy = true) := by
  induction left with
  | zero =>
    intro c d
    refine ⟨fun ax ay => ?_, ?_⟩
    · have : ¬ (ay = cy ∧ x0 + c ≤ ax ∧ ax < x0 + c + 0 ∧ ax < 64) := by omega
      rw [drawRow, decide_eq_false this, Bool.false_and, Bool.xor_false]
    · rw [drawRow]
      constructor
      · exact Or.inl
      · rintro (h | ⟨ax, h1, h2, -⟩)
        · exact h
        · omega
  | succ left ih =>
    intro c d
    rw [drawRow]
    by_cases hc : 63 < x0 + c
    · simp only [hc, if_true]
      refine ⟨fun ax ay => ?_, ?_⟩
      · have : ¬ (ay = cy ∧ x0 + c ≤ ax ∧ ax < x0 + c + (left + 1) ∧ ax < 64) := by omega
        simp [this]
      · constructor
        · exact Or.inl
        · rintro (h | ⟨ax, h⟩)
          · exact h
          · omega
    · simp only [hc, if_false]
      obtain ⟨h1, h2⟩ := ih (c + 1) (drawPixel (x0 + c) cy (spriteBit byte c) d)
      have hsub : x0 + c - x0 = c := by omega
      refine ⟨fun ax ay => ?_, ?_⟩
      · rw [h1]
        simp only [drawPixel]
        rw [Framebuffer.cell_xorCell _ _ _ _ _ _ (by omega) hy]
        by_cases hay : ay = cy
        · subst hay
          by_cases hax : ax = x0 + c
          · subst hax
            have e1 : ¬ (x0 + (c + 1) ≤ x0 + c) := by omega
            have e2 : x0 + c < 64 := by omega
            simp [e1, e2, hsub]
          · have : (x0 + (c + 1) ≤ ax ∧ ax < x0 + (c + 1) + left ∧ ax < 64) ↔
              (x0 + c ≤ ax ∧ ax < x0 + c + (left + 1) ∧ ax < 64) := by omega
            simp [hax, this]
        · simp [hay]
      · rw [h2]
        simp only [drawPixel]
        constructor
        · rintro (h | ⟨ax, ha, hb, hlt, hbit, hcell⟩)
          · rcases Bool.or_eq_true .. ▸ h with h | h
            · exact Or.inl h
            · rw [Bool.and_eq_true] at h
              exact Or.inr ⟨x0 + c, by omega, by omega, by omega, by rw [hsub]; exact h.1, h.2⟩
          · rw [Framebuffer.cell_xorCell _ _ _ _ _ _ (by omega) hy] at hcell
            have : ax ≠ x0 + c := by omega
            simp [this] at hcell
            exact Or.inr ⟨ax, by omega, by omega, hlt, hbit, hcell⟩
        · rintro (h | ⟨ax, ha, hb, hlt, hbit, hcell⟩)
          · exact Or.inl (by simp [h])
          · by_cases hax : ax = x0 + c
            · subst hax
              rw [hsub] at hbit
              exact Or.inl (by simp [hbit, hcell])
            · refine Or.inr ⟨ax, by omega, by omega, hlt, hbit, ?_⟩
              rw [Framebuffer.cell_xorCell _ _ _ _ _ _ (by omega) hy]
              simp [hax, hcell]

/-- The rows of a drawing from `r` on: what the sprite leaves in each cell, and when it collides. -/
theorem drawRows_spec (m : Memory) (i : Word) (x0 y0 : Nat) (left : Nat) :
    ∀ (r : Nat) (d : Drawing),
      (∀ ax ay, (drawRows m i x0 y0 left r d).fb.cell ax ay =
        (d.fb.cell ax ay ^^ (decide (y0 + r ≤ ay ∧ ay < y0 + r + left ∧ ay < 32 ∧ x0 ≤ ax ∧ ax < x0 + 8 ∧ ax < 64) &&
          spriteBit (m.read (ea i (ay - y0))) (ax - x0)))) ∧
      ((drawRows m i x0 y0 left r d).hit = true ↔
        d.hit = true ∨ ∃ ax ay, y0 + r ≤ ay ∧ ay < y0 + r + left ∧ ay < 32 ∧ x0 ≤ ax ∧ ax < x0 + 8 ∧ ax < 64 ∧
          spriteBit (m.read (ea i (ay - y0))) (ax - x0) = true ∧ d.fb.cell ax ay = true) := by
  induction left with
  | zero =>
    intro r d
    refine ⟨fun ax ay => ?_, ?_⟩
    · have : ¬ (y0 + r ≤ ay ∧ ay < y0 + r + 0 ∧ ay < 32 ∧ x0 ≤ ax ∧ ax < x0 + 8 ∧ ax < 64) := by omega
      rw [drawRows, decide_eq_false this, Bool.false_and, Bool.xor_false]
    · rw [drawRows]
      constructor
      · exact Or.inl
      · rintro (h | ⟨ax, ay, h1, h2, -⟩)
        · exact h
        · omega
  | succ left ih =>
    intro r d
    rw [drawRows]
    by_cases hr : 31 < y0 + r
    · simp only [hr, if_true]
      refine ⟨fun ax ay => ?_, ?_⟩
      · have : ¬ (y0 + r ≤ ay ∧ ay < y0 + r + (left + 1) ∧ ay < 32 ∧ x0 ≤ ax ∧ ax < x0 + 8 ∧ ax < 64) := by omega
        simp [this]
      · constructor
        · exact Or.inl
        · rintro (h | ⟨ax, ay, h1, h2, h3, -⟩)
          · exact h
          · omega
    · simp only [hr, if_false]
      obtain ⟨h1, h2⟩ := ih (r + 1) (drawRow (m.read (ea i r)) x0 (y0 + r) 8 0 d)
      obtain ⟨g1, g2⟩ := drawRow_spec (m.read (ea i r)) x0 (y0 + r) (by omega) 8 0 d
      have hsub : y0 + r - y0 = r := by omega
      refine ⟨fun ax ay => ?_, ?_⟩
      · rw [h1, g1]
        by_cases hay : ay = y0 + r
        · subst hay
          have e1 : ¬ (y0 + (r + 1) ≤ y0 + r) := by omega
          have e2 : y0 + r < 32 := by omega
          simp [e1, e2, hsub]
        · have : (y0 + (r + 1) ≤ ay ∧ ay < y0 + (r + 1) + left ∧ ay < 32 ∧ x0 ≤ ax ∧ ax < x0 + 8 ∧ ax < 64) ↔
            (y0 + r ≤ ay ∧ ay < y0 + r + (left + 1) ∧ ay < 32 ∧ x0 ≤ ax ∧ ax < x0 + 8 ∧ ax < 64) := by omega
          simp [hay, this]
      · rw [h2, g2]
        constructor
        · rintro ((h | ⟨ax, ha, hb, hlt, hbit, hcell⟩) | ⟨ax, ay, ha, hb, hlt, hc, he, hf, hbit, hcell⟩)
          · exact Or.inl h
          · exact Or.inr ⟨ax, y0 + r, by omega, by omega, by omega, by omega, by omega, hlt, by rw [hsub]; exact hbit, hcell⟩
          · rw [g1] at hcell
            have : ay ≠ y0 + r := by omega
            simp [this] at hcell
            exact Or.inr ⟨ax, ay, by omega, by omega, hlt, hc, he, hf, hbit, hcell⟩
        · rintro (h | ⟨ax, ay, ha, hb, hlt, hc, he, hf, hbit, hcell⟩)
          · exact Or.inl (Or.inl h)
          · by_cases hay : ay = y0 + r
            · subst hay
              rw [hsub] at hbit
              exact Or.inl (Or.inr ⟨ax, by omega, by omega, hf, hbit, hcell⟩)
            · refine Or.inr ⟨ax, ay, by omega, by omega, hlt, hc, he, hf, hbit, ?_⟩
              rw [g1]
              simp [hay, hcell]

end Sys2Proof.Machine
end

