-- ==== Sys2Proof/Laws/Memory.lean ====
section
/-! SUPPORT. The laws of memory: read after write, the canonical form is kept by every operation and makes equal memories equal
data, and what a block of stores does. -/

namespace Sys2Proof.Machine

/-! ### One byte -/

/-- An address that is not listed reads as the base. -/
theorem Memory.lookup_base (m : Memory) (a : Nat) (ha : ∀ e ∈ m, e.1 ≠ a) : m.lookup a = Memory.base a := by
  induction m with
  | nil => rfl
  | cons f m ih =>
    obtain ⟨k, d⟩ := f
    have : k ≠ a := ha (k, d) (by simp)
    simp only [Memory.lookup, this, if_false]
    exact ih (fun e he => ha e (by simp [he]))

theorem Memory.lookup_update (m : Memory) (a c : Nat) (b : Byte) (hm : m.Pairwise (fun c d => c.1 < d.1)) :
    (m.update a b).lookup c = if c = a then b else m.lookup c := by
  induction m with
  | nil =>
    unfold Memory.update
    split <;> by_cases hc : c = a <;> simp_all [Memory.lookup, eq_comm]
  | cons e m ih =>
    obtain ⟨k, d⟩ := e
    have htail := (List.pairwise_cons.1 hm).2
    have hhead : ∀ e ∈ m, k < e.1 := (List.pairwise_cons.1 hm).1
    have hbelow : ∀ x, x ≤ k → Memory.lookup m x = Memory.base x := fun x hx =>
      Memory.lookup_base m x (fun e he => by have := hhead e he; omega)
    unfold Memory.update
    by_cases h1 : a < k
    · by_cases hb : b = Memory.base a <;> by_cases hc : c = a
      · have hk : k ≠ c := by omega
        simp only [h1, hb, hc, if_true, Memory.lookup]
        rw [if_neg (by omega), hbelow a (by omega)]
      · simp only [h1, hb, hc, if_true, if_false]
      · simp only [h1, hb, hc, if_true, if_false, Memory.lookup]
      · simp only [h1, hb, hc, if_true, if_false, Memory.lookup, Ne.symm hc]
    · by_cases h2 : a = k
      · subst h2
        by_cases hb : b = Memory.base a <;> by_cases hc : c = a
        · simp only [h1, hb, hc, if_true, if_false, hbelow a (Nat.le_refl a)]
        · simp only [h1, hb, hc, if_true, if_false, Memory.lookup, Ne.symm hc]
        · simp only [h1, hb, hc, if_true, if_false, Memory.lookup]
        · simp only [h1, hb, hc, if_true, if_false, Memory.lookup, Ne.symm hc]
      · simp only [h1, h2, if_false, Memory.lookup, ih htail]
        by_cases hk : k = c
        · rw [if_pos hk, if_pos hk, if_neg (by omega)]
        · rw [if_neg hk, if_neg hk]

/-- Reading after a write: the byte written at that address, the old byte at every other. -/
theorem Memory.read_write (m : Memory) (hm : m.wf) (a c : Addr) (b : Byte) :
    (m.write a b).read c = if c = a then b else m.read c := by
  unfold Memory.read Memory.write
  rw [Memory.lookup_update m _ _ b hm.1]
  simp [BitVec.toNat_inj]

theorem Memory.mem_update (m : Memory) (a : Nat) (b : Byte) (e : Host.Cell) (he : e ∈ m.update a b) :
    e ∈ m ∨ (e = (a, b) ∧ b ≠ Memory.base a) := by
  induction m with
  | nil =>
    unfold Memory.update at he
    split at he <;> simp_all
  | cons f m ih =>
    obtain ⟨k, d⟩ := f
    unfold Memory.update at he
    split_ifs at he <;> simp only [List.mem_cons] at he ⊢ <;> tauto

/-- An update keeps the canonical form. -/
theorem Memory.wf_update (m : Memory) (hm : m.wf) (a : Nat) (ha : a < memSize) (b : Byte) : (m.update a b).wf := by
  refine ⟨?_, ?_⟩
  · have hp := hm.1
    clear hm
    induction m with
    | nil => unfold Memory.update; split <;> simp
    | cons f m ih =>
      obtain ⟨k, d⟩ := f
      have hhead := (List.pairwise_cons.1 hp).1
      have htail := (List.pairwise_cons.1 hp).2
      unfold Memory.update
      split_ifs with h1 h2 h3 h4
      · exact hp
      · refine List.pairwise_cons.2 ⟨fun e he => ?_, hp⟩
        rcases List.mem_cons.1 he with rfl | he
        · exact h1
        · exact Nat.lt_trans h1 (hhead e he)
      · exact htail
      · subst h3
        exact List.pairwise_cons.2 ⟨fun e he => hhead e he, htail⟩
      · refine List.pairwise_cons.2 ⟨fun e he => ?_, ih htail⟩
        rcases Memory.mem_update m a b e he with he | ⟨rfl, -⟩
        · exact hhead e he
        · simp only; omega
  · intro e he
    rcases Memory.mem_update m a b e he with he | ⟨rfl, hb⟩
    · exact hm.2 e he
    · exact ⟨ha, hb⟩

/-- A write keeps the canonical form. -/
theorem Memory.wf_write (m : Memory) (hm : m.wf) (a : Addr) (b : Byte) : (m.write a b).wf :=
  Memory.wf_update m hm a.toNat a.isLt b

theorem Memory.wf_nil : Memory.wf [] := by decide

/-- In canonical form a listed address reads as its entry. -/
theorem Memory.lookup_listed (m : Memory) (hm : m.wf) (e : Host.Cell) (he : e ∈ m) : m.lookup e.1 = e.2 := by
  obtain ⟨hp, hne⟩ := hm
  induction m with
  | nil => simp at he
  | cons f m ih =>
    obtain ⟨k, d⟩ := f
    rcases List.mem_cons.1 he with rfl | he'
    · simp [Memory.lookup]
    · have : k < e.1 := (List.pairwise_cons.1 hp).1 e he'
      have hk : k ≠ e.1 := by omega
      simp only [Memory.lookup, hk, if_false]
      exact ih he' (List.pairwise_cons.1 hp).2 (fun c hc => hne c (by simp [hc]))

/-- Strictly rising lists of the same members are the same list. -/
theorem Memory.eq_of_mem_iff (m m' : Memory) (hm : m.Pairwise (fun c d => c.1 < d.1))
    (hm' : m'.Pairwise (fun c d => c.1 < d.1)) (h : ∀ e, e ∈ m ↔ e ∈ m') : m = m' := by
  have hirr : ∀ l : Memory, l.Pairwise (fun c d => c.1 < d.1) → l.Nodup := fun l hl =>
    hl.imp (fun {a b} hab => by rintro rfl; exact Nat.lt_irrefl _ hab)
  have hperm : m.Perm m' := (List.perm_ext_iff_of_nodup (hirr m hm) (hirr m' hm')).2 h
  exact List.Perm.eq_of_pairwise (fun a b _ _ h1 h2 => absurd h1 (Nat.not_lt.2 (Nat.le_of_lt h2))) hm hm' hperm

/-! ### The effective address (R46) -/

theorem ea_toNat (i : Word) (k : Nat) : (ea i k).toNat = (i.toNat + k) % 4096 := by
  simp [ea, BitVec.toNat_ofNat]

/-- Two of up to 4096 consecutive effective addresses are equal only if their offsets are (R48). -/
theorem ea_inj (i : Word) (j k : Nat) (hj : j < k + 4096) (hk : k < j + 4096) : ea i j = ea i k ↔ j = k := by
  constructor
  · intro h
    have := congrArg BitVec.toNat h
    rw [ea_toNat, ea_toNat] at this
    omega
  · rintro rfl; rfl

/-! ### A block of stores (R48) -/

theorem Memory.wf_writeFrom (i : Word) (bs : List Byte) :
    ∀ (k : Nat) (m : Memory), m.wf → (Memory.writeFrom i k bs m).wf := by
  induction bs with
  | nil => intro k m hm; exact hm
  | cons b bs ih => intro k m hm; exact ih (k + 1) _ (Memory.wf_write m hm _ b)

/-- What a block of stores does at an address outside the block: nothing. -/
theorem Memory.read_writeFrom_outside (i : Word) (a : Addr) (bs : List Byte) :
    ∀ (k : Nat) (m : Memory), m.wf → (∀ j, j < bs.length → a ≠ ea i (k + j)) →
      (Memory.writeFrom i k bs m).read a = m.read a := by
  induction bs with
  | nil => intro k m _ _; rfl
  | cons b bs ih =>
    intro k m hm h
    have h0 : a ≠ ea i k := h 0 (by simp)
    have hrest : ∀ j, j < bs.length → a ≠ ea i (k + 1 + j) := fun j hj => by
      have := h (j + 1) (by simpa using hj)
      rwa [show k + 1 + j = k + (j + 1) by omega]
    rw [Memory.writeFrom, ih (k + 1) _ (Memory.wf_write m hm _ b) hrest, Memory.read_write m hm]
    simp [h0]

/-- What a block of at most 4096 stores leaves at its `j`-th address: its `j`-th byte. -/
theorem Memory.read_writeFrom_inside (i : Word) (bs : List Byte) :
    ∀ (k : Nat) (m : Memory), m.wf → bs.length ≤ 4096 → ∀ j (hj : j < bs.length),
      (Memory.writeFrom i k bs m).read (ea i (k + j)) = bs[j] := by
  induction bs with
  | nil => intro k m _ _ j hj; simp at hj
  | cons b bs ih =>
    intro k m hm hlen j hj
    have hwf := Memory.wf_write m hm (ea i k) b
    cases j with
    | zero =>
      rw [Memory.writeFrom, Memory.read_writeFrom_outside i _ bs (k + 1) _ hwf, Memory.read_write m hm]
      · simp
      · intro j hj' heq
        rw [ea_inj] at heq <;> simp at hlen hj' <;> omega
    | succ j =>
      have := ih (k + 1) (m.write (ea i k) b) hwf (by simp at hlen; omega) j (by simpa using hj)
      rw [Memory.writeFrom, show k + (j + 1) = k + 1 + j by omega, this]
      simp

/-- A store of at most 4096 bytes from `I` on leaves at every address what `byteAfterStore` says. -/
theorem State.read_writeFrom (s : State) (hm : s.mem.wf) (stored : List Byte) (hlen : stored.length ≤ 4096) (a : Addr) :
    (Memory.writeFrom s.i 0 stored s.mem).read a = s.byteAfterStore stored a := by
  unfold State.byteAfterStore
  split
  · next k hk =>
    have hlt : k < stored.length := by simpa using List.mem_of_find?_eq_some hk
    have ha : ea s.i k = a := by simpa using List.find?_some hk
    have := Memory.read_writeFrom_inside s.i stored 0 s.mem hm hlen k hlt
    rw [Nat.zero_add, ha] at this
    rw [this, List.getD_eq_getElem _ _ hlt]
  · next hnone =>
    refine Memory.read_writeFrom_outside s.i a stored 0 s.mem hm fun j hj heq => ?_
    have := List.find?_eq_none.1 hnone j (by simpa using hj)
    simp [heq] at this

/-! ### Built memories -/

theorem Memory.wf_ofImage (image : List Byte) : (Memory.ofImage image).wf :=
  Memory.wf_writeFrom entry image 0 [] Memory.wf_nil

theorem Memory.wf_ofBytes (f : Nat → Byte) (n : Nat) (hn : n ≤ memSize) : (Memory.ofBytes f n).wf := by
  induction n with
  | zero => rw [Memory.ofBytes]; exact Memory.wf_nil
  | succ n ih => rw [Memory.ofBytes]; exact Memory.wf_update _ (ih (Nat.le_of_succ_le hn)) n hn (f n)

theorem State.wf_reset : State.reset.mem.wf := Memory.wf_nil

theorem State.wf_coldBoot (image : List Byte) (now : Rat) : (State.coldBoot image now).mem.wf :=
  Memory.wf_ofImage image

theorem State.unspecified_mem (u : Nat → Nat) :
    (State.unspecified u).mem = Memory.ofBytes (fun a => BitVec.ofNat 8 (u (100 + a))) (u 15 % (memSize + 1)) := rfl

theorem State.wf_unspecified (u : Nat → Nat) : (State.unspecified u).mem.wf := by
  rw [State.unspecified_mem]
  exact Memory.wf_ofBytes _ _ (Nat.le_of_lt_succ (Nat.mod_lt _ (Nat.succ_pos memSize)))

theorem State.loadError_mem (s : State) :
    s.loadError.mem = (State.unspecified (Config.unspecified s.draws)).mem := rfl

theorem State.wf_resetWith (s : State) (image : Option (List Byte)) (now : Rat) : (s.resetWith image now).mem.wf := by
  have herr : s.loadError.mem.wf := by rw [State.loadError_mem]; exact State.wf_unspecified _
  cases image with
  | none => exact herr
  | some bytes =>
    by_cases h : bytes.length ≤ maxImage
    · rw [show (s.resetWith (some bytes) now).mem = Memory.ofImage bytes by simp only [State.resetWith, if_pos h]; rfl]
      exact Memory.wf_ofImage bytes
    · rw [show s.resetWith (some bytes) now = s.loadError by simp only [State.resetWith, if_neg h]]
      exact herr

/-- The canonical form makes equal memories equal data: memories that read the same everywhere are the same list. -/
theorem Memory.eq_of_read_eq (m m' : Memory) (hm : m.wf) (hm' : m'.wf) (h : ∀ a, m.read a = m'.read a) : m = m' := by
  have key : ∀ m m' : Memory, m.wf → m'.wf → (∀ a, m.read a = m'.read a) → ∀ e, e ∈ m → e ∈ m' := by
    intro m m' hm hm' h e he
    have hlt := (hm.2 e he).1
    have hread := h (BitVec.ofNat 12 e.1)
    have hnat : (BitVec.ofNat 12 e.1).toNat = e.1 := by
      rw [BitVec.toNat_ofNat]; exact Nat.mod_eq_of_lt hlt
    simp only [Memory.read, hnat, Memory.lookup_listed m hm e he] at hread
    by_contra hno
    by_cases hin : ∃ f ∈ m', f.1 = e.1
    · obtain ⟨f, hf, hfe⟩ := hin
      have := Memory.lookup_listed m' hm' f hf
      rw [hfe, ← hread] at this
      exact hno (by rwa [show e = f from Prod.ext hfe.symm this])
    · rw [Memory.lookup_base m' e.1 (fun f hf hfe => hin ⟨f, hf, hfe⟩)] at hread
      exact (hm.2 e he).2 hread
  exact Memory.eq_of_mem_iff m m' hm.1 hm'.1 (fun e => ⟨key m m' hm hm' h e, key m' m hm' hm (fun a => (h a).symm) e⟩)

end Sys2Proof.Machine
end

