-- ==== Sys2Proof/Laws/Registers.lean ====
section
/-! SUPPORT. What the shared operations over registers, stack and keypad do, one lemma each. -/

namespace Sys2Proof.Machine

/-! ### Registers and the flag -/

theorem State.reg_setReg (s : State) (x z : Nibble) (b : Byte) :
    (s.setReg x b).reg z = if z = x then b else s.reg z := by
  unfold State.setReg State.reg
  rw [Vector.getElem_set]
  simp [BitVec.toNat_inj, eq_comm]

/-- The result goes to `V[x]`, the flag to `V[0xF]`, and with `x = 0xF` the flag remains (R9). -/
theorem State.reg_setResult (s : State) (x z : Nibble) (r f : Byte) :
    (s.setResult x r f).reg z = if z = flagReg then f else if z = x then r else s.reg z := by
  unfold State.setResult
  rw [State.reg_setReg, State.reg_setReg]

/-- A byte of the register block of `FX55`. -/
theorem State.regBlock_length (s : State) (x : Nibble) : (s.regBlock x).length = x.toNat + 1 := by
  have := x.isLt
  simp [State.regBlock]
  omega

theorem State.regBlock_getElem (s : State) (x : Nibble) (k : Nat) (hk : k < (s.regBlock x).length) :
    (s.regBlock x)[k] = s.reg (BitVec.ofNat 4 k) := by
  rw [State.regBlock_length] at hk
  have hx := x.isLt
  have h4 : (BitVec.ofNat 4 k).toNat = k := by
    rw [BitVec.toNat_ofNat]; exact Nat.mod_eq_of_lt (by omega)
  simp [State.regBlock, State.reg, h4]

/-- The register block of `FX65`: the first `count` registers are loaded, the others are as before (R129). -/
theorem loadBlock_getElem (m : Memory) (i : Word) (count : Nat) (v : Vector Byte 16) (k : Nat) (hk : k < 16) :
    (loadBlock m i count v)[k] = if k < count then m.read (ea i k) else v[k] := by
  induction count with
  | zero => simp [loadBlock]
  | succ count ih =>
    rw [loadBlock, Vector.getElem_setIfInBounds, ih]
    by_cases h : count = k
    · simp [h]
    · by_cases hlt : k < count
      · have : k < count + 1 := by omega
        simp [h, hlt, this]
      · have : ¬ k < count + 1 := by omega
        simp [h, hlt, this]

/-! ### Call stack -/

theorem State.push_full (s : State) (w : Word) (h : s.sp.val = 16) : s.push w = none := by
  simp [State.push, h]

/-- A push that is not refused (R24). -/
theorem State.push_some (s : State) (w : Word) (h : s.sp.val < 16) :
    s.push w = some (s.pushed w h) := by
  simp [State.push, h]

theorem State.pop_empty (s : State) (h : s.sp.val = 0) : s.pop = none := by
  simp [State.pop, h]

/-- A pop that is not refused (R24). -/
theorem State.pop_some (s : State) (h : 0 < s.sp.val) :
    s.pop = some (s.stack[s.sp.val - 1]'(by omega), s.popped) := by
  simp [State.pop, h]

/-! ### Keypad -/

theorem State.leastPressed_none (s : State) : s.leastPressed = none ↔ ∀ k, s.pressed k = false := by
  unfold State.leastPressed State.pressed
  rw [Option.map_eq_none_iff, List.find?_eq_none]
  constructor
  · intro h k
    have := h k.toNat (List.mem_range.2 k.isLt)
    simpa [List.getD_eq_getElem?_getD, List.getElem?_eq_getElem, Vector.getElem?_toList, k.isLt] using this
  · intro h k hk
    have hk' := List.mem_range.1 hk
    have := h (BitVec.ofNat 4 k)
    have h4 : (BitVec.ofNat 4 k).toNat = k := by
      rw [BitVec.toNat_ofNat]; exact Nat.mod_eq_of_lt (by omega)
    simp only [h4] at this
    simp [this, hk']

/-- The key that the wait chooses is pressed and no lower key is (R118). -/
theorem State.leastPressed_some (s : State) (k : Nibble) (h : s.leastPressed = some k) :
    s.pressed k = true ∧ ∀ j, j.toNat < k.toNat → s.pressed j = false := by
  unfold State.leastPressed State.pressed at *
  rw [Option.map_eq_some_iff] at h
  obtain ⟨n, hn, rfl⟩ := h
  rw [List.find?_range_eq_some] at hn
  obtain ⟨h1, h2, h3⟩ := hn
  have h2 := List.mem_range.1 h2
  have h4 : (BitVec.ofNat 4 n).toNat = n := by
    rw [BitVec.toNat_ofNat]; exact Nat.mod_eq_of_lt (by omega)
  simp only [h4]
  refine ⟨by simpa [h2] using h1, fun j hj => ?_⟩
  have := h3 j.toNat hj
  simpa [j.isLt] using this

/-- One key event changes one flag (R161). -/
theorem applyKey_getElem (key : Vector Bool 16) (e : KeyEvent) (k : Nibble) :
    (applyKey key e)[k.toNat]'k.isLt =
      match e with
      | .set j => if j = k then true else key[k.toNat]'k.isLt
      | .clear j => if j = k then false else key[k.toNat]'k.isLt := by
  cases e <;> simp [applyKey, Vector.getElem_set, BitVec.toNat_inj]

/-- Key events in arrival order: the last one about a key decides (R161). -/
theorem applyKeys_getElem (events : List KeyEvent) (k : Nibble) :
    ∀ key : Vector Bool 16,
      (applyKeys events key)[k.toNat]'k.isLt = keyAfter events k (key[k.toNat]'k.isLt) := by
  induction events with
  | nil => intro key; rfl
  | cons e es ih =>
    intro key
    rw [applyKeys, ih, applyKey_getElem]
    unfold keyAfter
    rw [List.reverse_cons, List.find?_append]
    cases es.reverse.find? (KeyEvent.about k) with
    | some f => rfl
    | none =>
      cases e with
      | set j => by_cases hj : j = k <;> simp [KeyEvent.about, KeyEvent.sets, hj]
      | clear j => by_cases hj : j = k <;> simp [KeyEvent.about, KeyEvent.sets, hj]

end Sys2Proof.Machine
end

