-- ==== Sys2Proof/Laws/Exec.lean ====
section
/-! SUPPORT. What an instruction and an engine step can do, said once. -/

namespace Sys2Proof.Machine

/-- Every instruction answers a next state, in every state. -/
theorem exec_next (i : Instr) (s : State) : ∃ t, exec i s = .next t := by
  cases i <;> first
    | exact ⟨_, rfl⟩
    | (simp only [exec, execRet]; split <;> exact ⟨_, rfl⟩)
    | (simp only [exec, execCall]; split <;> exact ⟨_, rfl⟩)
    | (simp only [exec, execLdVxK]; split_ifs <;> exact ⟨_, rfl⟩)

/-- Everything a return can do (R80). -/
theorem execRet_cases (s t : State) (h : execRet s = .next t) :
    (s.sp.val = 0 ∧ t = s.raise .stackUnderflow s.ir s.instrAddr) ∨
    (0 < s.sp.val ∧ ∃ w, t = s.popped.setPc w ∧ ∃ j : Fin 16, j.val + 1 = s.sp.val ∧ w = s.stack[j.val]) := by
  unfold execRet at h
  by_cases hs : s.sp.val = 0
  · rw [State.pop_empty s hs] at h
    exact Or.inl ⟨hs, (Host.Outcome.next.inj h).symm⟩
  · rw [State.pop_some s (Nat.pos_of_ne_zero hs)] at h
    exact Or.inr ⟨Nat.pos_of_ne_zero hs, _, (Host.Outcome.next.inj h).symm, ⟨s.sp.val - 1, by omega⟩,
      Nat.succ_pred_eq_of_pos (Nat.pos_of_ne_zero hs), rfl⟩

/-- Everything a call can do (R82). -/
theorem execCall_cases (nnn : Addr) (s t : State) (h : execCall nnn s = .next t) :
    (s.sp.val = 16 ∧ t = s.raise .stackOverflow s.ir s.instrAddr) ∨
    (∃ hs : s.sp.val < 16, t = (s.pushed s.pc hs).setPc (immAddr nnn)) := by
  unfold execCall at h
  by_cases hs : s.sp.val < 16
  · rw [State.push_some s _ hs] at h
    exact Or.inr ⟨hs, (Host.Outcome.next.inj h).symm⟩
  · have h16 : s.sp.val = 16 := by have := s.sp.isLt; omega
    rw [State.push_full s _ h16] at h
    exact Or.inl ⟨h16, (Host.Outcome.next.inj h).symm⟩

/-- Everything the key wait can do (R118): wait with nothing chosen, choose the least pressed key, wait for its release, or store
it. -/
theorem execLdVxK_cases (x : Nibble) (s t : State) (h : execLdVxK x s = .next t) :
    (s.kwValid = false ∧ s.leastPressed = none ∧ t = s.repeatInstr) ∨
    (s.kwValid = false ∧ ∃ k, s.leastPressed = some k ∧ t = (s.holdKey k).repeatInstr) ∨
    (s.kwValid = true ∧ s.pressed s.kwKey = true ∧ t = s.repeatInstr) ∨
    (s.kwValid = true ∧ s.pressed s.kwKey = false ∧ t = (s.setReg x (s.kwKey.setWidth 8)).releaseKey) := by
  unfold execLdVxK State.chooseKey at h
  split_ifs at h with h1 h2
  · exact Or.inr (Or.inr (Or.inl ⟨h1, h2, (Host.Outcome.next.inj h).symm⟩))
  · exact Or.inr (Or.inr (Or.inr ⟨h1, by simpa using h2, (Host.Outcome.next.inj h).symm⟩))
  · cases hl : s.leastPressed with
    | none =>
      rw [hl] at h
      exact Or.inl ⟨by simpa using h1, rfl, (Host.Outcome.next.inj h).symm⟩
    | some k =>
      rw [hl] at h
      exact Or.inr (Or.inl ⟨by simpa using h1, k, rfl, (Host.Outcome.next.inj h).symm⟩)

/-- The three ways in which an engine step ends (R148). -/
theorem engineStep_cases (s t : State) (h : engineStep s = .next t) :
    (0x0FFE < s.pc.toNat ∧ t = s.raise .fetchOutOfRange 0x0000#16 s.pc) ∨
    (s.pc.toNat ≤ 0x0FFE ∧ ∃ e, decodeWord (s.mem.fetchWord s.pc) = .error e ∧
      t = (s.fetched (s.mem.fetchWord s.pc)).raise .illegalOpcode (s.mem.fetchWord s.pc) s.pc) ∨
    (s.pc.toNat ≤ 0x0FFE ∧ ∃ i, decodeWord (s.mem.fetchWord s.pc) = .ok i ∧
      exec i (s.fetched (s.mem.fetchWord s.pc)) = .next t) := by
  unfold engineStep at h
  split_ifs at h with hpc
  · exact Or.inl ⟨hpc, (Host.Outcome.next.inj h).symm⟩
  · cases hd : decodeWord (s.mem.fetchWord s.pc) with
    | error e =>
      rw [hd] at h
      exact Or.inr (Or.inl ⟨by omega, e, rfl, (Host.Outcome.next.inj h).symm⟩)
    | ok i =>
      rw [hd] at h
      exact Or.inr (Or.inr ⟨by omega, i, rfl, h⟩)

/-- An engine step answers a next state, in every state. -/
theorem engineStep_next (s : State) : ∃ t, engineStep s = .next t := by
  unfold engineStep
  split_ifs
  · exact ⟨_, rfl⟩
  · split
    · exact exec_next _ _
    · exact ⟨_, rfl⟩

/-- A decoded word is executed in the fetched state (R64). -/
theorem engineStep_ok (s : State) (i : Instr) (hpc : s.pc.toNat ≤ 0x0FFE)
    (hd : decodeWord (s.mem.fetchWord s.pc) = .ok i) :
    engineStep s = exec i (s.fetched (s.mem.fetchWord s.pc)) := by
  have : ¬ 0x0FFE < s.pc.toNat := by omega
  simp only [engineStep, if_neg this, hd]

/-- The step of a machine whose engine has the turn (R164; log entry 5). -/
theorem step_engineTurn (s : State) (h : EngineTurn s) : step s = engineStep s.quiet := by
  obtain ⟨hp, ha, hh, hq⟩ := h
  simp [step, act, stepIdle, hp, ha, hh, hq]

/-- A step that is an engine move is the engine step from the state of the move (R156, R164). -/
theorem step_engineMove (s u : State) (h : EngineMove s u) : step s = engineStep u := by
  cases h with
  | free turn => exact step_engineTurn s turn
  | timed hp hh hb => simp [step, act, stepTimed, hp, hh, hb]
  | block left tick hp hh => simp [step, act, stepBlock, hp, hh]

/-- The machine on which an engine move finds itself differs from the one before in its scheduling and its signals alone. -/
theorem EngineMove.same (s u : State) (h : EngineMove s u) (c : Component)
    (hc : c ∉ [.timing, .turn, .outputs]) : c.same s u := by
  cases h <;> cases c <;> simp_all [Component.same]

/-- An engine move fetches at the `PC` of the state before, in its memory. -/
theorem EngineMove.fetch (s u : State) (h : EngineMove s u) : u.pc = s.pc ∧ u.mem = s.mem := by
  cases h <;> exact ⟨rfl, rfl⟩

/-- Everything one step of the machine can do: perform the next call, wait while paused, end a scheduling step or block on a
fault, make one engine step (free, timed or of a block), or close a scheduling step or block. -/
theorem step_cases (s t : State) (h : step s = .next t) :
    (s.phase = .idle ∧ ∃ c rest, s.agenda = c :: rest ∧ perform c (s.quiet.setAgenda rest) = .next t) ∨
    (s.phase = .idle ∧ s.agenda = [] ∧ s.halted = false ∧ s.paused = true ∧ t = s.quiet) ∨
    (s.phase = .idle ∧ s.agenda = [] ∧ s.halted = false ∧ s.paused = false ∧ engineStep s.quiet = .next t) ∨
    (s.phase ≠ .idle ∧ s.halted = true ∧ t = s.quiet.setPhase .idle) ∨
    (s.phase = .timed ∧ s.halted = false ∧ instrPeriod Config.ips ≤ s.accI ∧
      engineStep (s.quiet.payInstr (instrPeriod Config.ips)) = .next t) ∨
    (s.phase = .timed ∧ s.halted = false ∧ s.accI < instrPeriod Config.ips ∧ t = s.quiet.closeTimed) ∨
    (∃ left tick, s.phase = .block (left + 1) tick ∧ s.halted = false ∧
      engineStep (s.quiet.setPhase (.block left tick)) = .next t) ∨
    (∃ tick, s.phase = .block 0 tick ∧ s.halted = false ∧ t = s.quiet.close tick) := by
  have hq : ∀ u v : State, (Host.Outcome.next u : Host.Outcome State Fault Refusal) = .next v → v = u :=
    fun _ _ e => (Host.Outcome.next.inj e).symm
  unfold step act at h
  cases hp : s.phase with
  | idle =>
    simp only [State.quiet_phase, hp, stepIdle, State.quiet_agenda, State.quiet_halted, State.quiet_paused] at h
    cases ha : s.agenda with
    | cons c rest =>
      rw [ha] at h
      exact Or.inl ⟨rfl, c, rest, rfl, h⟩
    | nil =>
      rw [ha] at h
      refine Or.inr ?_
      cases hh : s.halted <;> cases hz : s.paused <;> simp only [hh, hz, if_true, Bool.false_eq_true, if_false] at h
      · exact Or.inr (Or.inl ⟨rfl, rfl, rfl, rfl, h⟩)
      · exact Or.inl ⟨rfl, rfl, rfl, rfl, hq _ _ h⟩
      · cases h
      · cases h
  | timed =>
    simp only [State.quiet_phase, hp, stepTimed, State.quiet_halted, State.quiet_accI] at h
    refine Or.inr (Or.inr (Or.inr ?_))
    cases hh : s.halted <;> simp only [hh, if_true, Bool.false_eq_true, if_false] at h
    · split_ifs at h with hb
      · exact Or.inr (Or.inl ⟨rfl, rfl, hb, h⟩)
      · exact Or.inr (Or.inr (Or.inl ⟨rfl, rfl, lt_of_not_ge hb, hq _ _ h⟩))
    · exact Or.inl ⟨by simp, rfl, hq _ _ h⟩
  | block n tick =>
    simp only [State.quiet_phase, hp, stepBlock, State.quiet_halted] at h
    refine Or.inr (Or.inr (Or.inr ?_))
    cases hh : s.halted <;> simp only [hh, if_true, Bool.false_eq_true, if_false] at h
    · cases n with
      | zero => exact Or.inr (Or.inr (Or.inr (Or.inr ⟨tick, rfl, rfl, hq _ _ h⟩)))
      | succ left => exact Or.inr (Or.inr (Or.inr (Or.inl ⟨left, tick, rfl, rfl, h⟩)))
    · exact Or.inl ⟨by simp, rfl, hq _ _ h⟩

/-- Everything a call of the outside world can do (R34). -/
theorem perform_cases (c : Call) (s t : State) (h : perform c s = .next t) :
    (∃ image now, c = .reset image now ∧ 0 ≤ now ∧ t = s.resetWith image now) ∨
    (∃ k e, ((c = .keySet k ∧ e = .set k) ∨ (c = .keyClear k ∧ e = .clear k)) ∧
      t = s.queueKey e) ∨
    (∃ now, c = .schedStep now ∧ s.lastT ≤ now ∧
      ((s.halted = true ∧ t = s) ∨ (s.halted = false ∧ t = s.openTimed now))) ∨
    (c = .pause ∧ t = s.pausedNow) ∨
    (∃ now, c = .resume now ∧ s.lastT ≤ now ∧ t = s.resumed now) ∨
    (∃ keys steps tick, c = .block keys steps tick ∧
      ((s.halted = true ∧ t = s) ∨ (s.halted = false ∧ t = s.openBlock keys steps tick))) := by
  have hq : ∀ u v : State, (Host.Outcome.next u : Host.Outcome State Fault Refusal) = .next v → v = u :=
    fun _ _ e => (Host.Outcome.next.inj e).symm
  cases c with
  | reset image now =>
    simp only [perform] at h
    split_ifs at h with hn
    exact Or.inl ⟨image, now, rfl, le_of_not_gt hn, hq _ _ h⟩
  | keySet k => exact Or.inr (Or.inl ⟨k, .set k, Or.inl ⟨rfl, rfl⟩, hq _ _ h⟩)
  | keyClear k => exact Or.inr (Or.inl ⟨k, .clear k, Or.inr ⟨rfl, rfl⟩, hq _ _ h⟩)
  | schedStep now =>
    simp only [perform] at h
    split_ifs at h with hn hh
    · exact Or.inr (Or.inr (Or.inl ⟨now, rfl, le_of_not_gt hn, Or.inl ⟨hh, hq _ _ h⟩⟩))
    · exact Or.inr (Or.inr (Or.inl ⟨now, rfl, le_of_not_gt hn, Or.inr ⟨by simpa using hh, hq _ _ h⟩⟩))
  | pause => exact Or.inr (Or.inr (Or.inr (Or.inl ⟨rfl, hq _ _ h⟩)))
  | resume now =>
    simp only [perform] at h
    split_ifs at h with hn
    exact Or.inr (Or.inr (Or.inr (Or.inr (Or.inl ⟨now, rfl, le_of_not_gt hn, hq _ _ h⟩))))
  | block keys steps tick =>
    simp only [perform] at h
    split_ifs at h with hh
    · exact Or.inr (Or.inr (Or.inr (Or.inr (Or.inr ⟨keys, steps, tick, rfl, Or.inl ⟨hh, hq _ _ h⟩⟩))))
    · exact Or.inr (Or.inr (Or.inr (Or.inr (Or.inr ⟨keys, steps, tick, rfl, Or.inr ⟨by simpa using hh, hq _ _ h⟩⟩))))

end Sys2Proof.Machine
end

