-- ==== Sys2Proof/Laws/PerInstr.lean ====
section
/-! SUPPORT. One lemma per constructor of `Instr` for each family of LAWS.json. The family `DecodeEncode`: decoding the word of a
well-formed instruction gives the instruction back (R61, R62, R71; 95_test_vectors.md S1). -/

namespace Sys2Proof

/-- Decoding the word of `i` gives `i` back, if `i` is well formed. -/
def Laws.DecodeEncode.Statement (i : Instr) : Prop := i.wellFormed = true → decodeWord (encode i) = .ok i

theorem Laws.DecodeEncode.cls : Laws.DecodeEncode.Statement .cls := fun _ => by decide
theorem Laws.DecodeEncode.ret : Laws.DecodeEncode.Statement .ret := fun _ => by decide
theorem Laws.DecodeEncode.jp (nnn : Addr) : Laws.DecodeEncode.Statement (.jp nnn) := fun _ => by simp [encode, decodeWord]
theorem Laws.DecodeEncode.call (nnn : Addr) : Laws.DecodeEncode.Statement (.call nnn) := fun _ => by simp [encode, decodeWord]
theorem Laws.DecodeEncode.seImm (x : Nibble) (nn : Byte) : Laws.DecodeEncode.Statement (.seImm x nn) := fun _ => by simp [encode, decodeWord]
theorem Laws.DecodeEncode.sneImm (x : Nibble) (nn : Byte) : Laws.DecodeEncode.Statement (.sneImm x nn) := fun _ => by simp [encode, decodeWord]
theorem Laws.DecodeEncode.seReg (x y : Nibble) : Laws.DecodeEncode.Statement (.seReg x y) := fun _ => by simp [encode, decodeWord]
theorem Laws.DecodeEncode.ldImm (x : Nibble) (nn : Byte) : Laws.DecodeEncode.Statement (.ldImm x nn) := fun _ => by simp [encode, decodeWord]
theorem Laws.DecodeEncode.addImm (x : Nibble) (nn : Byte) : Laws.DecodeEncode.Statement (.addImm x nn) := fun _ => by simp [encode, decodeWord]
theorem Laws.DecodeEncode.ldReg (x y : Nibble) : Laws.DecodeEncode.Statement (.ldReg x y) := fun _ => by simp [encode, decodeWord, decodeGroup8]
theorem Laws.DecodeEncode.orReg (x y : Nibble) : Laws.DecodeEncode.Statement (.orReg x y) := fun _ => by simp [encode, decodeWord, decodeGroup8]
theorem Laws.DecodeEncode.andReg (x y : Nibble) : Laws.DecodeEncode.Statement (.andReg x y) := fun _ => by simp [encode, decodeWord, decodeGroup8]
theorem Laws.DecodeEncode.xorReg (x y : Nibble) : Laws.DecodeEncode.Statement (.xorReg x y) := fun _ => by simp [encode, decodeWord, decodeGroup8]
theorem Laws.DecodeEncode.addReg (x y : Nibble) : Laws.DecodeEncode.Statement (.addReg x y) := fun _ => by simp [encode, decodeWord, decodeGroup8]
theorem Laws.DecodeEncode.sub (x y : Nibble) : Laws.DecodeEncode.Statement (.sub x y) := fun _ => by simp [encode, decodeWord, decodeGroup8]
theorem Laws.DecodeEncode.shr (x y : Nibble) : Laws.DecodeEncode.Statement (.shr x y) := fun _ => by simp [encode, decodeWord, decodeGroup8]
theorem Laws.DecodeEncode.subn (x y : Nibble) : Laws.DecodeEncode.Statement (.subn x y) := fun _ => by simp [encode, decodeWord, decodeGroup8]
theorem Laws.DecodeEncode.shl (x y : Nibble) : Laws.DecodeEncode.Statement (.shl x y) := fun _ => by simp [encode, decodeWord, decodeGroup8]
theorem Laws.DecodeEncode.sneReg (x y : Nibble) : Laws.DecodeEncode.Statement (.sneReg x y) := fun _ => by simp [encode, decodeWord]
theorem Laws.DecodeEncode.ldI (nnn : Addr) : Laws.DecodeEncode.Statement (.ldI nnn) := fun _ => by simp [encode, decodeWord]
theorem Laws.DecodeEncode.jpV0 (nnn : Addr) : Laws.DecodeEncode.Statement (.jpV0 nnn) := fun _ => by simp [encode, decodeWord]
theorem Laws.DecodeEncode.rnd (x : Nibble) (nn : Byte) : Laws.DecodeEncode.Statement (.rnd x nn) := fun _ => by simp [encode, decodeWord]
theorem Laws.DecodeEncode.drw (x y n : Nibble) : Laws.DecodeEncode.Statement (.drw x y n) := fun _ => by simp [encode, decodeWord]
theorem Laws.DecodeEncode.skp (x : Nibble) : Laws.DecodeEncode.Statement (.skp x) := fun _ => by simp [encode, decodeWord, decodeGroupE]
theorem Laws.DecodeEncode.sknp (x : Nibble) : Laws.DecodeEncode.Statement (.sknp x) := fun _ => by simp [encode, decodeWord, decodeGroupE]
theorem Laws.DecodeEncode.ldVxDt (x : Nibble) : Laws.DecodeEncode.Statement (.ldVxDt x) := fun _ => by simp [encode, decodeWord, decodeGroupF]
theorem Laws.DecodeEncode.ldVxK (x : Nibble) : Laws.DecodeEncode.Statement (.ldVxK x) := fun _ => by simp [encode, decodeWord, decodeGroupF]
theorem Laws.DecodeEncode.ldDtVx (x : Nibble) : Laws.DecodeEncode.Statement (.ldDtVx x) := fun _ => by simp [encode, decodeWord, decodeGroupF]
theorem Laws.DecodeEncode.ldStVx (x : Nibble) : Laws.DecodeEncode.Statement (.ldStVx x) := fun _ => by simp [encode, decodeWord, decodeGroupF]
theorem Laws.DecodeEncode.addI (x : Nibble) : Laws.DecodeEncode.Statement (.addI x) := fun _ => by simp [encode, decodeWord, decodeGroupF]
theorem Laws.DecodeEncode.ldF (x : Nibble) : Laws.DecodeEncode.Statement (.ldF x) := fun _ => by simp [encode, decodeWord, decodeGroupF]
theorem Laws.DecodeEncode.bcd (x : Nibble) : Laws.DecodeEncode.Statement (.bcd x) := fun _ => by simp [encode, decodeWord, decodeGroupF]
theorem Laws.DecodeEncode.stRegs (x : Nibble) : Laws.DecodeEncode.Statement (.stRegs x) := fun _ => by simp [encode, decodeWord, decodeGroupF]
theorem Laws.DecodeEncode.ldRegs (x : Nibble) : Laws.DecodeEncode.Statement (.ldRegs x) := fun _ => by simp [encode, decodeWord, decodeGroupF]
theorem Laws.DecodeEncode.malformed5 (x y n : Nibble) : Laws.DecodeEncode.Statement (.malformed5 x y n) := fun h => by
  have hn : n ≠ 0#4 := by simpa [Instr.wellFormed] using h
  simp [encode, decodeWord, hn]
theorem Laws.DecodeEncode.malformed9 (x y n : Nibble) : Laws.DecodeEncode.Statement (.malformed9 x y n) := fun h => by
  have hn : n ≠ 0#4 := by simpa [Instr.wellFormed] using h
  simp [encode, decodeWord, hn]

end Sys2Proof
end

