-- ==== Sys2Proof/Laws/Scheduler.lean ====
section
/-! SUPPORT. The scheduler: runs of the core unrolled by one step, the instruction period, and what is left of an update when the
timing is put aside. -/

namespace Sys2Proof.Machine

/-! ### Runs -/

theorem run_next_of (M : Host.Core) (k : Nat) (s t : M.State) (h : M.step s = .next t) : M.run (k + 1) s = M.run k t := by
  simp only [Host.Core.run, h]

theorem run_fault_of (M : Host.Core) (k : Nat) (s : M.State) (r : M.Fault) (h : M.step s = .fault r) :
    M.run (k + 1) s = .fault r := by
  simp only [Host.Core.run, h]

/-- A run goes on after a step that answers a next state. -/
theorem run_next (k : Nat) (s t : State) (h : step s = .next t) :
    Host.Core.run Sys2Proof.core (k + 1) s = Host.Core.run Sys2Proof.core k t := run_next_of Sys2Proof.core k s t h

/-- A run ends with the fault of its first step. -/
theorem run_fault (k : Nat) (s : State) (r : Fault) (h : step s = .fault r) :
    Host.Core.run Sys2Proof.core (k + 1) s = .fault r := run_fault_of Sys2Proof.core k s r h

/-! ### The instruction period (R155) -/

theorem ips_pos : (0 : Rat) < (Config.ips : Rat) := by
  unfold Config.ips
  positivity

theorem instrPeriod_pos : 0 < instrPeriod Config.ips := one_div_pos.mpr ips_pos

/-- Less than one period is left exactly when the budget is worth no engine step. -/
theorem lt_instrPeriod_iff (a : Rat) : a < instrPeriod Config.ips ↔ ⌊a * (Config.ips : Rat)⌋₊ = 0 := by
  rw [Nat.floor_eq_zero, instrPeriod, lt_div_iff₀ ips_pos]

/-- Paying one period takes one engine step off the budget. -/
theorem floor_sub_instrPeriod (a : Rat) :
    ⌊(a - instrPeriod Config.ips) * (Config.ips : Rat)⌋₊ = ⌊a * (Config.ips : Rat)⌋₊ - 1 := by
  have hp := ips_pos
  have h : (a - instrPeriod Config.ips) * (Config.ips : Rat) = a * Config.ips - 1 := by
    unfold instrPeriod
    field_simp
  rw [h, ← Nat.floor_sub_one]

/-! ### Timing put aside -/

variable (s : State)

theorem State.quiet_untimed : s.quiet.untimed = s.untimed.quiet := (rfl)
theorem State.payInstr_untimed (q : Rat) : (s.payInstr q).untimed = s.untimed := (rfl)
theorem State.payTick_untimed (q : Rat) : (s.payTick q).untimed = s.untimed := (rfl)
theorem State.setPhase_untimed (p : Phase) : (s.setPhase p).untimed = s.untimed := (rfl)
theorem State.elapse_untimed (now : Rat) : (s.elapse now).untimed = s.untimed := (rfl)
theorem State.close_untimed (tick : Bool) : (s.close tick).untimed = (s.untimed.close tick).untimed := by cases tick <;> rfl
theorem State.skipIf_untimed (c : Bool) : (s.skipIf c).untimed = s.untimed.skipIf c := by cases c <;> rfl
theorem State.skipIf_unscheduled (c : Bool) : (s.skipIf c).unscheduled = s.unscheduled.skipIf c := by cases c <;> rfl

/-- The states that agree without their scheduler are those that agree without their timing, but for `PAUSED` and the pending
calls. -/
theorem untimed_eq_iff (t : State) :
    s.untimed = t.untimed ↔ s.unscheduled = t.unscheduled ∧ s.paused = t.paused ∧ s.agenda = t.agenda := by
  obtain ⟨⟩ := s
  obtain ⟨⟩ := t
  simp only [State.unscheduled, State.untimed, State.mk.injEq]
  tauto

/-! ### The close of a scheduling step (R156) -/

theorem State.close_true : s.close true = s.tick.presentAudio.presentDisplay.setPhase .idle := (rfl)
theorem State.close_false : s.close false = s.presentDisplay.setPhase .idle := (rfl)

theorem State.closeTimed_tick (h : 1 / 60 ≤ s.accT) : s.closeTimed = (s.close true).payTick timerPeriod := if_pos h

theorem State.closeTimed_noTick (h : s.accT < 1 / 60) : s.closeTimed = s.close false := if_neg (not_le.mpr h)

/-! ### The close of a scheduling step, field by field (R156) -/

@[simp] theorem State.close_mem (tick : Bool) : (s.close tick).mem = s.mem := by cases tick <;> rfl
@[simp] theorem State.close_v (tick : Bool) : (s.close tick).v = s.v := by cases tick <;> rfl
@[simp] theorem State.close_i (tick : Bool) : (s.close tick).i = s.i := by cases tick <;> rfl
@[simp] theorem State.close_pc (tick : Bool) : (s.close tick).pc = s.pc := by cases tick <;> rfl
@[simp] theorem State.close_stack (tick : Bool) : (s.close tick).stack = s.stack := by cases tick <;> rfl
@[simp] theorem State.close_sp (tick : Bool) : (s.close tick).sp = s.sp := by cases tick <;> rfl
@[simp] theorem State.close_fb (tick : Bool) : (s.close tick).fb = s.fb := by cases tick <;> rfl
@[simp] theorem State.close_key (tick : Bool) : (s.close tick).key = s.key := by cases tick <;> rfl
@[simp] theorem State.close_ir (tick : Bool) : (s.close tick).ir = s.ir := by cases tick <;> rfl
@[simp] theorem State.close_kwValid (tick : Bool) : (s.close tick).kwValid = s.kwValid := by cases tick <;> rfl
@[simp] theorem State.close_kwKey (tick : Bool) : (s.close tick).kwKey = s.kwKey := by cases tick <;> rfl
@[simp] theorem State.close_halted (tick : Bool) : (s.close tick).halted = s.halted := by cases tick <;> rfl
@[simp] theorem State.close_faultCode (tick : Bool) : (s.close tick).faultCode = s.faultCode := by cases tick <;> rfl
@[simp] theorem State.close_faultOpcode (tick : Bool) : (s.close tick).faultOpcode = s.faultOpcode := by cases tick <;> rfl
@[simp] theorem State.close_faultPc (tick : Bool) : (s.close tick).faultPc = s.faultPc := by cases tick <;> rfl
@[simp] theorem State.close_accI (tick : Bool) : (s.close tick).accI = s.accI := by cases tick <;> rfl
@[simp] theorem State.close_lastT (tick : Bool) : (s.close tick).lastT = s.lastT := by cases tick <;> rfl
@[simp] theorem State.close_paused (tick : Bool) : (s.close tick).paused = s.paused := by cases tick <;> rfl
@[simp] theorem State.close_keyQueue (tick : Bool) : (s.close tick).keyQueue = s.keyQueue := by cases tick <;> rfl
@[simp] theorem State.close_agenda (tick : Bool) : (s.close tick).agenda = s.agenda := by cases tick <;> rfl
@[simp] theorem State.close_draws (tick : Bool) : (s.close tick).draws = s.draws := by cases tick <;> rfl
@[simp] theorem State.close_accT (tick : Bool) : (s.close tick).accT = s.accT := by cases tick <;> rfl
@[simp] theorem State.close_phase (tick : Bool) : (s.close tick).phase = .idle := (rfl)
@[simp] theorem State.close_dt (tick : Bool) : (s.close tick).dt = if tick then countDown s.dt else s.dt := by cases tick <;> rfl
@[simp] theorem State.close_st (tick : Bool) : (s.close tick).st = if tick then countDown s.st else s.st := by cases tick <;> rfl
@[simp] theorem State.close_reg (tick : Bool) (x : Nibble) : (s.close tick).reg x = s.reg x := by cases tick <;> rfl
@[simp] theorem State.close_pressed (tick : Bool) (k : Nibble) : (s.close tick).pressed k = s.pressed k := by cases tick <;> rfl

@[simp] theorem State.closeTimed_mem : s.closeTimed.mem = s.mem := by unfold State.closeTimed; split <;> simp
@[simp] theorem State.closeTimed_v : s.closeTimed.v = s.v := by unfold State.closeTimed; split <;> simp
@[simp] theorem State.closeTimed_i : s.closeTimed.i = s.i := by unfold State.closeTimed; split <;> simp
@[simp] theorem State.closeTimed_pc : s.closeTimed.pc = s.pc := by unfold State.closeTimed; split <;> simp
@[simp] theorem State.closeTimed_stack : s.closeTimed.stack = s.stack := by unfold State.closeTimed; split <;> simp
@[simp] theorem State.closeTimed_sp : s.closeTimed.sp = s.sp := by unfold State.closeTimed; split <;> simp
@[simp] theorem State.closeTimed_fb : s.closeTimed.fb = s.fb := by unfold State.closeTimed; split <;> simp
@[simp] theorem State.closeTimed_key : s.closeTimed.key = s.key := by unfold State.closeTimed; split <;> simp
@[simp] theorem State.closeTimed_ir : s.closeTimed.ir = s.ir := by unfold State.closeTimed; split <;> simp
@[simp] theorem State.closeTimed_kwValid : s.closeTimed.kwValid = s.kwValid := by unfold State.closeTimed; split <;> simp
@[simp] theorem State.closeTimed_kwKey : s.closeTimed.kwKey = s.kwKey := by unfold State.closeTimed; split <;> simp
@[simp] theorem State.closeTimed_halted : s.closeTimed.halted = s.halted := by unfold State.closeTimed; split <;> simp
@[simp] theorem State.closeTimed_faultCode : s.closeTimed.faultCode = s.faultCode := by unfold State.closeTimed; split <;> simp
@[simp] theorem State.closeTimed_faultOpcode : s.closeTimed.faultOpcode = s.faultOpcode := by unfold State.closeTimed; split <;> simp
@[simp] theorem State.closeTimed_faultPc : s.closeTimed.faultPc = s.faultPc := by unfold State.closeTimed; split <;> simp
@[simp] theorem State.closeTimed_accI : s.closeTimed.accI = s.accI := by unfold State.closeTimed; split <;> simp
@[simp] theorem State.closeTimed_lastT : s.closeTimed.lastT = s.lastT := by unfold State.closeTimed; split <;> simp
@[simp] theorem State.closeTimed_paused : s.closeTimed.paused = s.paused := by unfold State.closeTimed; split <;> simp
@[simp] theorem State.closeTimed_keyQueue : s.closeTimed.keyQueue = s.keyQueue := by unfold State.closeTimed; split <;> simp
@[simp] theorem State.closeTimed_agenda : s.closeTimed.agenda = s.agenda := by unfold State.closeTimed; split <;> simp
@[simp] theorem State.closeTimed_draws : s.closeTimed.draws = s.draws := by unfold State.closeTimed; split <;> simp
@[simp] theorem State.closeTimed_phase : s.closeTimed.phase = .idle := by unfold State.closeTimed; split <;> simp
@[simp] theorem State.closeTimed_reg (x : Nibble) : s.closeTimed.reg x = s.reg x := by unfold State.closeTimed; split <;> simp
@[simp] theorem State.closeTimed_pressed (k : Nibble) : s.closeTimed.pressed k = s.pressed k := by
  unfold State.closeTimed; split <;> simp

/-! ### The opening of a scheduling step or block (R156, R157, R164) -/

theorem State.openTimed_running (now : Rat) (h : s.paused = false) :
    s.openTimed now = (s.drainKeys.elapse now).setPhase .timed := if_neg (by simp [h])

theorem State.openTimed_paused (now : Rat) (h : s.paused = true) : s.openTimed now = s.drainKeys.presentDisplay := if_pos h

theorem State.openBlock_running (keys : List KeyEvent) (steps : Nat) (tick : Bool) (h : s.paused = false) :
    s.openBlock keys steps tick = (s.changeKeys keys).setPhase (.block steps tick) := if_neg (by simp [h])

theorem State.openBlock_paused (keys : List KeyEvent) (steps : Nat) (tick : Bool) (h : s.paused = true) :
    s.openBlock keys steps tick = (s.changeKeys keys).presentDisplay := if_pos h

end Sys2Proof.Machine
end

