-- ==== Sys2Proof/Tests/Slice0.lean ====
section
/-! SUPPORT. The model's own tests: ill-formed terms, words written out from the spec's encodings, one step of each instruction from
the vectors of 95_test_vectors.md, and for every statement with hypotheses a state and operands that meet them. -/

namespace Sys2Proof.Tests

open Sys2Proof Sys2Proof.Machine

/-! ### Ill-formed terms (R67) -/

theorem test_illformed_malformed5 : (Instr.malformed5 0x3#4 0xA#4 0x0#4).wellFormed = false := by decide
theorem test_illformed_malformed9 : (Instr.malformed9 0x3#4 0xA#4 0x0#4).wellFormed = false := by decide

/-! ### Words written out from the encodings of spec/opcode_table.json -/

/-- 44_display.md: the formats of R62 with `nnn` = 101000111100, `x` = 0011, `y` = 1010, `n` = 0111, `nn` = 10010110. -/
theorem test_decode_display :
    decodeWord 0b0000_0000_1110_0000#16 = .ok .cls ∧
    decodeWord 0b1101_0011_1010_0111#16 = .ok (.drw 0x3#4 0xA#4 0x7#4) := by decide

/-- 40_flow.md: the formats of R62 with `nnn` = 101000111100, `x` = 0011, `y` = 1010, `n` = 0111, `nn` = 10010110. -/
theorem test_decode_flow :
    decodeWord 0b0000_0000_1110_1110#16 = .ok .ret ∧
    decodeWord 0b0001_1010_0011_1100#16 = .ok (.jp 0xA3C#12) ∧
    decodeWord 0b0010_1010_0011_1100#16 = .ok (.call 0xA3C#12) ∧
    decodeWord 0b1011_1010_0011_1100#16 = .ok (.jpV0 0xA3C#12) := by decide

/-- 41_skip.md: the formats of R62 with `nnn` = 101000111100, `x` = 0011, `y` = 1010, `n` = 0111, `nn` = 10010110. -/
theorem test_decode_skip :
    decodeWord 0b0011_0011_1001_0110#16 = .ok (.seImm 0x3#4 0x96#8) ∧
    decodeWord 0b0100_0011_1001_0110#16 = .ok (.sneImm 0x3#4 0x96#8) ∧
    decodeWord 0b0101_0011_1010_0000#16 = .ok (.seReg 0x3#4 0xA#4) ∧
    decodeWord 0b1001_0011_1010_0000#16 = .ok (.sneReg 0x3#4 0xA#4) ∧
    decodeWord 0b0101_0011_1010_0111#16 = .ok (.malformed5 0x3#4 0xA#4 0x7#4) ∧
    decodeWord 0b1001_0011_1010_0111#16 = .ok (.malformed9 0x3#4 0xA#4 0x7#4) := by decide

/-- 42_immediate.md: the formats of R62 with `nnn` = 101000111100, `x` = 0011, `y` = 1010, `n` = 0111, `nn` = 10010110. -/
theorem test_decode_immediate :
    decodeWord 0b0110_0011_1001_0110#16 = .ok (.ldImm 0x3#4 0x96#8) ∧
    decodeWord 0b0111_0011_1001_0110#16 = .ok (.addImm 0x3#4 0x96#8) ∧
    decodeWord 0b1010_1010_0011_1100#16 = .ok (.ldI 0xA3C#12) ∧
    decodeWord 0b1100_0011_1001_0110#16 = .ok (.rnd 0x3#4 0x96#8) := by decide

/-- 43_alu.md: the formats of R62 with `nnn` = 101000111100, `x` = 0011, `y` = 1010, `n` = 0111, `nn` = 10010110. -/
theorem test_decode_alu :
    decodeWord 0b1000_0011_1010_0000#16 = .ok (.ldReg 0x3#4 0xA#4) ∧
    decodeWord 0b1000_0011_1010_0001#16 = .ok (.orReg 0x3#4 0xA#4) ∧
    decodeWord 0b1000_0011_1010_0010#16 = .ok (.andReg 0x3#4 0xA#4) ∧
    decodeWord 0b1000_0011_1010_0011#16 = .ok (.xorReg 0x3#4 0xA#4) ∧
    decodeWord 0b1000_0011_1010_0100#16 = .ok (.addReg 0x3#4 0xA#4) ∧
    decodeWord 0b1000_0011_1010_0101#16 = .ok (.sub 0x3#4 0xA#4) ∧
    decodeWord 0b1000_0011_1010_0110#16 = .ok (.shr 0x3#4 0xA#4) ∧
    decodeWord 0b1000_0011_1010_0111#16 = .ok (.subn 0x3#4 0xA#4) ∧
    decodeWord 0b1000_0011_1010_1110#16 = .ok (.shl 0x3#4 0xA#4) := by decide

/-- 45_keypad.md: the formats of R62 with `nnn` = 101000111100, `x` = 0011, `y` = 1010, `n` = 0111, `nn` = 10010110. -/
theorem test_decode_keypad :
    decodeWord 0b1110_0011_1001_1110#16 = .ok (.skp 0x3#4) ∧
    decodeWord 0b1110_0011_1010_0001#16 = .ok (.sknp 0x3#4) ∧
    decodeWord 0b1111_0011_0000_1010#16 = .ok (.ldVxK 0x3#4) := by decide

/-- 46_timer_index.md: the formats of R62 with `nnn` = 101000111100, `x` = 0011, `y` = 1010, `n` = 0111, `nn` = 10010110. -/
theorem test_decode_timer_index :
    decodeWord 0b1111_0011_0000_0111#16 = .ok (.ldVxDt 0x3#4) ∧
    decodeWord 0b1111_0011_0001_0101#16 = .ok (.ldDtVx 0x3#4) ∧
    decodeWord 0b1111_0011_0001_1000#16 = .ok (.ldStVx 0x3#4) ∧
    decodeWord 0b1111_0011_0001_1110#16 = .ok (.addI 0x3#4) ∧
    decodeWord 0b1111_0011_0010_1001#16 = .ok (.ldF 0x3#4) := by decide

/-- 47_memory_ops.md: the formats of R62 with `nnn` = 101000111100, `x` = 0011, `y` = 1010, `n` = 0111, `nn` = 10010110. -/
theorem test_decode_memory_ops :
    decodeWord 0b1111_0011_0011_0011#16 = .ok (.bcd 0x3#4) ∧
    decodeWord 0b1111_0011_0101_0101#16 = .ok (.stRegs 0x3#4) ∧
    decodeWord 0b1111_0011_0110_0101#16 = .ok (.ldRegs 0x3#4) := by decide

/-- V-D6 to V-D9: illegal words at the edges of each group. -/
theorem test_decode_illegal :
    [0x0000#16, 0x01E0#16, 0x00E1#16, 0x00FF#16, 0x0FFF#16, 0x8008#16, 0x8129#16, 0x812F#16, 0xE000#16, 0xE09F#16, 0xE19D#16,
      0xF000#16, 0xF01F#16, 0xF075#16, 0xF085#16, 0xFFFF#16].all
      (fun w => decide (decodeWord w = .error (.illegalOpcode w))) = true := by decide

/-- R60: one byte is no instruction. -/
theorem test_decode_truncated : decode [0x12#8] = .error .truncated := by decide

/-! ### One step -/

/-- One step from the reset state with `setup` applied and the word at `PC`. -/
def after (w : Nat) (setup : State → State) (check : State → Bool) : Bool :=
  match step ((setup State.reset).withFetchWord 16 w) with
  | .next t => check t
  | .fault _ => false
  | .refused _ => false

/-- R111: a lit cell is cleared. -/
theorem test_cls :
    after 0x00E0 (fun s => s.setFb (s.fb.xorCell 5 3 true))
      (fun t => t.fb == State.reset.fb && t.pc == 0x0202#16) = true := by decide

/-- V-F13. -/
theorem test_ret :
    after 0x00EE (fun s => (s.push 0x0206#16).getD s)
      (fun t => t.pc == 0x0206#16 && t.sp.val == 0 && t.stack[0] == 0x0206#16) = true := by decide

/-- V-F10. -/
theorem test_ret_underflow :
    after 0x00EE (fun s => s)
      (fun t => t.halted && t.faultCode.code == 2#3 && t.faultOpcode == 0x00EE#16 && t.faultPc == 0x0200#16 &&
        t.pc == 0x0202#16) = true := by decide

/-- V-F1. -/
theorem test_jp :
    after 0x1204 (fun s => s)
      (fun t => t.pc == 0x0204#16) = true := by decide

/-- V-F3, first step. -/
theorem test_jp_top :
    after 0x1FFF (fun s => s)
      (fun t => t.pc == 0x0FFF#16 && t.halted == false) = true := by decide

/-- V-F9. -/
theorem test_call :
    after 0x220A (fun s => s)
      (fun t => t.pc == 0x020A#16 && t.stack[0] == 0x0202#16 && t.sp.val == 1) = true := by decide

/-- V-F11, the last step. -/
theorem test_call_overflow :
    after 0x2200 (fun s => { s with sp := 16 })
      (fun t => t.halted && t.faultCode.code == 1#3 && t.faultOpcode == 0x2200#16 && t.faultPc == 0x0200#16 &&
        t.pc == 0x0202#16 && t.sp.val == 16) = true := by decide

/-- V-K3s. -/
theorem test_seImm_taken :
    after 0x3F01 (fun s => (s.setReg 0xF#4 0x01#8))
      (fun t => t.pc == 0x0204#16) = true := by decide

/-- V-K2s. -/
theorem test_seImm_not_taken :
    after 0x3100 (fun s => (s.setReg 0x1#4 0x04#8))
      (fun t => t.pc == 0x0202#16) = true := by decide

/-- V-K4s. -/
theorem test_sneImm_taken :
    after 0x4211 (fun s => (s.setReg 0x2#4 0x10#8))
      (fun t => t.pc == 0x0204#16) = true := by decide

/-- V-K5s. -/
theorem test_sneImm_not_taken :
    after 0x4211 (fun s => (s.setReg 0x2#4 0x11#8))
      (fun t => t.pc == 0x0202#16) = true := by decide

/-- V-K6s. -/
theorem test_seReg_taken :
    after 0x5340 (fun s => ((s.setReg 0x3#4 0x7F#8).setReg 0x4#4 0x7F#8))
      (fun t => t.pc == 0x0204#16) = true := by decide

/-- V-K7s. -/
theorem test_seReg_not_taken :
    after 0x5340 (fun s => ((s.setReg 0x3#4 0x7F#8).setReg 0x4#4 0x7E#8))
      (fun t => t.pc == 0x0202#16) = true := by decide

/-- V-K9s. -/
theorem test_sneReg_taken :
    after 0x9340 (fun s => ((s.setReg 0x3#4 0x01#8).setReg 0x4#4 0x02#8))
      (fun t => t.pc == 0x0204#16) = true := by decide

/-- V-K10s. -/
theorem test_sneReg_not_taken :
    after 0x9340 (fun s => ((s.setReg 0x3#4 0x02#8).setReg 0x4#4 0x02#8))
      (fun t => t.pc == 0x0202#16) = true := by decide

/-- V-K12s: ignored, with the diagnostic. -/
theorem test_malformed5 :
    after 0x5121 (fun s => ((s.setReg 0x1#4 0x05#8).setReg 0x2#4 0x05#8))
      (fun t => t.pc == 0x0202#16 && t.out.diag == some (0x5121#16, 0x0200#16)) = true := by decide

/-- V-K13s: ignored. -/
theorem test_malformed9 :
    after 0x9121 (fun s => ((s.setReg 0x1#4 0x05#8).setReg 0x2#4 0x06#8))
      (fun t => t.pc == 0x0202#16 && t.out.diag == some (0x9121#16, 0x0200#16)) = true := by decide

/-- V-I2. -/
theorem test_ldImm :
    after 0x6FAB (fun s => s)
      (fun t => t.reg 0xF#4 == 0xAB#8) = true := by decide

/-- V-I3. -/
theorem test_addImm_wraps :
    after 0x7101 (fun s => ((s.setReg 0x1#4 0xFF#8).setReg 0xF#4 0x01#8))
      (fun t => t.reg 0x1#4 == 0x00#8 && t.reg 0xF#4 == 0x01#8) = true := by decide

/-- V-I5. -/
theorem test_addImm_flag_register :
    after 0x7F01 (fun s => (s.setReg 0xF#4 0xFF#8))
      (fun t => t.reg 0xF#4 == 0x00#8) = true := by decide

/-- V-I8. -/
theorem test_ldI :
    after 0xAFFF (fun s => s.setI 0xF123#16)
      (fun t => t.i == 0x0FFF#16) = true := by decide

/-- V-F8: V[0], not V[x]. -/
theorem test_jpV0 :
    after 0xB300 (fun s => ((s.setReg 0x0#4 0x04#8).setReg 0x3#4 0x40#8))
      (fun t => t.pc == 0x0304#16) = true := by decide

/-- V-F6. -/
theorem test_jpV0_not_reduced :
    after 0xBFFF (fun s => (s.setReg 0x0#4 0xFF#8))
      (fun t => t.pc == 0x10FE#16) = true := by decide

/-- V-I10: 0 for every draw. -/
theorem test_rnd_mask_zero :
    after 0xC200 (fun s => (s.setReg 0x2#4 0x55#8))
      (fun t => t.draws == 1) = true := by decide

/-- V-A1. -/
theorem test_ldReg :
    after 0x8120 (fun s => ((s.setReg 0x1#4 0xAA#8).setReg 0x2#4 0x3C#8))
      (fun t => t.reg 0x1#4 == 0x3C#8 && t.reg 0xF#4 == 0x00#8) = true := by decide

/-- V-A4. -/
theorem test_or :
    after 0x81F1 (fun s => ((s.setReg 0x1#4 0x10#8).setReg 0xF#4 0x01#8))
      (fun t => t.reg 0x1#4 == 0x11#8 && t.reg 0xF#4 == 0x00#8) = true := by decide

/-- V-A3. -/
theorem test_or_flag_register :
    after 0x8F21 (fun s => ((s.setReg 0xF#4 0x81#8).setReg 0x2#4 0x02#8))
      (fun t => t.reg 0xF#4 == 0x00#8) = true := by decide

/-- V-A5. -/
theorem test_and :
    after 0x8122 (fun s => (((s.setReg 0x1#4 0xF5#8).setReg 0x2#4 0x3C#8).setReg 0xF#4 0x01#8))
      (fun t => t.reg 0x1#4 == 0x34#8 && t.reg 0xF#4 == 0x00#8) = true := by decide

/-- V-A7. -/
theorem test_xor :
    after 0x8123 (fun s => (((s.setReg 0x1#4 0xFF#8).setReg 0x2#4 0x0F#8).setReg 0xF#4 0x01#8))
      (fun t => t.reg 0x1#4 == 0xF0#8 && t.reg 0xF#4 == 0x00#8) = true := by decide

/-- V-A11. -/
theorem test_addReg :
    after 0x8124 (fun s => ((s.setReg 0x1#4 0xFF#8).setReg 0x2#4 0xFF#8))
      (fun t => t.reg 0x1#4 == 0xFE#8 && t.reg 0xF#4 == 0x01#8) = true := by decide

/-- V-A15. -/
theorem test_addReg_flag_register :
    after 0x8F14 (fun s => ((s.setReg 0xF#4 0x01#8).setReg 0x1#4 0x02#8))
      (fun t => t.reg 0xF#4 == 0x00#8) = true := by decide

/-- V-A20. -/
theorem test_sub_borrow :
    after 0x8125 (fun s => (((s.setReg 0x1#4 0x00#8).setReg 0x2#4 0x01#8).setReg 0xF#4 0x01#8))
      (fun t => t.reg 0x1#4 == 0xFF#8 && t.reg 0xF#4 == 0x00#8) = true := by decide

/-- V-A19. -/
theorem test_sub_equal :
    after 0x8125 (fun s => ((s.setReg 0x1#4 0x33#8).setReg 0x2#4 0x33#8))
      (fun t => t.reg 0x1#4 == 0x00#8 && t.reg 0xF#4 == 0x01#8) = true := by decide

/-- V-A24. -/
theorem test_shr_source_is_y :
    after 0x8126 (fun s => ((s.setReg 0x1#4 0xAA#8).setReg 0x2#4 0x05#8))
      (fun t => t.reg 0x1#4 == 0x02#8 && t.reg 0x2#4 == 0x05#8 && t.reg 0xF#4 == 0x01#8) = true := by decide

/-- V-A30. -/
theorem test_shr_flag_register :
    after 0x8F26 (fun s => ((s.setReg 0x2#4 0x04#8).setReg 0xF#4 0x01#8))
      (fun t => t.reg 0xF#4 == 0x00#8) = true := by decide

/-- V-A38. -/
theorem test_subn_borrow :
    after 0x8127 (fun s => (((s.setReg 0x1#4 0x01#8).setReg 0x2#4 0x00#8).setReg 0xF#4 0x01#8))
      (fun t => t.reg 0x1#4 == 0xFF#8 && t.reg 0xF#4 == 0x00#8) = true := by decide

/-- V-A37. -/
theorem test_subn_zero_minuend :
    after 0x8127 (fun s => ((s.setReg 0x1#4 0x00#8).setReg 0x2#4 0x09#8))
      (fun t => t.reg 0x1#4 == 0x09#8 && t.reg 0xF#4 == 0x01#8) = true := by decide

/-- V-A41. -/
theorem test_shl_source_is_y :
    after 0x812E (fun s => (s.setReg 0x2#4 0x81#8))
      (fun t => t.reg 0x1#4 == 0x02#8 && t.reg 0x2#4 == 0x81#8 && t.reg 0xF#4 == 0x01#8) = true := by decide

/-- V-A47. -/
theorem test_shl_flag_source :
    after 0x81FE (fun s => (s.setReg 0xF#4 0x01#8))
      (fun t => t.reg 0x1#4 == 0x02#8 && t.reg 0xF#4 == 0x00#8) = true := by decide

/-- Program P3, the first draw. -/
theorem test_drw_clips :
    after 0xD012 (fun s => ((s.setReg 0x0#4 0x3E#8).setReg 0x1#4 0x1F#8).setI 0x020C#16 |>.setMem (Memory.writeFrom 0x020C#16 0 [0xC0#8, 0xFF#8] s.mem))
      (fun t => t.fb.cell 62 31 && t.fb.cell 63 31 && (t.fb.cell 0 31 == false) && (t.fb.cell 62 0 == false) &&
        t.reg 0xF#4 == 0x00#8) = true := by decide

/-- Program P3, the second draw. -/
theorem test_drw_collides :
    after 0xD012 (fun s => (((s.setReg 0x0#4 0x3E#8).setReg 0x1#4 0x1F#8).setI 0x020C#16 |>.setMem (Memory.writeFrom 0x020C#16 0 [0xC0#8, 0xFF#8] s.mem)).setFb
        ((s.fb.xorCell 62 31 true).xorCell 63 31 true))
      (fun t => t.fb == State.reset.fb && t.reg 0xF#4 == 0x01#8) = true := by decide

/-- V-K4. -/
theorem test_skp_low_nibble :
    after 0xE39E (fun s => { (s.setReg 0x3#4 0xFA#8) with key := s.key.set 10 true })
      (fun t => t.pc == 0x0204#16) = true := by decide

/-- V-K2. -/
theorem test_skp_not_pressed :
    after 0xE39E (fun s => (s.setReg 0x3#4 0x0A#8))
      (fun t => t.pc == 0x0202#16) = true := by decide

/-- V-K5. -/
theorem test_sknp_taken :
    after 0xE3A1 (fun s => (s.setReg 0x3#4 0x0A#8))
      (fun t => t.pc == 0x0204#16) = true := by decide

/-- V-K7. -/
theorem test_sknp_pressed :
    after 0xE3A1 (fun s => { (s.setReg 0x3#4 0xF0#8) with key := s.key.set 0 true })
      (fun t => t.pc == 0x0202#16) = true := by decide

/-- V-T1. -/
theorem test_ldVxDt :
    after 0xF107 (fun s => s.setDt 0x3C#8)
      (fun t => t.reg 0x1#4 == 0x3C#8 && t.dt == 0x3C#8) = true := by decide

/-- V-K8, line 3. -/
theorem test_ldVxK_chooses_least :
    after 0xF00A (fun s => { s with key := (s.key.set 3 true).set 7 true })
      (fun t => t.pc == 0x0200#16 && t.kwValid && t.kwKey == 0x3#4 && t.reg 0x0#4 == 0x00#8) = true := by decide

/-- V-K8, line 5. -/
theorem test_ldVxK_stores_at_release :
    after 0xF00A (fun s => { (s.holdKey 0x3#4) with key := (s.key.set 1 true).set 7 true })
      (fun t => t.pc == 0x0202#16 && t.kwValid == false && t.reg 0x0#4 == 0x03#8) = true := by decide

/-- V-T2. -/
theorem test_ldDtVx :
    after 0xF215 (fun s => (s.setReg 0x2#4 0x3C#8))
      (fun t => t.dt == 0x3C#8 && t.st == 0x00#8) = true := by decide

/-- V-T3. -/
theorem test_ldStVx :
    after 0xF218 (fun s => (s.setReg 0x2#4 0x08#8))
      (fun t => t.st == 0x08#8 && t.dt == 0x00#8) = true := by decide

/-- V-T4. -/
theorem test_addI_no_flag :
    after 0xF11E (fun s => ((s.setReg 0x1#4 0x05#8).setReg 0xF#4 0x07#8).setI 0x0FFE#16)
      (fun t => t.i == 0x1003#16 && t.reg 0xF#4 == 0x07#8) = true := by decide

/-- V-T5. -/
theorem test_addI_wraps :
    after 0xF11E (fun s => (s.setReg 0x1#4 0x01#8).setI 0xFFFF#16)
      (fun t => t.i == 0x0000#16) = true := by decide

/-- V-T7. -/
theorem test_ldF :
    after 0xF029 (fun s => (s.setReg 0x0#4 0x0F#8))
      (fun t => t.i == 0x009B#16) = true := by decide

/-- V-T8. -/
theorem test_ldF_no_mask :
    after 0xF029 (fun s => (s.setReg 0x0#4 0xFF#8))
      (fun t => t.i == 0x054B#16) = true := by decide

/-- V-M2. -/
theorem test_bcd_wraps :
    after 0xF033 (fun s => (s.setReg 0x0#4 0xFF#8).setI 0x0FFF#16)
      (fun t => t.mem.read 0xFFF#12 == 0x02#8 && t.mem.read 0x000#12 == 0x05#8 && t.mem.read 0x001#12 == 0x05#8 &&
        t.i == 0x0FFF#16) = true := by decide

/-- V-M1, 254. -/
theorem test_bcd :
    after 0xF033 (fun s => (s.setReg 0x0#4 0xFE#8).setI 0x0300#16)
      (fun t => t.mem.read 0x300#12 == 0x02#8 && t.mem.read 0x301#12 == 0x05#8 && t.mem.read 0x302#12 == 0x04#8) = true := by decide

/-- V-M3. -/
theorem test_stRegs_wraps :
    after 0xF355 (fun s => ((((s.setReg 0x0#4 0x11#8).setReg 0x1#4 0x22#8).setReg 0x2#4 0x33#8).setReg 0x3#4 0x44#8).setI 0x0FFE#16)
      (fun t => t.mem.read 0xFFE#12 == 0x11#8 && t.mem.read 0xFFF#12 == 0x22#8 && t.mem.read 0x000#12 == 0x33#8 &&
        t.mem.read 0x001#12 == 0x44#8 && t.mem.read 0x002#12 == 0x00#8 && t.i == 0x0FFE#16) = true := by decide

/-- V-M5. -/
theorem test_stRegs_one :
    after 0xF055 (fun s => ((s.setReg 0x0#4 0x99#8).setReg 0x1#4 0x88#8).setI 0x0400#16)
      (fun t => t.mem.read 0x400#12 == 0x99#8 && t.mem.read 0x401#12 == 0x00#8) = true := by decide

/-- V-M7, the first five glyph bytes (log entry 1). -/
theorem test_ldRegs_font :
    after 0xF465 (fun s => s.setI 0x0050#16)
      (fun t => t.reg 0x0#4 == 0xF0#8 && t.reg 0x1#4 == 0x90#8 && t.reg 0x2#4 == 0x90#8 && t.reg 0x3#4 == 0x90#8 &&
        t.reg 0x4#4 == 0xF0#8 && t.reg 0x5#4 == 0x00#8) = true := by decide

/-- V-M8. -/
theorem test_ldRegs_wraps :
    after 0xF165 (fun s => (s.setI 0x1FFF#16).setMem (Memory.writeFrom 0x0FFF#16 0 [0xAB#8, 0xCD#8] s.mem))
      (fun t => t.reg 0x0#4 == 0xAB#8 && t.reg 0x1#4 == 0xCD#8 && t.i == 0x1FFF#16) = true := by decide

/-- V-D7: 0x812F. -/
theorem test_illegal_word :
    after 0x812F (fun s => s)
      (fun t => t.halted && t.faultCode.code == 3#3 && t.faultOpcode == 0x812F#16 && t.faultPc == 0x0200#16 &&
        t.pc == 0x0202#16 && t.ir == 0x812F#16) = true := by decide

/-- V-X1. -/
theorem test_fetch_out_of_range :
    after 0x6001 (fun s => s.setPc 0x0FFF#16)
      (fun t => t.halted && t.faultCode.code == 4#3 && t.faultOpcode == 0x0000#16 && t.faultPc == 0x0FFF#16 &&
        t.pc == 0x0FFF#16 && t.ir == 0x0000#16) = true := by decide

/-- V-I10: the mask 0x00 gives 0 for every draw. -/
theorem test_rnd_any_draw (s : State) : ∀ t, exec (.rnd 0x2#4 0x00#8) s = .next t → t.reg 0x2#4 = 0x00#8 := by
  intro t h
  cases h
  simp [State.reg_setReg]

/-- V-S0: the timer tick. -/
theorem test_tick :
    (((State.reset.setDt 0x02#8).tick.dt, (State.reset.setDt 0x02#8).tick.st),
      (((State.reset.setDt 0xFF#8).setSt 0x01#8).tick.dt, ((State.reset.setDt 0xFF#8).setSt 0x01#8).tick.st)) =
      ((0x01#8, 0x00#8), (0xFE#8, 0x00#8)) := by decide

/-- V-X5: after a reset with an empty image the first word is illegal. -/
theorem test_reset_then_illegal :
    (match step State.reset with
      | .next t => t.halted && t.faultCode.code == 3#3 && t.faultOpcode == 0x0000#16 && t.faultPc == 0x0200#16
      | .fault _ => false
      | .refused _ => false) = true := by decide

/-- V-X8: the font at reset (log entry 1). -/
theorem test_reset_font :
    ([0x04F, 0x050, 0x051, 0x09E, 0x09F, 0x0A0, 0x1FF].map fun a => State.reset.mem.read (BitVec.ofNat 12 a)) =
      [0x00#8, 0xF0#8, 0x90#8, 0x80#8, 0x80#8, 0x00#8, 0x00#8] := by decide

/-! ### Witnesses: the hypotheses of each statement can be met -/

/-- The reset state with a word at `PC`. -/
def holding (w : Nat) : State := State.reset.withFetchWord 16 w

/-- The reset state with one call pending. -/
def called (c : Call) : State := State.reset.setAgenda [c]

theorem witness_DecodeEncodeRoundTrip :
    (Instr.malformed5 0xF#4 0xF#4 0x1#4).wellFormed = true ∧ (Instr.drw 0xF#4 0x0#4 0xF#4).wellFormed = true := by decide

theorem witness_EncodeDecodeRoundTrip : decodeWord 0xFF65#16 = .ok (.ldRegs 0xF#4) := by decide

theorem witness_OpcodeMapSelectsExactly : (⟨"LD_REGS", 0xF0FF#16, 0xF065#16⟩ : OpcodeRow) ∈ opcodeMap := by decide

theorem witness_StepRunsDecodedInstruction :
    EngineTurn (holding 0x6A42) ∧ (holding 0x6A42).pc.toNat ≤ 0x0FFE ∧
    (holding 0x6A42).mem.read (BitVec.ofNat 12 (holding 0x6A42).pc.toNat) = 0x6A#8 ∧
    (holding 0x6A42).mem.read (BitVec.ofNat 12 ((holding 0x6A42).pc.toNat + 1)) = 0x42#8 ∧
    decodeWord (0x6A#8 ++ 0x42#8) = .ok (.ldImm 0xA#4 0x42#8) := by decide

/-- The last address that can be fetched. -/
theorem witness_StepRunsDecodedInstruction_top :
    EngineTurn ((State.reset.setPc 0x0FFE#16).withFetchWord 16 0x6001) ∧
    ((State.reset.setPc 0x0FFE#16).withFetchWord 16 0x6001).pc.toNat ≤ 0x0FFE ∧
    decodeWord (((State.reset.setPc 0x0FFE#16).withFetchWord 16 0x6001).mem.fetchWord 0x0FFE#16) =
      .ok (.ldImm 0x0#4 0x01#8) := by decide

theorem witness_ScheduledStepRunsDecodedInstruction_timed :
    ∃ s : State, s.halted = false ∧ s.pc.toNat ≤ 0x0FFE ∧ decodeWord (s.mem.fetchWord s.pc) = .ok (.jp 0x200#12) ∧
      s.phase = .timed ∧ instrPeriod Config.ips ≤ s.accI :=
  ⟨{ holding 0x1200 with phase := .timed, accI := instrPeriod Config.ips }, by decide, by decide, by decide, rfl, le_refl _⟩

theorem witness_ScheduledStepRunsDecodedInstruction_block :
    ∃ s : State, s.halted = false ∧ s.pc.toNat ≤ 0x0FFE ∧ decodeWord (s.mem.fetchWord s.pc) = .ok (.jp 0x200#12) ∧
      s.phase = .block (0 + 1) true :=
  ⟨(holding 0x1200).setPhase (.block 1 true), by decide, by decide, by decide, rfl⟩

theorem witness_StoredWordIsRunNext :
    (State.reset.setPc 0x0FFE#16).mem.wf ∧ (State.reset.setPc 0x0FFE#16).pc.toNat ≤ 0x0FFE ∧
    (Instr.malformed9 0x0#4 0x0#4 0xF#4).wellFormed = true := by decide

/-- A machine inside a timed scheduling step with exactly one instruction period of budget left. -/
def withOnePeriod (s : State) : State := { s with phase := .timed, accI := instrPeriod Config.ips }

/-- The three places in which an engine step is made. -/
theorem witness_EngineMove (s : State) (h : EngineTurn s) :
    EngineMove s s.quiet ∧
    EngineMove (withOnePeriod s) ((withOnePeriod s).quiet.payInstr (instrPeriod Config.ips)) ∧
    EngineMove (s.setPhase (.block 1 true)) ((s.setPhase (.block 1 true)).quiet.setPhase (.block 0 true)) :=
  ⟨.free h, .timed rfl h.2.2.1 (le_refl _), .block 0 true rfl h.2.2.1⟩

theorem witness_FetchOutOfRangeFaults :
    EngineTurn (State.reset.setPc 0x0FFF#16) ∧ 0x0FFE < (State.reset.setPc 0x0FFF#16).pc.toNat ∧
    0x0FFE < (withOnePeriod (State.reset.setPc 0x0FFF#16)).pc.toNat ∧
    0x0FFE < ((State.reset.setPc 0x0FFF#16).setPhase (.block 1 true)).pc.toNat :=
  ⟨by decide, by decide, by decide, by decide⟩

theorem witness_IllegalOpcodeFaults :
    EngineTurn (holding 0xFFFF) ∧
    ∀ s ∈ [holding 0xFFFF, withOnePeriod (holding 0xFFFF), (holding 0xFFFF).setPhase (.block 1 true)],
      s.pc.toNat ≤ 0x0FFE ∧ decodeWord (s.mem.fetchWord s.pc) = .error (.illegalOpcode (s.mem.fetchWord s.pc)) := by
  refine ⟨by decide, fun s hs => ?_⟩
  simp only [List.mem_cons, List.not_mem_nil, or_false] at hs
  rcases hs with rfl | rfl | rfl <;> exact ⟨by decide, by decide⟩

/-- The state that V-F10 leaves. -/
def halted : State := State.reset.raise .stackUnderflow 0x00EE#16 0x0200#16

theorem witness_HaltedUntilReset_stuck : halted.halted = true ∧ halted.phase = .idle ∧ halted.agenda = [] := by decide

theorem witness_HaltedUntilReset_ends : (halted.setPhase .timed).halted = true ∧ (halted.setPhase .timed).phase ≠ .idle := by
  decide

theorem witness_HaltedUntilReset_call :
    (halted.setAgenda [.pause]).halted = true ∧ (∃ t, step (halted.setAgenda [.pause]) = .next t) ∧
    ∀ image now rest, (halted.setAgenda [.pause]).agenda ≠ .reset image now :: rest :=
  ⟨by decide, ⟨_, rfl⟩, by intro image now rest h; cases h⟩

theorem witness_ReturnPopsOrUnderflows :
    (∃ s : State, ∃ j : Fin 16, s.sp.val = j.val + 1 ∧ j.val = 0) ∧
    (∃ s : State, ∃ j : Fin 16, s.sp.val = j.val + 1 ∧ j.val = 15) ∧ State.reset.sp.val = 0 :=
  ⟨⟨{ State.reset with sp := 1 }, 0, rfl, rfl⟩, ⟨{ State.reset with sp := 16 }, 15, rfl, rfl⟩, rfl⟩

theorem witness_CallPushesOrOverflows :
    (∃ s : State, ∃ j : Fin 16, s.sp.val = j.val ∧ j.val = 0) ∧
    (∃ s : State, ∃ j : Fin 16, s.sp.val = j.val ∧ j.val = 15) ∧ (∃ s : State, s.sp.val = 16) :=
  ⟨⟨State.reset, 0, rfl, rfl⟩, ⟨{ State.reset with sp := 15 }, 15, rfl, rfl⟩, ⟨{ State.reset with sp := 16 }, rfl⟩⟩

theorem witness_CallThenReturnRoundTrip :
    ∃ s t : State, s.sp.val < 16 ∧ exec (.call 0x20A#12) s = .next t ∧ t.sp = t.sp ∧ t.stack = t.stack :=
  ⟨{ State.reset with sp := 15 }, _, by decide, rfl, rfl, rfl⟩

theorem witness_RegisterSkips :
    (State.reset.setReg 0x1#4 0xFF#8).reg 0x1#4 = 0xFF#8 ∧ (State.reset.setReg 0x1#4 0xFF#8).reg 0x1#4 ≠ 0x00#8 ∧
    (State.reset.setReg 0x1#4 0xFF#8).reg 0x2#4 = (State.reset.setReg 0x1#4 0xFF#8).reg 0x3#4 ∧
    (State.reset.setReg 0x1#4 0xFF#8).reg 0x1#4 ≠ (State.reset.setReg 0x1#4 0xFF#8).reg 0x2#4 := by decide

theorem witness_MalformedWordsAreIgnored : (0x1#4 : Nibble) ≠ 0x0#4 ∧ (0xF#4 : Nibble) ≠ 0x0#4 := by decide

theorem witness_RandomIsMaskedDraw : (0x7F#8 : Byte).getLsbD 7 = false ∧ (0xFE#8 : Byte).getLsbD 0 = false := by decide

theorem witness_LogicResetsFlag : (0x0#4 : Nibble) ≠ 0xF#4 ∧ (0xE#4 : Nibble) ≠ 0xF#4 := by decide

/-- Two registers loaded. -/
def pair (a b : Byte) : State := (State.reset.setReg 0x1#4 a).setReg 0x2#4 b

theorem witness_AddSetsCarry :
    (0x1#4 : Nibble) ≠ 0xF#4 ∧
    ((pair 0xFF#8 0x01#8).reg 0x1#4).toNat + ((pair 0xFF#8 0x01#8).reg 0x2#4).toNat > 255 ∧
    ((pair 0xFF#8 0x00#8).reg 0x1#4).toNat + ((pair 0xFF#8 0x00#8).reg 0x2#4).toNat ≤ 255 := by decide

theorem witness_SubtractSetsNoBorrow :
    (0x1#4 : Nibble) ≠ 0xF#4 ∧ (pair 0x33#8 0x33#8).reg 0x2#4 ≤ (pair 0x33#8 0x33#8).reg 0x1#4 ∧
    (pair 0x33#8 0x34#8).reg 0x1#4 < (pair 0x33#8 0x34#8).reg 0x2#4 ∧
    (pair 0x34#8 0x33#8).reg 0x2#4 < (pair 0x34#8 0x33#8).reg 0x1#4 := by decide

theorem witness_ShiftsTakeSourceFromY : (0x0#4 : Nibble) ≠ 0xF#4 := by decide

/-- V-G4: a sprite byte 0xFF drawn at the last cell. -/
def drawing (lit : Bool) : State :=
  (((pair 0xFF#8 0xFF#8).setI 0x0300#16).setMem (Memory.writeFrom 0x0300#16 0 [0xFF#8] [])).setFb
    (State.reset.fb.xorCell 63 31 lit)

theorem witness_DrawXorsSprite_hit :
    ∃ cx cy, cx < 64 ∧ cy < 32 ∧ (drawing true).spritePixel 0x1#4 0x2#4 0x1#4 cx cy = true ∧
      (drawing true).fb.cell cx cy = true :=
  ⟨63, 31, by decide, by decide, by decide, by decide⟩

theorem witness_DrawXorsSprite_noHit :
    ∀ cx cy, cx < 64 → cy < 32 → (drawing false).spritePixel 0x1#4 0x2#4 0x1#4 cx cy = true →
      (drawing false).fb.cell cx cy = false := by
  intro cx cy _ _ _
  have h : (drawing false).fb = Framebuffer.blank := by decide
  rw [h]
  exact Framebuffer.cell_blank cx cy

theorem witness_DrawTwiceRestores :
    ∃ s t u : State, exec (.drw 0x1#4 0x2#4 0x1#4) s = .next t ∧ t.fb = t.fb ∧ t.mem = s.mem ∧ t.i = s.i ∧
      t.reg 0x1#4 = s.reg 0x1#4 ∧ t.reg 0x2#4 = s.reg 0x2#4 ∧ exec (.drw 0x1#4 0x2#4 0x1#4) t = .next u :=
  ⟨drawing false, _, _, rfl, rfl, rfl, rfl, rfl, rfl, rfl⟩

/-- The reset state with key 15 pressed. -/
def pressing : State := { State.reset with key := State.reset.key.set 15 true }

theorem witness_KeypadSkips :
    (0xF#4 : Nibble).toNat = ((pressing.setReg 0x3#4 0xFF#8).reg 0x3#4).toNat % 16 ∧
    (pressing.setReg 0x3#4 0xFF#8).pressed 0xF#4 = true ∧
    (0x0#4 : Nibble).toNat = ((pressing.setReg 0x3#4 0xF0#8).reg 0x3#4).toNat % 16 ∧
    (pressing.setReg 0x3#4 0xF0#8).pressed 0x0#4 = false := by decide

theorem witness_KeyWaitPhases :
    (State.reset.kwValid = false ∧ ∀ k, State.reset.pressed k = false) ∧
    (pressing.kwValid = false ∧ pressing.pressed 0xF#4 = true ∧
      ∀ j : Nibble, j.toNat < (0xF#4 : Nibble).toNat → pressing.pressed j = false) ∧
    ((pressing.holdKey 0xF#4).kwValid = true ∧ (pressing.holdKey 0xF#4).pressed (pressing.holdKey 0xF#4).kwKey = true) ∧
    ((pressing.holdKey 0x0#4).kwValid = true ∧ (pressing.holdKey 0x0#4).pressed (pressing.holdKey 0x0#4).kwKey = false) := by
  decide

theorem witness_BcdStoresDigits : (State.reset.setI 0x0FFF#16).mem.wf := by decide

theorem witness_StoreRegisterBlock :
    (State.reset.setI 0x0FFF#16).mem.wf ∧ (0xF#4 : Nibble).toNat ≤ (0xF#4 : Nibble).toNat ∧
    (0x0#4 : Nibble).toNat ≤ (0x0#4 : Nibble).toNat := by decide

theorem witness_LoadRegisterBlock : (0x0#4 : Nibble).toNat ≤ (0x0#4 : Nibble).toNat ∧ (0xF#4 : Nibble).toNat ≤ (0xF#4 : Nibble).toNat := by
  decide

theorem witness_StoreThenLoadRestores :
    ∃ s t : State, s.mem.wf ∧ exec (.stRegs 0xF#4) s = .next t ∧ t.mem = t.mem ∧ t.i = t.i :=
  ⟨State.reset, _, by decide, rfl, rfl, rfl⟩

/-- Program P5 before its fourth step, with the store at the next instruction: both bytes of the next word are stored. -/
theorem witness_StoreIsSeenByNextFetch_registers :
    ∃ s t : State, s.mem.wf ∧ s.pc.toNat ≤ 0x0FFE ∧ exec (.stRegs 0x1#4) s = .next t ∧ EngineMove t t.quiet ∧
      s.byteAfterStore ((List.range 2).map (fun k => s.reg (BitVec.ofNat 4 k))) (BitVec.ofNat 12 s.pc.toNat) = 0x12#8 ∧
      s.byteAfterStore ((List.range 2).map (fun k => s.reg (BitVec.ofNat 4 k))) (BitVec.ofNat 12 (s.pc.toNat + 1)) = 0x08#8 ∧
      decodeWord (0x12#8 ++ 0x08#8) = .ok (.jp 0x208#12) :=
  ⟨((State.reset.setReg 0x0#4 0x12#8).setReg 0x1#4 0x08#8).setI 0x0200#16, _, by decide, by decide, rfl, .free (by decide),
    by decide, by decide, by decide⟩

/-- The digits 2, 5, 0 at 0x1FE, 0x1FF and 0x200 reach only the first byte of the word at `PC` = 0x200, inside a timed scheduling
step: 0x12E0 turns into 0x00E0. -/
theorem witness_StoreIsSeenByNextFetch_digits :
    ∃ s t : State, s.mem.wf ∧ s.pc.toNat ≤ 0x0FFE ∧ exec (.bcd 0x0#4) s = .next t ∧
      EngineMove t (t.quiet.payInstr (instrPeriod Config.ips)) ∧
      s.byteAfterStore ([(s.reg 0x0#4).toNat / 100, (s.reg 0x0#4).toNat / 10 % 10, (s.reg 0x0#4).toNat % 10].map (BitVec.ofNat 8))
        (BitVec.ofNat 12 s.pc.toNat) = 0x00#8 ∧
      s.byteAfterStore ([(s.reg 0x0#4).toNat / 100, (s.reg 0x0#4).toNat / 10 % 10, (s.reg 0x0#4).toNat % 10].map (BitVec.ofNat 8))
        (BitVec.ofNat 12 (s.pc.toNat + 1)) = 0xE0#8 ∧
      decodeWord (0x00#8 ++ 0xE0#8) = .ok .cls :=
  ⟨withOnePeriod (((holding 0x12E0).setReg 0x0#4 0xFA#8).setI 0x01FE#16), _, by decide, by decide, rfl,
    .timed rfl rfl (le_refl _), by decide, by decide, by decide⟩

theorem witness_WritersOfMemoryAndFramebuffer : ∃ s t : State, exec (.jp 0x200#12) s = .next t := ⟨State.reset, _, rfl⟩

theorem witness_WritersOfSpecialRegisters : ∃ s t : State, exec (.addImm 0xF#4 0x01#8) s = .next t := ⟨State.reset, _, rfl⟩

theorem witness_NoInstructionWritesKeypadOrScheduler : ∃ s t : State, exec (.ldVxK 0x0#4) s = .next t := ⟨pressing, _, rfl⟩

theorem witness_FlagWriters :
    (∃ s t : State, exec (.addReg 0xF#4 0x1#4) s = .next t) ∧ (∃ s t : State, exec (.ldRegs 0xE#4) s = .next t) :=
  ⟨⟨State.reset, _, rfl⟩, ⟨State.reset, _, rfl⟩⟩

theorem witness_OnlyStackFaultsAtExecute : State.reset.halted = false := by decide

theorem witness_PcAfterInstruction :
    (∃ s t : State, exec (.jpV0 0xFFF#12) s = .next t ∧ s.halted = false ∧ t.halted = false) ∧
    (∃ s t : State, exec (.call 0xFFF#12) s = .next t ∧ s.halted = false ∧ t.halted = false) ∧
    (∃ s t : State, exec .ret s = .next t ∧ s.halted = false ∧ t.halted = false) ∧
    (∃ s t : State, exec (.seImm 0x0#4 0x00#8) s = .next t ∧ s.halted = false ∧ t.halted = false) ∧
    (∃ s t : State, exec (.ldVxK 0x0#4) s = .next t ∧ s.halted = false ∧ t.halted = false) ∧
    (∃ s t : State, exec .cls s = .next t ∧ s.halted = false ∧ t.halted = false) :=
  ⟨⟨State.reset.setReg 0x0#4 0xFF#8, _, rfl, rfl, rfl⟩, ⟨State.reset, _, rfl, rfl, rfl⟩,
    ⟨{ State.reset with sp := 16 }, _, rfl, rfl, rfl⟩, ⟨State.reset, _, rfl, rfl, rfl⟩, ⟨State.reset, _, rfl, rfl, rfl⟩,
    ⟨State.reset, _, rfl, rfl, rfl⟩⟩

theorem witness_EngineIgnoresTiming :
    ∃ s t : State, s.unscheduled = t.unscheduled ∧ s.phase ≠ t.phase ∧ s.keyQueue ≠ t.keyQueue ∧ s.paused ≠ t.paused ∧
      s.agenda ≠ t.agenda :=
  ⟨State.reset, (((State.reset.setPhase .timed).queueKey (.set 0x0#4)).pausedNow).setAgenda [.pause], rfl, by decide, by decide,
    by decide, by simp [State.reset]⟩

theorem witness_KeyCallsAreQueued :
    (called (.keySet 0xF#4)).phase = .idle ∧ (called (.keySet 0xF#4)).agenda = [.keySet 0xF#4] ∧
    (called (.keyClear 0x0#4)).phase = .idle ∧ (called (.keyClear 0x0#4)).agenda = [.keyClear 0x0#4] := ⟨rfl, rfl, rfl, rfl⟩

theorem witness_SchedStepOpens :
    (called (.schedStep 0)).phase = .idle ∧ (called (.schedStep 0)).agenda = .schedStep 0 :: [] ∧
    (called (.schedStep 0)).halted = false ∧ (called (.schedStep 0)).paused = false ∧ (called (.schedStep 0)).lastT ≤ 0 :=
  ⟨rfl, rfl, rfl, rfl, le_refl _⟩

theorem witness_SchedStepCloses_tick :
    ∃ s : State, s.phase = .timed ∧ s.halted = false ∧ s.accI < instrPeriod Config.ips ∧ 1 / 60 ≤ s.accT :=
  ⟨{ State.reset with phase := .timed, accT := 1 / 60 }, rfl, rfl, instrPeriod_pos, le_refl _⟩

theorem witness_SchedStepCloses_noTick :
    ∃ s : State, s.phase = .timed ∧ s.halted = false ∧ s.accI < instrPeriod Config.ips ∧ s.accT < 1 / 60 :=
  ⟨State.reset.setPhase .timed, rfl, rfl, instrPeriod_pos, by norm_num [State.reset]⟩

theorem witness_PauseAndResume :
    (called .pause).phase = .idle ∧ (called .pause).agenda = .pause :: [] ∧
    (called (.resume 0)).agenda = .resume 0 :: [] ∧ (called (.resume 0)).lastT ≤ 0 ∧
    (called (.schedStep 0)).pausedNow.agenda = .schedStep 0 :: [] ∧ (called (.schedStep 0)).pausedNow.lastT ≤ 0 ∧
    (called (.schedStep 0)).pausedNow.halted = false ∧ (called (.schedStep 0)).pausedNow.paused = true :=
  ⟨rfl, rfl, rfl, le_refl _, rfl, le_refl _, rfl, rfl⟩

theorem witness_BackwardTimestampRefused :
    (called (.schedStep 0)).phase = .idle ∧ (0 : Rat) < ({ called (.schedStep 0) with lastT := 1 }).lastT ∧
    ({ called (.schedStep 0) with lastT := 1 }).agenda = .schedStep 0 :: [] ∧
    ({ called (.resume 0) with lastT := 1 }).agenda = .resume 0 :: [] := ⟨rfl, zero_lt_one, rfl, rfl⟩

/-- One instruction period elapses over a jump to itself: the budget is worth exactly one engine step. -/
theorem witness_SchedStepRunsItsBudget :
    ∃ s u : State, s.phase = .idle ∧ s.agenda = .schedStep (instrPeriod Config.ips) :: [] ∧ s.halted = false ∧
      s.paused = false ∧ s.lastT ≤ instrPeriod Config.ips ∧ 0 ≤ s.accI ∧
      1 = ⌊(s.accI + (instrPeriod Config.ips - s.lastT)) * (Config.ips : Rat)⌋₊ ∧
      paidSteps 1 ((s.setAgenda []).openTimed (instrPeriod Config.ips)) = some u := by
  refine ⟨(holding 0x1200).setAgenda [.schedStep (instrPeriod Config.ips)], _, rfl, rfl, rfl, rfl, instrPeriod_pos.le, le_refl _, ?_,
    rfl⟩
  have h : ((holding 0x1200).accI + (instrPeriod Config.ips - (holding 0x1200).lastT)) * (Config.ips : Rat) = 1 := by
    show (0 + (instrPeriod Config.ips - 0)) * (Config.ips : Rat) = 1
    rw [instrPeriod, sub_zero, zero_add, one_div_mul_cancel ips_pos.ne']
  show 1 = ⌊((holding 0x1200).accI + (instrPeriod Config.ips - (holding 0x1200).lastT)) * (Config.ips : Rat)⌋₊
  rw [h, Nat.floor_one]

theorem witness_SchedStepIsBlock :
    (called (.schedStep 10)).phase = .idle ∧ (called (.schedStep 10)).agenda = [.schedStep 10] ∧
    (called (.schedStep 10)).halted = false ∧ (called (.schedStep 10)).paused = false ∧
    (called (.schedStep 10)).lastT ≤ 10 := ⟨rfl, rfl, rfl, rfl, by show (0 : Rat) ≤ 10; norm_num⟩

/-- V-X3: an image that fills the memory. -/
theorem witness_ResetLeavesColdBootState :
    (called (.reset (some (List.replicate 3584 0xFF#8)) 0)).phase = .idle ∧
    (called (.reset (some (List.replicate 3584 0xFF#8)) 0)).agenda = .reset (some (List.replicate 3584 0xFF#8)) 0 :: [] ∧
    (List.replicate 3584 (0xFF#8 : Byte)).length ≤ 3584 ∧ (0 : Rat) ≤ 0 :=
  ⟨rfl, rfl, by rw [List.length_replicate], le_refl _⟩

theorem witness_ResetForgetsThePast :
    ∃ s t : State, s.phase = .idle ∧ t.phase = .idle ∧ s.agenda = .reset (some []) 0 :: [] ∧ t.agenda = s.agenda ∧
      ([] : List Byte).length ≤ 3584 ∧ (0 : Rat) ≤ 0 ∧ s ≠ t :=
  ⟨called (.reset (some []) 0), halted.setAgenda [.reset (some []) 0], rfl, rfl, rfl, rfl, by decide, le_refl _,
    fun h => absurd (congrArg State.halted h) (by decide)⟩

/-- V-X4: an image one byte too long, and one that cannot be read. -/
theorem witness_LoadErrorHalts :
    (called (.reset none 0)).agenda = .reset none 0 :: [] ∧ (0 : Rat) ≤ 0 ∧
    (∀ bytes, (none : Option (List Byte)) = some bytes → 3584 < bytes.length) ∧
    (∀ bytes, some (List.replicate 3585 (0x00#8 : Byte)) = some bytes → 3584 < bytes.length) :=
  ⟨rfl, le_refl _, by simp, by intro bytes h; cases h; rw [List.length_replicate]; decide⟩

theorem witness_MemoryCanonicalInvariant : MemoryCanonical (holding 0xF055) ∧ ∃ t, step (holding 0xF055) = .next t :=
  ⟨by decide, _, rfl⟩

theorem witness_FaultRecordInvariant : FaultRecordConsistent (holding 0x00EE) ∧ ∃ t, step (holding 0x00EE) = .next t :=
  ⟨by decide, _, rfl⟩

/-- A key is held at the waiting instruction. -/
theorem witness_KeyWaitInvariant :
    FaultRecordConsistent ((holding 0xF00A).holdKey 0x3#4) ∧ KeyWaitAtInstruction ((holding 0xF00A).holdKey 0x3#4) ∧
    ((holding 0xF00A).holdKey 0x3#4).kwValid = true ∧ ∃ t, step ((holding 0xF00A).holdKey 0x3#4) = .next t :=
  ⟨by decide, fun _ _ => ⟨by decide, by decide⟩, by decide, _, rfl⟩

theorem witness_PcBoundedInvariant :
    FaultRecordConsistent (holding 0xBFFF) ∧ PcBounded (holding 0xBFFF) ∧ ∃ t, step (holding 0xBFFF) = .next t :=
  ⟨by decide, fun _ => ⟨by decide, by decide⟩, _, rfl⟩

theorem witness_BudgetInvariant :
    (TimesNonnegative (called .pause) ∧ BudgetBelowPeriod (called .pause)) ∧ ∃ t, step (called .pause) = .next t :=
  ⟨⟨⟨le_refl _, le_refl _, le_refl _⟩, fun _ _ => instrPeriod_pos⟩, _, rfl⟩

end Sys2Proof.Tests
end

/-! What an instruction, a call and a step of the machine can write, said once, and the obligations about the state that follow
from it. -/

namespace Sys2Proof.Machine

/-! ### What an instruction can do -/

/-- The shapes of the next state of an instruction in state `s`. A value that no claim about the state needs is left open. -/
inductive ExecEffect (s : State) : Instr → State → Prop
  | loads {i : Instr} {x y : Nibble} {nn b : Byte} (hi : i ∈ [.ldImm x nn, .addImm x nn, .ldReg x y, .ldVxDt x]) :
    ExecEffect s i (s.setReg x b)
  | alu {i : Instr} {x y : Nibble} {b : Byte} {f : Bool}
    (hi : i ∈ [.orReg x y, .andReg x y, .xorReg x y, .addReg x y, .sub x y, .shr x y, .subn x y, .shl x y]) :
    ExecEffect s i (s.setResult x b (flagByte f))
  | skips {i : Instr} {x y : Nibble} {nn : Byte} {c : Bool}
    (hi : i ∈ [.seImm x nn, .sneImm x nn, .seReg x y, .sneReg x y, .skp x, .sknp x]) : ExecEffect s i (s.skipIf c)
  | malformed {i : Instr} {x y n : Nibble} (hi : i ∈ [.malformed5 x y n, .malformed9 x y n]) :
    ExecEffect s i s.diagMalformed
  | writesI {i : Instr} {nnn : Addr} {x : Nibble} {w : Word} (hi : i ∈ [.ldI nnn, .addI x, .ldF x]) :
    ExecEffect s i (s.setI w)
  | stores {i : Instr} {x : Nibble} {m : Memory} (hi : i ∈ [.bcd x, .stRegs x]) : ExecEffect s i (s.setMem m)
  | ldRegs (x : Nibble) : ExecEffect s (.ldRegs x) (s.setV (loadBlock s.mem s.i (x.toNat + 1) s.v))
  | rnd (x : Nibble) (nn b : Byte) : ExecEffect s (.rnd x nn) (s.setReg x b).drawn
  | ldDtVx (x : Nibble) : ExecEffect s (.ldDtVx x) (s.setDt (s.reg x))
  | ldStVx (x : Nibble) : ExecEffect s (.ldStVx x) (s.setSt (s.reg x))
  | cls : ExecEffect s .cls (s.setFb Framebuffer.blank)
  | drw (x y n : Nibble) (f : Bool) (fb : Framebuffer) :
    ExecEffect s (.drw x y n) ((s.setReg flagReg (flagByte f)).setFb fb)
  | jp (nnn : Addr) : ExecEffect s (.jp nnn) (s.setPc (immAddr nnn))
  | jpV0 (nnn : Addr) : ExecEffect s (.jpV0 nnn) (s.setPc (immAddr nnn + s.regWord 0x0#4))
  | ret (j : Fin 16) (hj : j.val + 1 = s.sp.val) : ExecEffect s .ret (s.popped.setPc s.stack[j.val])
  | underflow (hsp : s.sp.val = 0) : ExecEffect s .ret (s.raise .stackUnderflow s.ir s.instrAddr)
  | call (nnn : Addr) (hsp : s.sp.val < 16) : ExecEffect s (.call nnn) ((s.pushed s.pc hsp).setPc (immAddr nnn))
  | overflow (nnn : Addr) (hsp : s.sp.val = 16) : ExecEffect s (.call nnn) (s.raise .stackOverflow s.ir s.instrAddr)
  | waits (x : Nibble) : ExecEffect s (.ldVxK x) s.repeatInstr
  | choosesKey (x k : Nibble) : ExecEffect s (.ldVxK x) (s.holdKey k).repeatInstr
  | storesKey (x : Nibble) (b : Byte) : ExecEffect s (.ldVxK x) (s.setReg x b).releaseKey

/-- Everything an instruction can do. -/
theorem exec_effect (i : Instr) (s t : State) (h : exec i s = .next t) : ExecEffect s i t := by
  cases i with
  | ret =>
    obtain ⟨hsp, rfl⟩ | ⟨-, w, rfl, j, hj, rfl⟩ := execRet_cases s t h
    · exact .underflow hsp
    · exact .ret j hj
  | call nnn =>
    obtain ⟨hsp, rfl⟩ | ⟨hsp, rfl⟩ := execCall_cases nnn s t h
    · exact .overflow nnn hsp
    · exact .call nnn hsp
  | ldVxK x =>
    obtain ⟨-, -, rfl⟩ | ⟨-, k, -, rfl⟩ | ⟨-, -, rfl⟩ | ⟨-, -, rfl⟩ := execLdVxK_cases x s t h
    · exact .waits x
    · exact .choosesKey x k
    · exact .waits x
    · exact .storesKey x _
  | ldImm x nn => cases h; exact .loads (y := 0) (nn := nn) (by simp)
  | addImm x nn => cases h; exact .loads (y := 0) (nn := nn) (by simp)
  | ldReg x y => cases h; exact .loads (y := y) (nn := 0) (by simp)
  | ldVxDt x => cases h; exact .loads (y := 0) (nn := 0) (by simp)
  | orReg x y | andReg x y | xorReg x y | addReg x y | sub x y | shr x y | subn x y | shl x y =>
    cases h; exact .alu (y := y) (by simp)
  | seImm x nn | sneImm x nn => cases h; exact .skips (x := x) (y := 0) (nn := nn) (by simp)
  | seReg x y | sneReg x y => cases h; exact .skips (x := x) (y := y) (nn := 0) (by simp)
  | skp x | sknp x => cases h; exact .skips (x := x) (y := 0) (nn := 0) (by simp)
  | malformed5 x y n | malformed9 x y n => cases h; exact .malformed (x := x) (y := y) (n := n) (by simp)
  | ldI nnn => cases h; exact .writesI (nnn := nnn) (x := 0) (by simp)
  | addI x | ldF x => cases h; exact .writesI (nnn := 0) (x := x) (by simp)
  | bcd x | stRegs x => cases h; exact .stores (x := x) (by simp)
  | ldRegs x => cases h; exact .ldRegs x
  | rnd x nn => cases h; exact .rnd x nn _
  | ldDtVx x => cases h; exact .ldDtVx x
  | ldStVx x => cases h; exact .ldStVx x
  | cls => cases h; exact .cls
  | drw x y n => cases h; exact .drw x y n _ _
  | jp nnn => cases h; exact .jp nnn
  | jpV0 nnn => cases h; exact .jpV0 nnn

/-- Settles O37: of the shapes of `exec_effect`, only the stores write `MEM`, only `CLS` and `DRW` write `FB`. -/
theorem writersOfMemoryAndFramebuffer : Obligations.WritersOfMemoryAndFramebuffer := by
  intro i s t h
  cases exec_effect i s t h with
  | stores hi => fin_cases hi <;> simp
  | _ => simp

/-- Settles O38: each of the special registers is written by one shape of `exec_effect`, or two for the stack. -/
theorem writersOfSpecialRegisters : Obligations.WritersOfSpecialRegisters := by
  intro i s t h
  cases exec_effect i s t h with
  | writesI hi => fin_cases hi <;> simp
  | _ => simp

/-- Settles O39: no shape of `exec_effect` touches the keypad, `IR` or the scheduler. -/
theorem noInstructionWritesKeypadOrScheduler : Obligations.NoInstructionWritesKeypadOrScheduler := by
  intro i s t h
  cases exec_effect i s t h with
  | _ => simp

/-! ### The flag (R21) -/

theorem flagByte_eq (b : Bool) : flagByte b = 0x00#8 ∨ flagByte b = 0x01#8 := by cases b <;> simp [flagByte]

theorem State.reg_setReg_of_ne (s : State) (x z : Nibble) (b : Byte) (h : x ≠ z) : (s.setReg x b).reg z = s.reg z := by
  rw [State.reg_setReg, if_neg h.symm]

/-- A block load leaves the registers above its last one as they were (R129). -/
theorem State.reg_setV_loadBlock_above (s : State) (x z : Nibble) (h : x.toNat < z.toNat) :
    (s.setV (loadBlock s.mem s.i (x.toNat + 1) s.v)).reg z = s.reg z := by
  have hz := loadBlock_getElem s.mem s.i (x.toNat + 1) s.v z.toNat z.isLt
  rw [if_neg (by omega)] at hz
  exact hz

/-- Settles O40: a flag write is a `flagByte`; any other write of `V[0xF]` names it as the destination. -/
theorem flagWriters : Obligations.FlagWriters := by
  intro i s t h
  cases exec_effect i s t h with
  | @alu i x y b f hi =>
    have hflag : (s.setResult x b (flagByte f)).reg 0xF#4 = flagByte f := by rw [State.reg_setResult, if_pos rfl]
    fin_cases hi <;> simpa [Instr.mnemonic, hflag] using flagByte_eq f
  | drw x y n f fb => simpa [Instr.mnemonic, State.reg_setReg] using flagByte_eq f
  | @loads i x y nn b hi => fin_cases hi <;> simpa [Instr.mnemonic] using s.reg_setReg_of_ne x 0xF#4 b
  | rnd x nn b => simpa [Instr.mnemonic] using s.reg_setReg_of_ne x 0xF#4 b
  | storesKey x b => simpa [Instr.mnemonic] using s.reg_setReg_of_ne x 0xF#4 b
  | ldRegs x =>
    have keep : x ≠ 0xF#4 → (s.setV (loadBlock s.mem s.i (x.toNat + 1) s.v)).reg 0xF#4 = s.reg 0xF#4 :=
      fun hx => s.reg_setV_loadBlock_above x 0xF#4 (by bv_omega)
    simpa [Instr.mnemonic] using keep
  | skips hi | malformed hi | writesI hi | stores hi => fin_cases hi <;> simp [Instr.mnemonic]
  | _ => simp [Instr.mnemonic]

/-! ### Where `PC` is left (R23) -/

theorem immAddr_toNat (nnn : Addr) : (immAddr nnn).toNat = nnn.toNat := by
  simp [immAddr, Nat.mod_eq_of_lt (show nnn.toNat < 65536 by omega)]

theorem State.regWord_toNat (s : State) (x : Nibble) : (s.regWord x).toNat = (s.reg x).toNat := by
  simp [State.regWord, Nat.mod_eq_of_lt (show (s.reg x).toNat < 65536 by omega)]

theorem immAddr_le (nnn : Addr) : (immAddr nnn).toNat ≤ 0x0FFF := by
  rw [immAddr_toNat]; omega

theorem jpV0_target_le (s : State) (nnn : Addr) : (immAddr nnn + s.regWord 0x0#4).toNat ≤ 0x10FE := by
  have := nnn.isLt
  have := (s.reg 0x0#4).isLt
  rw [BitVec.toNat_add, immAddr_toNat, State.regWord_toNat]
  omega

/-- Settles O42, by the shape of the instruction; the two stack faults are excluded by `HALTED`. -/
theorem pcAfterInstruction : Obligations.PcAfterInstruction := by
  intro i s t h _ ht
  cases exec_effect i s t h with
  | jp nnn | call nnn hsp => simpa [Instr.mnemonic] using immAddr_le nnn
  | jpV0 nnn => simpa [Instr.mnemonic] using jpV0_target_le s nnn
  | ret j _ => simpa [Instr.mnemonic] using ⟨j, rfl⟩
  | overflow | underflow => cases ht
  | @skips i x y nn c hi => cases c <;> fin_cases hi <;> simp [Instr.mnemonic]
  | waits | choosesKey => simp [Instr.mnemonic, State.instrAddr]
  | loads hi | alu hi | malformed hi | writesI hi | stores hi => fin_cases hi <;> simp [Instr.mnemonic]
  | _ => simp [Instr.mnemonic]

/-! ### The engine and the scheduler's state -/

theorem State.pop_unscheduled (s : State) : s.unscheduled.pop = s.pop.map (Prod.map id State.unscheduled) := by
  by_cases h : 0 < s.sp.val
  · rw [State.pop_some s h, State.pop_some s.unscheduled h]
    rfl
  · rw [State.pop_empty s (by omega), State.pop_empty s.unscheduled (Nat.eq_zero_of_not_pos h)]
    rfl

theorem State.push_unscheduled (s : State) (w : Word) : s.unscheduled.push w = (s.push w).map State.unscheduled := by
  by_cases h : s.sp.val < 16
  · rw [State.push_some s w h, State.push_some s.unscheduled w h]
    rfl
  · have h16 : s.sp.val = 16 := by omega
    rw [State.push_full s w h16, State.push_full s.unscheduled w h16]
    rfl

theorem execRet_unscheduled (s t : State) (h : execRet s = .next t) : execRet s.unscheduled = .next t.unscheduled := by
  unfold execRet at *
  rw [State.pop_unscheduled]
  cases hp : s.pop <;> rw [hp] at h <;> cases h <;> rfl

theorem execCall_unscheduled (nnn : Addr) (s t : State) (h : execCall nnn s = .next t) :
    execCall nnn s.unscheduled = .next t.unscheduled := by
  unfold execCall at *
  rw [show s.unscheduled.pc = s.pc from rfl, State.push_unscheduled]
  cases hp : s.push s.pc <;> rw [hp] at h <;> cases h <;> rfl

theorem execLdVxK_unscheduled (x : Nibble) (s t : State) (h : execLdVxK x s = .next t) :
    execLdVxK x s.unscheduled = .next t.unscheduled := by
  have hk : s.unscheduled.kwValid = s.kwValid := rfl
  have hp : s.unscheduled.pressed s.unscheduled.kwKey = s.pressed s.kwKey := rfl
  have hl : s.unscheduled.leastPressed = s.leastPressed := rfl
  unfold execLdVxK State.chooseKey at *
  rw [hk, hp, hl]
  split_ifs at h ⊢
  · cases h; rfl
  · cases h; rfl
  · cases hs : s.leastPressed <;> rw [hs] at h <;> cases h <;> rfl

/-- An instruction reads nothing of the scheduler's state: with it put aside it does the same (R31). -/
theorem exec_unscheduled (i : Instr) (s t : State) (h : exec i s = .next t) :
    exec i s.unscheduled = .next t.unscheduled := by
  cases i with
  | ret => exact execRet_unscheduled s t h
  | call nnn => exact execCall_unscheduled nnn s t h
  | ldVxK x => exact execLdVxK_unscheduled x s t h
  | seImm | sneImm | seReg | sneReg | skp | sknp => cases h; rw [State.skipIf_unscheduled]; rfl
  | _ => cases h; rfl

theorem engineStep_outOfRange (s : State) (h : 0x0FFE < s.pc.toNat) :
    engineStep s = .next (s.raise .fetchOutOfRange 0x0000#16 s.pc) := if_pos h

theorem engineStep_illegal (s : State) (e : DecodeError) (hpc : s.pc.toNat ≤ 0x0FFE)
    (hd : decodeWord (s.mem.fetchWord s.pc) = .error e) :
    engineStep s = .next ((s.fetched (s.mem.fetchWord s.pc)).raise .illegalOpcode (s.mem.fetchWord s.pc) s.pc) := by
  simp only [engineStep, if_neg (not_lt.mpr hpc), hd]

theorem engineStep_unscheduled (s t : State) (h : engineStep s = .next t) :
    engineStep s.unscheduled = .next t.unscheduled := by
  obtain ⟨hpc, rfl⟩ | ⟨hpc, e, hd, rfl⟩ | ⟨hpc, i, hd, hx⟩ := engineStep_cases s t h
  · exact engineStep_outOfRange s.unscheduled hpc
  · exact engineStep_illegal s.unscheduled e hpc hd
  · exact (engineStep_ok s.unscheduled i hpc hd).trans (exec_unscheduled i _ t hx)

/-- An engine step writes nothing of the scheduler's state (R31). -/
theorem engineStep_scheduler (s t : State) (h : engineStep s = .next t) :
    t.accI = s.accI ∧ t.accT = s.accT ∧ t.lastT = s.lastT ∧ t.paused = s.paused ∧ t.keyQueue = s.keyQueue ∧
      t.phase = s.phase ∧ t.agenda = s.agenda := by
  obtain ⟨-, rfl⟩ | ⟨-, e, -, rfl⟩ | ⟨-, i, -, hx⟩ := engineStep_cases s t h
  · simp
  · simp
  · obtain ⟨-, -, hs⟩ := noInstructionWritesKeypadOrScheduler i _ t hx
    exact hs

theorem engineStep_scheduler_same (s t : State) (h : engineStep s = .next t) :
    ∀ c ∈ [Component.timing, .keyQueue, .turn], c.same s t := by
  obtain ⟨hI, hT, hL, hP, hQ, hphase, hagenda⟩ := engineStep_scheduler s t h
  simp [Component.same, *]

/-- Settles O43: both engine steps agree with the one made with the scheduler's state put aside. -/
theorem engineIgnoresTiming : Obligations.EngineIgnoresTiming := by
  intro s t hst
  obtain ⟨u, hu⟩ := engineStep_next s
  obtain ⟨v, hv⟩ := engineStep_next t
  have huv : (.next u.unscheduled : Host.Outcome State Fault Refusal) = .next v.unscheduled := by
    rw [← engineStep_unscheduled s u hu, hst, engineStep_unscheduled t v hv]
  exact ⟨u, v, hu, hv, Host.Outcome.next.inj huv,
    fun c hc => ⟨engineStep_scheduler_same s u hu c hc, engineStep_scheduler_same t v hv c hc⟩⟩

/-! ### What a reset leaves (R180, R182) -/

theorem State.resetWith_some (s : State) (image : List Byte) (now : Rat) (h : image.length ≤ maxImage) :
    s.resetWith (some image) now =
      { State.coldBoot image now with agenda := s.agenda, draws := s.draws, out := s.out } := if_pos h

/-- A reset gives the cold-boot state of an acceptable image, or a load error (R180, R182). -/
theorem State.resetWith_cases (s : State) (image : Option (List Byte)) (now : Rat) :
    (∃ bytes, image = some bytes ∧ bytes.length ≤ maxImage ∧ s.resetWith image now =
      { State.coldBoot bytes now with agenda := s.agenda, draws := s.draws, out := s.out }) ∨
    s.resetWith image now = s.loadError := by
  cases image with
  | none => exact .inr rfl
  | some bytes =>
    by_cases h : bytes.length ≤ maxImage
    · exact .inl ⟨bytes, rfl, h, s.resetWith_some bytes now h⟩
    · exact .inr (if_neg h)

theorem ratOfNats_nonneg (n d : Nat) : 0 ≤ ratOfNats n d := by
  unfold ratOfNats
  positivity

theorem State.resetWith_timesNonnegative (s : State) (image : Option (List Byte)) (now : Rat) (h : 0 ≤ now) :
    TimesNonnegative (s.resetWith image now) := by
  obtain ⟨bytes, -, -, hr⟩ | hr := s.resetWith_cases image now <;> rw [hr]
  · exact ⟨le_refl 0, le_refl 0, h⟩
  · exact ⟨ratOfNats_nonneg _ _, ratOfNats_nonneg _ _, ratOfNats_nonneg _ _⟩

theorem State.resetWith_budgetBelowPeriod (s : State) (image : Option (List Byte)) (now : Rat) :
    BudgetBelowPeriod (s.resetWith image now) := by
  obtain ⟨bytes, -, -, hr⟩ | hr := s.resetWith_cases image now <;> rw [hr]
  · exact fun _ _ => instrPeriod_pos
  · exact fun hh => absurd hh (by simp [State.loadError, State.unspecified])

theorem State.resetWith_faultRecordConsistent (s : State) (image : Option (List Byte)) (now : Rat) :
    FaultRecordConsistent (s.resetWith image now) := by
  obtain ⟨bytes, -, -, hr⟩ | hr := s.resetWith_cases image now <;> rw [hr] <;>
    simp [FaultRecordConsistent, State.coldBoot, State.reset, State.loadError, State.unspecified]

theorem State.resetWith_pcBounded (s : State) (image : Option (List Byte)) (now : Rat) :
    PcBounded (s.resetWith image now) := by
  obtain ⟨bytes, -, -, hr⟩ | hr := s.resetWith_cases image now <;> rw [hr]
  · exact fun _ => ⟨by simp [State.coldBoot, State.reset], by simp [State.coldBoot, State.reset]⟩
  · exact fun hc => absurd rfl hc

/-! ### What only the engine and a reset write -/

/-- The state with everything put aside that the scheduler and the outside world write: left are `MEM`, `V`, `I`, `PC`, the
stack, `FB`, `IR`, the key-wait latch, the fault record and the draws, which only an engine step or a reset changes. -/
def State.engineOwned (s : State) : State :=
  { s.unscheduled with dt := 0x00#8, st := 0x00#8, key := Vector.replicate 16 false, out := Outputs.silent }

theorem State.close_engineOwned (s : State) (tick : Bool) : (s.close tick).engineOwned = s.engineOwned := by
  cases tick <;> rfl

theorem State.closeTimed_engineOwned (s : State) : s.closeTimed.engineOwned = s.engineOwned := by
  unfold State.closeTimed
  split
  · exact s.close_engineOwned true
  · exact s.close_engineOwned false

theorem State.openTimed_engineOwned (s : State) (now : Rat) : (s.openTimed now).engineOwned = s.engineOwned := by
  unfold State.openTimed
  split <;> rfl

theorem State.openBlock_engineOwned (s : State) (keys : List KeyEvent) (steps : Nat) (tick : Bool) :
    (s.openBlock keys steps tick).engineOwned = s.engineOwned := by
  unfold State.openBlock
  split <;> rfl

/-- A call of the outside world is a reset or leaves what the engine owns. -/
theorem perform_engineOwned (c : Call) (s t : State) (h : perform c s = .next t) :
    (∃ image now, t = s.resetWith image now) ∨ t.engineOwned = s.engineOwned := by
  obtain ⟨image, now, -, -, rfl⟩ | ⟨k, e, -, rfl⟩ | ⟨now, -, -, ⟨-, rfl⟩ | ⟨-, rfl⟩⟩ | ⟨-, rfl⟩ | ⟨now, -, -, rfl⟩ |
    ⟨keys, steps, tick, -, ⟨-, rfl⟩ | ⟨-, rfl⟩⟩ := perform_cases c s t h
  · exact .inl ⟨image, now, rfl⟩
  · exact .inr rfl
  · exact .inr rfl
  · exact .inr (s.openTimed_engineOwned now)
  · exact .inr rfl
  · exact .inr rfl
  · exact .inr rfl
  · exact .inr (s.openBlock_engineOwned keys steps tick)

/-- A step of the machine is an engine move, a reset, or leaves what the engine owns. -/
theorem step_engineOwned (s t : State) (h : step s = .next t) :
    (∃ u, EngineMove s u ∧ engineStep u = .next t) ∨ (∃ u image now, t = State.resetWith u image now) ∨
      t.engineOwned = s.engineOwned := by
  obtain ⟨-, c, rest, -, hc⟩ | ⟨-, -, -, -, rfl⟩ | ⟨hp, ha, hh, hz, he⟩ | ⟨-, -, rfl⟩ | ⟨hp, hh, hb, he⟩ | ⟨-, -, -, rfl⟩ |
    ⟨left, tick, hp, hh, he⟩ | ⟨tick, -, -, rfl⟩ := step_cases s t h
  · obtain ⟨image, now, rfl⟩ | hs := perform_engineOwned c _ t hc
    · exact .inr (.inl ⟨_, image, now, rfl⟩)
    · exact .inr (.inr hs)
  · exact .inr (.inr rfl)
  · exact .inl ⟨_, .free ⟨hp, ha, hh, hz⟩, he⟩
  · exact .inr (.inr rfl)
  · exact .inl ⟨_, .timed hp hh hb, he⟩
  · exact .inr (.inr s.quiet.closeTimed_engineOwned)
  · exact .inl ⟨_, .block left tick hp hh, he⟩
  · exact .inr (.inr (s.quiet.close_engineOwned tick))

/-- The engine moves from what it owns as the step before left it. -/
theorem EngineMove.engineOwned (s u : State) (h : EngineMove s u) : u.engineOwned = s.engineOwned := by
  cases h <;> rfl

theorem EngineMove.running (s u : State) (h : EngineMove s u) : u.halted = false := by
  cases h with
  | free turn =>
    obtain ⟨-, -, running, -⟩ := turn
    exact running
  | timed _ running _ => exact running
  | block _ _ _ running => exact running

/-! ### The fault record (R30, R149) -/

/-- The fault record is part of what the engine owns. -/
theorem FaultRecordConsistent.congr {s t : State} (h : t.engineOwned = s.engineOwned) (hs : FaultRecordConsistent s) :
    FaultRecordConsistent t := by
  change FaultRecordConsistent t.engineOwned
  rw [h]
  exact hs

theorem State.raise_faultRecordConsistent (s : State) (code : FaultCode) (w a : Word) (h : code ≠ .none) :
    FaultRecordConsistent (s.raise code w a) := by
  simp [FaultRecordConsistent, h]

theorem exec_faultRecordConsistent (i : Instr) (s t : State) (hs : FaultRecordConsistent s) (h : exec i s = .next t) :
    FaultRecordConsistent t := by
  cases exec_effect i s t h with
  | underflow | overflow => exact s.raise_faultRecordConsistent _ _ _ (by decide)
  | _ => simpa [FaultRecordConsistent] using hs

theorem engineStep_faultRecordConsistent (s t : State) (hs : FaultRecordConsistent s) (h : engineStep s = .next t) :
    FaultRecordConsistent t := by
  obtain ⟨-, rfl⟩ | ⟨-, e, -, rfl⟩ | ⟨-, i, -, hx⟩ := engineStep_cases s t h
  · exact s.raise_faultRecordConsistent _ _ _ (by decide)
  · exact State.raise_faultRecordConsistent _ _ _ _ (by decide)
  · exact exec_faultRecordConsistent i (s.fetched _) t hs hx

/-- Settles O57, by who made the step: the engine, a reset, or an agent that leaves the fault record alone. -/
theorem faultRecordInvariant : Obligations.FaultRecordInvariant := by
  intro s t hs h
  obtain ⟨u, hu, he⟩ | ⟨u, image, now, rfl⟩ | hkeep := step_engineOwned s t h
  · exact engineStep_faultRecordConsistent u t (.congr hu.engineOwned hs) he
  · exact u.resetWith_faultRecordConsistent image now
  · exact .congr hkeep hs

/-! ### `PC` and the stack are bounded (R23, R83) -/

theorem PcBounded.congr {s t : State} (h : t.engineOwned = s.engineOwned) (hs : PcBounded s) : PcBounded t := by
  change PcBounded t.engineOwned
  rw [h]
  exact hs

/-- The bounds of `PcBounded`, claimed whatever fault is recorded (R23). -/
def PcAndStackWithin (s : State) : Prop := s.pc.toNat ≤ 0x10FE ∧ ∀ j : Fin 16, s.stack[j.val].toNat ≤ 0x1000

theorem skipIf_pc_le (s : State) (c : Bool) (h : s.pc.toNat ≤ 0x1000) : (s.skipIf c).pc.toNat ≤ 0x1002 := by
  rw [State.skipIf_pc]
  split <;> bv_omega

/-- An instruction executes with `PC` = `a + 2` for an `a` up to 0xFFE: the key wait goes back without a wrap, and whatever
is pushed or jumped to is in the bounds (R23). -/
theorem exec_pcAndStackWithin (i : Instr) (s t : State) (hlo : 2 ≤ s.pc.toNat) (hhi : s.pc.toNat ≤ 0x1000)
    (hstack : ∀ j : Fin 16, s.stack[j.val].toNat ≤ 0x1000) (h : exec i s = .next t) : PcAndStackWithin t := by
  have hpc : s.pc.toNat ≤ 0x10FE := by omega
  have hback : s.instrAddr.toNat ≤ 0x10FE := by unfold State.instrAddr; bv_omega
  cases exec_effect i s t h with
  | jp nnn => exact ⟨(immAddr_le nnn).trans (by decide), hstack⟩
  | jpV0 nnn => exact ⟨jpV0_target_le s nnn, hstack⟩
  | call nnn hsp =>
    refine ⟨(immAddr_le nnn).trans (by decide), fun j => ?_⟩
    simp only [State.setPc_stack, State.pushed_stack, Vector.getElem_set]
    split
    · exact hhi
    · exact hstack j
  | ret j _ => exact ⟨(hstack j).trans (by decide), hstack⟩
  | @skips _ _ _ _ c => exact ⟨(skipIf_pc_le s c hhi).trans (by decide), by simpa using hstack⟩
  | waits | choosesKey => exact ⟨hback, hstack⟩
  | _ => exact ⟨hpc, hstack⟩

theorem pc_add_two_toNat (s : State) (h : s.pc.toNat ≤ 0x0FFE) : (s.pc + 2#16).toNat = s.pc.toNat + 2 := by
  bv_omega

theorem engineStep_pcAndStackWithin (s t : State) (hs : PcAndStackWithin s) (h : engineStep s = .next t) :
    PcAndStackWithin t := by
  obtain ⟨hpc, hstack⟩ := hs
  obtain ⟨-, rfl⟩ | ⟨hlt, e, -, rfl⟩ | ⟨hlt, i, -, hx⟩ := engineStep_cases s t h
  · exact ⟨hpc, hstack⟩
  · exact ⟨by simp only [State.raise_pc, State.fetched_pc, pc_add_two_toNat s hlt]; omega, hstack⟩
  · have hnext : (s.fetched (s.mem.fetchWord s.pc)).pc.toNat = s.pc.toNat + 2 := pc_add_two_toNat s hlt
    exact exec_pcAndStackWithin i (s.fetched _) t (by omega) (by omega) hstack hx

/-- Settles O59: the engine moves only with no fault recorded, so from bounds that hold; a load error claims nothing. -/
theorem pcBoundedInvariant : Obligations.PcBoundedInvariant := by
  intro s t hfault hs h
  obtain ⟨u, hu, he⟩ | ⟨u, image, now, rfl⟩ | hkeep := step_engineOwned s t h
  · have hnone : u.faultCode = .none := by
      have hiff := (FaultRecordConsistent.congr hu.engineOwned hfault).1
      simpa [hu.running] using hiff
    have hbounds : PcAndStackWithin u := PcBounded.congr hu.engineOwned hs (by simp [hnone])
    exact fun _ => engineStep_pcAndStackWithin u t hbounds he
  · exact u.resetWith_pcBounded image now
  · exact .congr hkeep hs

/-! ### Times and the instruction budget (R31, R156) -/

theorem engineStep_budget (s t : State) (htimes : TimesNonnegative s)
    (hbudget : s.phase ≠ .timed → s.accI < instrPeriod Config.ips) (h : engineStep s = .next t) :
    TimesNonnegative t ∧ BudgetBelowPeriod t := by
  obtain ⟨hI, hT, hL, -, -, hphase, -⟩ := engineStep_scheduler s t h
  unfold TimesNonnegative BudgetBelowPeriod
  rw [hI, hT, hL, hphase]
  exact ⟨htimes, fun _ => hbudget⟩

theorem State.openTimed_budget (s : State) (now : Rat) (hnow : s.lastT ≤ now) (htimes : TimesNonnegative s)
    (hbudget : BudgetBelowPeriod s) :
    TimesNonnegative (s.openTimed now) ∧ BudgetBelowPeriod (s.openTimed now) := by
  cases hp : s.paused with
  | true =>
    rw [State.openTimed_paused s now hp]
    exact ⟨htimes, hbudget⟩
  | false =>
    obtain ⟨hI, hT, hL⟩ := htimes
    rw [State.openTimed_running s now hp]
    refine ⟨⟨?_, ?_, hL.trans hnow⟩, fun _ hphase => absurd rfl hphase⟩
    · exact add_nonneg hI (sub_nonneg.mpr hnow)
    · exact add_nonneg hT (sub_nonneg.mpr hnow)

theorem State.closeTimed_timesNonnegative (s : State) (h : TimesNonnegative s) : TimesNonnegative s.closeTimed := by
  obtain ⟨hI, hT, hL⟩ := h
  rcases le_or_gt (1 / 60) s.accT with htick | htick
  · have hpaid : 0 ≤ s.accT - timerPeriod := sub_nonneg.mpr htick
    rw [State.closeTimed_tick s htick]
    simpa [TimesNonnegative, hI, hL] using hpaid
  · rw [State.closeTimed_noTick s htick]
    simp [TimesNonnegative, hI, hT, hL]

/-- A call, which is made between scheduling steps, keeps the times and the budget (R34). -/
theorem perform_budget (c : Call) (s t : State) (hidle : s.phase = .idle) (htimes : TimesNonnegative s)
    (hbudget : BudgetBelowPeriod s) (h : perform c s = .next t) : TimesNonnegative t ∧ BudgetBelowPeriod t := by
  obtain ⟨image, now, -, hnow, rfl⟩ | ⟨k, e, -, rfl⟩ | ⟨now, -, hnow, ⟨-, rfl⟩ | ⟨-, rfl⟩⟩ | ⟨-, rfl⟩ | ⟨now, -, hnow, rfl⟩ |
    ⟨keys, steps, tick, -, ⟨-, rfl⟩ | ⟨hh, rfl⟩⟩ := perform_cases c s t h
  · exact ⟨s.resetWith_timesNonnegative image now hnow, s.resetWith_budgetBelowPeriod image now⟩
  · exact ⟨htimes, hbudget⟩
  · exact ⟨htimes, hbudget⟩
  · exact s.openTimed_budget now hnow htimes hbudget
  · exact ⟨htimes, hbudget⟩
  · obtain ⟨hI, hT, hL⟩ := htimes
    exact ⟨⟨hI, hT, hL.trans hnow⟩, hbudget⟩
  · exact ⟨htimes, hbudget⟩
  · have hlt : s.accI < instrPeriod Config.ips := hbudget hh (by simp [hidle])
    unfold State.openBlock
    split
    · exact ⟨htimes, hbudget⟩
    · exact ⟨htimes, fun _ _ => hlt⟩

/-- Settles O60, by the eight kinds of step. Only an engine step of a timed scheduling step and the close of one subtract from
a budget, each after comparing it with what it pays. -/
theorem budgetInvariant : Obligations.BudgetInvariant := by
  rintro s t ⟨htimes, hbudget⟩ h
  obtain ⟨hp, c, rest, -, hc⟩ | ⟨-, -, -, -, rfl⟩ | ⟨hp, -, hh, -, he⟩ | ⟨-, hh, rfl⟩ | ⟨hp, -, hb, he⟩ | ⟨-, -, hb, rfl⟩ |
    ⟨left, tick, hp, hh, he⟩ | ⟨tick, hp, hh, rfl⟩ := step_cases s t h
  · exact perform_budget c (s.quiet.setAgenda rest) t hp htimes hbudget hc
  · exact ⟨htimes, hbudget⟩
  · exact engineStep_budget s.quiet t htimes (hbudget hh) he
  · exact ⟨htimes, fun hrun => absurd (hh.symm.trans hrun) (by decide)⟩
  · obtain ⟨hI, hT, hL⟩ := htimes
    exact engineStep_budget (s.quiet.payInstr _) t ⟨sub_nonneg.mpr hb, hT, hL⟩ (fun hnt => absurd hp hnt) he
  · exact ⟨s.quiet.closeTimed_timesNonnegative htimes, fun _ _ => by simpa using hb⟩
  · exact engineStep_budget (s.quiet.setPhase _) t htimes (fun _ => hbudget hh (by simp [hp])) he
  · have hlt := hbudget hh (by simp [hp])
    exact ⟨by simpa [TimesNonnegative] using htimes, fun _ _ => by simpa using hlt⟩

/-! ### Calls, the reset state and the memory of an image -/

theorem step_call (s : State) (c : Call) (rest : List Call) (hp : s.phase = .idle) (ha : s.agenda = c :: rest) :
    step s = perform c (s.quiet.setAgenda rest) := by
  simp [step, act, stepIdle, hp, ha]

/-- Settles O49: both calls compare the timestamp with `LAST_T` first. -/
theorem backwardTimestampRefused : Obligations.BackwardTimestampRefused := by
  rintro s now rest hp hnow (ha | ha) <;> rw [step_call s _ rest hp ha] <;> exact if_pos hnow

/-- Settles O55, one invariant after the other. -/
theorem resetMeetsInvariant : Obligations.ResetMeetsInvariant where
  memory := State.wf_reset
  fault := by simp [FaultRecordConsistent, State.reset]
  keyWait := fun _ hk => absurd hk (by simp [State.reset])
  pc := fun _ => ⟨by simp [State.reset], by simp [State.reset]⟩
  times := ⟨le_refl 0, le_refl 0, le_refl 0⟩
  budget := fun _ _ => instrPeriod_pos

/-- At reset the font stands in its range, and 0x00 elsewhere (R36). -/
theorem Memory.base_eq (a : Nat) :
    Memory.base a = if 0x050 ≤ a ∧ a < 0x0A0 then font.getD (a - 0x050) 0x00#8 else 0x00#8 := by
  unfold Memory.base fontBase
  by_cases hlo : 0x050 ≤ a
  · by_cases hhi : a < 0x0A0
    · rw [if_pos hlo, if_pos ⟨hlo, hhi⟩]
    · have hlen : font.length ≤ a - 0x050 := by
        have : font.length = 80 := rfl
        omega
      rw [if_pos hlo, if_neg (by omega), List.getD_eq_default _ _ hlen]
  · rw [if_neg hlo, if_neg (by omega)]

theorem Memory.read_ofImage (image : List Byte) (hlen : image.length ≤ maxImage) (a : Addr) :
    (Memory.ofImage image).read a =
      if 0x200 ≤ a.toNat then image.getD (a.toNat - 0x200) 0x00#8 else Memory.base a.toNat := by
  unfold maxImage at hlen
  have hea : ∀ k, k < 3584 → (ea entry k).toNat = 0x200 + k := fun k hk => by
    rw [ea_toNat, show entry.toNat = 0x200 from rfl, Nat.mod_eq_of_lt (by omega)]
  by_cases hin : 0x200 ≤ a.toNat ∧ a.toNat - 0x200 < image.length
  · obtain ⟨hlo, hk⟩ := hin
    have ha : a = ea entry (0 + (a.toNat - 0x200)) := by
      apply BitVec.eq_of_toNat_eq
      rw [hea _ (by omega)]
      omega
    rw [if_pos hlo, List.getD_eq_getElem _ _ hk]
    conv_lhs => rw [ha]
    exact Memory.read_writeFrom_inside entry image 0 [] Memory.wf_nil (by omega) _ hk
  · have hout : (Memory.ofImage image).read a = Memory.base a.toNat := by
      refine Memory.read_writeFrom_outside entry a image 0 [] Memory.wf_nil fun j hj heq => hin ?_
      rw [heq, Nat.zero_add, hea j (by omega)]
      omega
    rw [hout]
    split
    · next hlo => rw [Memory.base_eq, if_neg (by omega), List.getD_eq_default _ _ (by omega)]
    · rfl

theorem State.coldBoot_reg (image : List Byte) (now : Rat) (x : Nibble) : (State.coldBoot image now).reg x = 0x00#8 := by
  simp [State.reg, State.coldBoot, State.reset]

/-- Settles O52: the reset call gives `State.coldBoot`, whose memory is read by `Memory.read_ofImage`. -/
theorem resetLeavesColdBootState : Obligations.ResetLeavesColdBootState := by
  intro s image now rest hp ha hlen hnow
  refine ⟨{ State.coldBoot image now with agenda := rest, draws := s.draws, out := Outputs.silent }, ?_, ?_⟩
  · rw [step_call s _ rest hp ha, perform, if_neg (not_lt.mpr hnow), State.resetWith_some _ _ _ hlen]
    rfl
  · refine ⟨State.coldBoot_reg image now, rfl, rfl, rfl, ?_, rfl, rfl, Framebuffer.cell_blank, ?_, rfl, rfl, rfl, rfl, rfl, rfl,
      rfl, rfl, rfl, rfl, rfl, rfl, fun a => ?_⟩
    · simp [State.coldBoot, State.reset]
    · simp [State.pressed, State.coldBoot, State.reset]
    · rw [← Memory.base_eq]
      exact Memory.read_ofImage image hlen a

end Sys2Proof.Machine

/-! Memory and the fetch: the canonical form is kept by every step, a stored word and stored bytes are what the next engine step
fetches, and a fetch out of range changes the fault record alone. -/

namespace Sys2Proof.Machine

/-! ### The canonical form (R40) -/

/-- The memory is part of what the engine owns. -/
theorem MemoryCanonical.congr {s t : State} (h : t.engineOwned = s.engineOwned) (hs : MemoryCanonical s) :
    MemoryCanonical t := by
  change MemoryCanonical t.engineOwned
  rw [h]
  exact hs

theorem exec_memoryCanonical (i : Instr) (s t : State) (hs : MemoryCanonical s) (h : exec i s = .next t) :
    MemoryCanonical t := by
  obtain ⟨-, hkeep⟩ := writersOfMemoryAndFramebuffer i s t h
  cases i with
  | bcd x | stRegs x => cases h; exact Memory.wf_writeFrom s.i _ 0 s.mem hs
  | _ =>
    rw [MemoryCanonical, hkeep (by simp)]
    exact hs

theorem engineStep_memoryCanonical (s t : State) (hs : MemoryCanonical s) (h : engineStep s = .next t) :
    MemoryCanonical t := by
  obtain ⟨-, rfl⟩ | ⟨-, e, -, rfl⟩ | ⟨-, i, -, hx⟩ := engineStep_cases s t h
  · exact hs
  · exact hs
  · exact exec_memoryCanonical i (s.fetched _) t hs hx

/-- Settles O56, by who made the step: the engine, a reset, or an agent that leaves the memory alone. -/
theorem memoryCanonicalInvariant : Obligations.MemoryCanonicalInvariant := by
  intro s t hs h
  obtain ⟨u, hu, he⟩ | ⟨u, image, now, rfl⟩ | hkeep := step_engineOwned s t h
  · exact engineStep_memoryCanonical u t (.congr hu.engineOwned hs) he
  · exact u.wf_resetWith image now
  · exact .congr hkeep hs

/-! ### What is fetched after a store (R43, R55) -/

/-- The two bytes of a fetch stand at the first two effective addresses from `a` on. -/
theorem Memory.fetchWord_eq_ea (m : Memory) (a : Word) :
    m.fetchWord a = wordOfBytes (m.read (ea a 0)) (m.read (ea a 1)) := by
  have h0 : a.setWidth 12 = ea a 0 := by
    apply BitVec.eq_of_toNat_eq
    rw [ea_toNat, BitVec.toNat_setWidth, Nat.add_zero]
  have h1 : (a + 1#16).setWidth 12 = ea a 1 := by
    apply BitVec.eq_of_toNat_eq
    rw [ea_toNat, BitVec.toNat_setWidth, BitVec.toNat_add, Nat.mod_mod_of_dvd _ (by decide)]
    rfl
  rw [Memory.fetchWord, h0, h1]

/-- A word written at `a` is the word fetched at `a`. -/
theorem Memory.fetchWord_writeFrom (m : Memory) (hm : m.wf) (a w : Word) :
    (Memory.writeFrom a 0 (bytesOfWord w) m).fetchWord a = w := by
  have hread := Memory.read_writeFrom_inside a (bytesOfWord w) 0 m hm (by simp [bytesOfWord])
  have hhi := hread 0 (by simp [bytesOfWord])
  have hlo := hread 1 (by simp [bytesOfWord])
  rw [Memory.fetchWord_eq_ea, hhi, hlo]
  exact wordOfBytes_bytesOfWord w

/-- The word of a well-formed instruction decodes to it, by the law of its constructor. -/
theorem decodeWord_encode (i : Instr) (h : i.wellFormed = true) : decodeWord (encode i) = .ok i :=
  match i with
  | .cls => Laws.DecodeEncode.cls h
  | .ret => Laws.DecodeEncode.ret h
  | .jp nnn => Laws.DecodeEncode.jp nnn h
  | .call nnn => Laws.DecodeEncode.call nnn h
  | .seImm x nn => Laws.DecodeEncode.seImm x nn h
  | .sneImm x nn => Laws.DecodeEncode.sneImm x nn h
  | .seReg x y => Laws.DecodeEncode.seReg x y h
  | .ldImm x nn => Laws.DecodeEncode.ldImm x nn h
  | .addImm x nn => Laws.DecodeEncode.addImm x nn h
  | .ldReg x y => Laws.DecodeEncode.ldReg x y h
  | .orReg x y => Laws.DecodeEncode.orReg x y h
  | .andReg x y => Laws.DecodeEncode.andReg x y h
  | .xorReg x y => Laws.DecodeEncode.xorReg x y h
  | .addReg x y => Laws.DecodeEncode.addReg x y h
  | .sub x y => Laws.DecodeEncode.sub x y h
  | .shr x y => Laws.DecodeEncode.shr x y h
  | .subn x y => Laws.DecodeEncode.subn x y h
  | .shl x y => Laws.DecodeEncode.shl x y h
  | .sneReg x y => Laws.DecodeEncode.sneReg x y h
  | .ldI nnn => Laws.DecodeEncode.ldI nnn h
  | .jpV0 nnn => Laws.DecodeEncode.jpV0 nnn h
  | .rnd x nn => Laws.DecodeEncode.rnd x nn h
  | .drw x y n => Laws.DecodeEncode.drw x y n h
  | .skp x => Laws.DecodeEncode.skp x h
  | .sknp x => Laws.DecodeEncode.sknp x h
  | .ldVxDt x => Laws.DecodeEncode.ldVxDt x h
  | .ldVxK x => Laws.DecodeEncode.ldVxK x h
  | .ldDtVx x => Laws.DecodeEncode.ldDtVx x h
  | .ldStVx x => Laws.DecodeEncode.ldStVx x h
  | .addI x => Laws.DecodeEncode.addI x h
  | .ldF x => Laws.DecodeEncode.ldF x h
  | .bcd x => Laws.DecodeEncode.bcd x h
  | .stRegs x => Laws.DecodeEncode.stRegs x h
  | .ldRegs x => Laws.DecodeEncode.ldRegs x h
  | .malformed5 x y n => Laws.DecodeEncode.malformed5 x y n h
  | .malformed9 x y n => Laws.DecodeEncode.malformed9 x y n h

/-- The machine after `withFetchWord` fetches the stored word at `PC`. -/
theorem State.withFetchWord_fetchWord (s : State) (w : Word) (hm : s.mem.wf) :
    (s.withFetchWord 16 w.toNat).mem.fetchWord s.pc = w := by
  have hw : BitVec.ofNat 16 (w.toNat % 2 ^ 16) = w := by
    rw [Nat.mod_eq_of_lt w.isLt, BitVec.ofNat_toNat, BitVec.setWidth_eq]
  rw [State.withFetchWord, hw]
  exact Memory.fetchWord_writeFrom s.mem hm s.pc w

theorem State.withFetchWord_engineTurn (s : State) (nbits w : Nat) : EngineTurn (s.withFetchWord nbits w) :=
  ⟨rfl, rfl, rfl, rfl⟩

/-- An engine move runs the instruction to which the word at `PC` decodes (R64). -/
theorem EngineMove.step_ok {s u : State} (h : EngineMove s u) (w : Word) (i : Instr) (hpc : s.pc.toNat ≤ 0x0FFE)
    (hw : s.mem.fetchWord s.pc = w) (hd : decodeWord w = .ok i) : step s = exec i (u.fetched w) := by
  obtain ⟨hupc, humem⟩ := h.fetch
  have huw : u.mem.fetchWord u.pc = w := by rw [hupc, humem, hw]
  rw [step_engineMove s u h, engineStep_ok u i (by rw [hupc]; exact hpc) (by rw [huw]; exact hd), huw]

/-- Settles O9: the free run is an engine move, it fetches the stored word, and that word decodes to the instruction. -/
theorem storedWordIsRunNext : Obligations.StoredWordIsRunNext := by
  intro s i hm hpc hi
  exact EngineMove.step_ok (.free (s.withFetchWord_engineTurn 16 _)) (encode i) i hpc
    (s.withFetchWord_fetchWord (encode i) hm) (decodeWord_encode i hi)

theorem State.regBlock_eq_map (s : State) (x : Nibble) :
    s.regBlock x = (List.range (x.toNat + 1)).map (fun k => s.reg (BitVec.ofNat 4 k)) :=
  List.ext_getElem (by simp [State.regBlock_length]) fun k hk _ => by simp [State.regBlock_getElem s x k hk]

/-- After a store of at most 4096 bytes from `I` on, the word at any address is that of the bytes as the store leaves them,
whichever of the two the store has reached. -/
theorem State.fetchWord_afterStore (s : State) (hm : s.mem.wf) (stored : List Byte) (hlen : stored.length ≤ 4096) (a : Word) :
    (Memory.writeFrom s.i 0 stored s.mem).fetchWord a =
      s.byteAfterStore stored (ea a 0) ++ s.byteAfterStore stored (ea a 1) := by
  rw [Memory.fetchWord_eq_ea, s.read_writeFrom hm stored hlen, s.read_writeFrom hm stored hlen]
  rfl

/-- Settles O36: both instructions write a block of at most 16 bytes from `I` on and leave `PC`, so the engine move fetches the
word of `State.fetchWord_afterStore`. -/
theorem storeIsSeenByNextFetch : Obligations.StoreIsSeenByNextFetch := by
  intro s t u x stored hi lo i hm hpc hstore hmove hhi hlo hd
  obtain ⟨hlen, ht⟩ : stored.length ≤ 4096 ∧ t = s.setMem (Memory.writeFrom s.i 0 stored s.mem) := by
    obtain ⟨hx, rfl⟩ | ⟨hx, rfl⟩ := hstore
    · rw [← State.regBlock_eq_map, State.regBlock_length]
      cases hx
      exact ⟨by omega, rfl⟩
    · cases hx
      exact ⟨by simp, rfl⟩
  have hw : t.mem.fetchWord t.pc = hi ++ lo := by
    rw [ht, ← hhi, ← hlo]
    exact s.fetchWord_afterStore hm stored hlen s.pc
  have htpc : t.pc = s.pc := by rw [ht]; rfl
  obtain ⟨hupc, -⟩ := hmove.fetch
  rw [hmove.step_ok (hi ++ lo) i (by rw [htpc]; exact hpc) hw hd, State.fetched, hupc, htpc]

/-! ### The fetch fault (R47, R145) -/

/-- Fault entry writes the fault record alone (R149). -/
theorem State.raise_changesOnly (s : State) (code : FaultCode) (w a : Word) :
    ChangesOnly (fun c => c = .faultRecord) s (s.raise code w a) := by
  intro c hc
  cases c with
  | faultRecord => exact absurd rfl hc
  | keyWait | timing | turn => simp [Component.same]
  | _ => exact rfl

/-- Settles O10: the engine move raises the fault in the state in which it begins. -/
theorem fetchOutOfRangeFaults : Obligations.FetchOutOfRangeFaults := by
  intro s u hmove hpc
  obtain ⟨hupc, -⟩ := hmove.fetch
  rw [← hupc] at hpc ⊢
  rw [step_engineMove s u hmove, engineStep_outOfRange u hpc]
  exact ⟨_, rfl, rfl, rfl, rfl, rfl, u.raise_changesOnly _ _ _⟩

end Sys2Proof.Machine

/-! The decoder, the encoder and the opcode map, and what an engine move does with a word that decodes and with one that does
not. -/

namespace Sys2Proof

/-! ### Bytes and fields of a word (R43, R61) -/

theorem wordOfBytes_toNat (hi lo : Byte) : (wordOfBytes hi lo).toNat = 256 * hi.toNat + lo.toNat :=
  (toNat_append_eq hi lo).trans (by omega)

theorem bytesOfWord_wordOfBytes (hi lo : Byte) : bytesOfWord (wordOfBytes hi lo) = [hi, lo] := by
  have hlo := lo.isLt
  have h8 : (wordOfBytes hi lo).extractLsb' 8 8 = hi := by
    apply BitVec.eq_of_toNat_eq
    rw [BitVec.extractLsb'_toNat, wordOfBytes_toNat, Nat.shiftRight_eq_div_pow]
    omega
  have h0 : (wordOfBytes hi lo).extractLsb' 0 8 = lo := by
    apply BitVec.eq_of_toNat_eq
    rw [BitVec.extractLsb'_toNat, wordOfBytes_toNat, Nat.shiftRight_eq_div_pow]
    omega
  rw [bytesOfWord, h8, h0]

theorem fieldG_append_nnn (w : Word) : fieldG w ++ fieldNNN w = w := by
  apply BitVec.eq_of_toNat_eq
  rw [nnn_toNat, fieldG_toNat, fieldNNN_toNat]
  omega

theorem fieldG_append_xnn (w : Word) : fieldG w ++ fieldX w ++ fieldNN w = w := by
  apply BitVec.eq_of_toNat_eq
  rw [xnn_toNat, fieldG_toNat, fieldX_toNat, fieldNN_toNat]
  omega

theorem fieldG_append_xyn (w : Word) : fieldG w ++ fieldX w ++ fieldY w ++ fieldN w = w := by
  apply BitVec.eq_of_toNat_eq
  rw [xyn_toNat, fieldG_toNat, fieldX_toNat, fieldY_toNat, fieldN_toNat]
  omega

theorem fieldNN_eq_append (w : Word) : fieldNN w = fieldY w ++ fieldN w := by
  apply BitVec.eq_of_toNat_eq
  rw [toNat_append_eq, fieldNN_toNat, fieldY_toNat, fieldN_toNat]
  omega

theorem fieldNNN_eq_append (w : Word) : fieldNNN w = fieldX w ++ fieldY w ++ fieldN w := by
  apply BitVec.eq_of_toNat_eq
  rw [toNat_append_eq, toNat_append_eq, fieldNNN_toNat, fieldX_toNat, fieldY_toNat, fieldN_toNat]
  omega

/-- Settles O5, slice by slice. -/
theorem derivedFieldsAreSlices : Obligations.DerivedFieldsAreSlices :=
  ⟨fun hi lo => ⟨wordOfBytes_toNat hi lo, bytesOfWord_wordOfBytes hi lo⟩, fun w =>
    ⟨fieldG_toNat w, fieldNNN_toNat w, fieldNN_toNat w, fieldN_toNat w, fieldX_toNat w, fieldY_toNat w,
      fieldNNN_eq_append w, fieldNN_eq_append w, (fieldG_append_xyn w).symm⟩⟩

/-! ### The two round trips (R61, R62, R68, R71) -/

theorem decode_bytesOfWord (w : Word) (i : Instr) (rest : List Byte) (h : decodeWord w = .ok i) :
    decode (bytesOfWord w ++ rest) = .ok (i, rest) := by
  simp only [bytesOfWord, List.cons_append, List.nil_append, decode, wordOfBytes_bytesOfWord, h]

/-- Settles O1: the word decodes by `decodeWord_encode`, and its bytes put together are the word. -/
theorem decodeEncodeRoundTrip : Obligations.DecodeEncodeRoundTrip := by
  intro i hi
  have hw := Machine.decodeWord_encode i hi
  exact ⟨hw, fun rest => decode_bytesOfWord (encode i) i rest hw⟩

/-- A word of format `NNN` is its group and its address. -/
theorem nnn_of_group {w : Word} {k : Nat} (hg : (fieldG w).toNat = k) : BitVec.ofNat 4 k ++ fieldNNN w = w := by
  rw [← hg, BitVec.ofNat_toNat, BitVec.setWidth_eq, fieldG_append_nnn]

/-- A word of format `XNN` is its group, its register and its byte. -/
theorem xnn_of_group {w : Word} {k : Nat} (hg : (fieldG w).toNat = k) :
    BitVec.ofNat 4 k ++ fieldX w ++ fieldNN w = w := by
  rw [← hg, BitVec.ofNat_toNat, BitVec.setWidth_eq, fieldG_append_xnn]

/-- A word of format `XYN` is its group, its registers and its low nibble. -/
theorem xyn_of_group {w : Word} {k : Nat} (hg : (fieldG w).toNat = k) :
    BitVec.ofNat 4 k ++ fieldX w ++ fieldY w ++ fieldN w = w := by
  rw [← hg, BitVec.ofNat_toNat, BitVec.setWidth_eq, fieldG_append_xyn]

/-- A word of format `XFF` is its group, its register and its function code. -/
theorem xff_of_code {w : Word} {k c : Nat} (hg : (fieldG w).toNat = k) (hc : (fieldNN w).toNat = c) :
    BitVec.ofNat 4 k ++ fieldX w ++ BitVec.ofNat 8 c = w := by
  rw [← hc, BitVec.ofNat_toNat, BitVec.setWidth_eq, xnn_of_group hg]

/-- A word of format `XYN` with a function code in its low nibble. -/
theorem xyc_of_code {w : Word} {k c : Nat} (hg : (fieldG w).toNat = k) (hc : (fieldN w).toNat = c) :
    BitVec.ofNat 4 k ++ fieldX w ++ fieldY w ++ BitVec.ofNat 4 c = w := by
  rw [← hc, BitVec.ofNat_toNat, BitVec.setWidth_eq, xyn_of_group hg]

theorem encode_of_decodeGroup0 {w : Word} {i : Instr} (h : decodeGroup0 w = .ok i) : i.wellFormed = true ∧ encode i = w := by
  unfold decodeGroup0 at h
  split_ifs at h with hcls hret <;> cases h
  · exact ⟨rfl, hcls.symm⟩
  · exact ⟨rfl, hret.symm⟩

theorem encode_of_decodeGroup8 {w : Word} {i : Instr} (hg : (fieldG w).toNat = 0x8) (h : decodeGroup8 w = .ok i) :
    i.wellFormed = true ∧ encode i = w := by
  unfold decodeGroup8 at h
  split at h <;> cases h <;> exact ⟨rfl, xyc_of_code hg ‹_›⟩

theorem encode_of_decodeGroupE {w : Word} {i : Instr} (hg : (fieldG w).toNat = 0xE) (h : decodeGroupE w = .ok i) :
    i.wellFormed = true ∧ encode i = w := by
  unfold decodeGroupE at h
  split at h <;> cases h <;> exact ⟨rfl, xff_of_code hg ‹_›⟩

theorem encode_of_decodeGroupF {w : Word} {i : Instr} (hg : (fieldG w).toNat = 0xF) (h : decodeGroupF w = .ok i) :
    i.wellFormed = true ∧ encode i = w := by
  unfold decodeGroupF at h
  split at h <;> cases h <;> exact ⟨rfl, xff_of_code hg ‹_›⟩

/-- A decoded word of group 5 or 9 has either its low nibble 0 or its low nibble in the malformed instruction (R67). -/
theorem decoded_of_nibble {w : Word} {i plain malformed : Instr}
    (h : (if fieldN w = 0 then Except.ok plain else Except.ok malformed : Except DecodeError Instr) = .ok i) :
    (fieldN w = 0 ∧ i = plain) ∨ (fieldN w ≠ 0 ∧ i = malformed) := by
  split_ifs at h with hn <;> cases h
  · exact .inl ⟨hn, rfl⟩
  · exact .inr ⟨hn, rfl⟩

/-- Settles O2, by the dispatch on the group, from 0 to F (R65): the format of each group keeps every field of the word. -/
theorem encodeDecodeRoundTrip : Obligations.EncodeDecodeRoundTrip := by
  intro w i h
  have hlt := (fieldG w).isLt
  unfold decodeWord at h
  generalize hg : (fieldG w).toNat = g at h hlt
  interval_cases g
  · exact encode_of_decodeGroup0 h
  · cases h; exact ⟨rfl, nnn_of_group hg⟩
  · cases h; exact ⟨rfl, nnn_of_group hg⟩
  · cases h; exact ⟨rfl, xnn_of_group hg⟩
  · cases h; exact ⟨rfl, xnn_of_group hg⟩
  · obtain ⟨hn, rfl⟩ | ⟨hn, rfl⟩ := decoded_of_nibble h
    · exact ⟨rfl, xyc_of_code hg (congrArg BitVec.toNat hn)⟩
    · exact ⟨bne_iff_ne.mpr hn, xyn_of_group hg⟩
  · cases h; exact ⟨rfl, xnn_of_group hg⟩
  · cases h; exact ⟨rfl, xnn_of_group hg⟩
  · exact encode_of_decodeGroup8 hg h
  · obtain ⟨hn, rfl⟩ | ⟨hn, rfl⟩ := decoded_of_nibble h
    · exact ⟨rfl, xyc_of_code hg (congrArg BitVec.toNat hn)⟩
    · exact ⟨bne_iff_ne.mpr hn, xyn_of_group hg⟩
  · cases h; exact ⟨rfl, nnn_of_group hg⟩
  · cases h; exact ⟨rfl, nnn_of_group hg⟩
  · cases h; exact ⟨rfl, xnn_of_group hg⟩
  · cases h; exact ⟨rfl, xyn_of_group hg⟩
  · exact encode_of_decodeGroupE hg h
  · exact encode_of_decodeGroupF hg h

/-! ### Selection by mask and match (R71) -/

theorem fieldG_and (w m : Word) : fieldG (w &&& m) = fieldG w &&& fieldG m := BitVec.extractLsb'_and

theorem fieldNN_and (w m : Word) : fieldNN (w &&& m) = fieldNN w &&& fieldNN m := BitVec.extractLsb'_and

theorem fieldN_and (w m : Word) : fieldN (w &&& m) = fieldN w &&& fieldN m := BitVec.extractLsb'_and

/-- The mask of formats `NNN`, `XNN` and `XYN` without a function code keeps the group. -/
theorem and_groupMask (w : Word) : w &&& 0xF000#16 = fieldG w ++ 0x000#12 := by
  have hmask : 0xF000#16 = BitVec.allOnes 4 ++ 0x000#12 := rfl
  conv_lhs => rw [← fieldG_append_nnn w, hmask, BitVec.and_append, BitVec.and_allOnes, BitVec.and_zero]

/-- The mask of format `XYN` with a function code keeps the group and the low nibble. -/
theorem and_nibbleMask (w : Word) : w &&& 0xF00F#16 = fieldG w ++ 0x0#4 ++ 0x0#4 ++ fieldN w := by
  have hmask : 0xF00F#16 = BitVec.allOnes 4 ++ 0x0#4 ++ 0x0#4 ++ BitVec.allOnes 4 := rfl
  conv_lhs => rw [← fieldG_append_xyn w, hmask, BitVec.and_append, BitVec.and_append, BitVec.and_append, BitVec.and_allOnes,
    BitVec.and_allOnes, BitVec.and_zero, BitVec.and_zero]

/-- The mask of format `XFF` keeps the group and the low byte. -/
theorem and_byteMask (w : Word) : w &&& 0xF0FF#16 = fieldG w ++ 0x0#4 ++ fieldNN w := by
  have hmask : 0xF0FF#16 = BitVec.allOnes 4 ++ 0x0#4 ++ BitVec.allOnes 8 := rfl
  conv_lhs => rw [← fieldG_append_xnn w, hmask, BitVec.and_append, BitVec.and_append, BitVec.and_allOnes, BitVec.and_allOnes,
    BitVec.and_zero]

/-- No two rows have the same mnemonic: a row is found by its own. -/
theorem find_row_of_mnemonic : ∀ r ∈ opcodeMap, opcodeMap.find? (fun q => q.mnemonic == r.mnemonic) = some r := by decide

/-- The word of an instruction is one that the row of its mnemonic selects. -/
theorem encode_and_mask (i : Instr) (r : OpcodeRow) (hr : r ∈ opcodeMap) (h : i.mnemonic = r.mnemonic) :
    encode i &&& r.mask = r.pattern := by
  have hrow := find_row_of_mnemonic r hr
  rw [← h] at hrow
  clear h hr
  cases i with
  | cls | ret => cases hrow; rfl
  | jp | call | seImm | sneImm | ldImm | addImm | ldI | jpV0 | rnd | drw => cases hrow; simp [encode, and_groupMask]
  | seReg | sneReg | ldReg | orReg | andReg | xorReg | addReg | sub | shr | subn | shl =>
    cases hrow; simp [encode, and_nibbleMask]
  | skp | sknp | ldVxDt | ldVxK | ldDtVx | ldStVx | addI | ldF | bcd | stRegs | ldRegs =>
    cases hrow; simp [encode, and_byteMask]
  | malformed5 | malformed9 => cases hrow

/-- A mask that keeps a field of the word fixes it. -/
theorem fields_of_and_eq {w m p : Word} (h : w &&& m = p) :
    (m.toNat = 0xFFFF → w = p) ∧
    (m.toNat / 4096 = 0xF → (fieldG w).toNat = p.toNat / 4096) ∧
    (m.toNat % 16 = 0xF → (fieldN w).toNat = p.toNat % 16) ∧
    (m.toNat % 256 = 0xFF → (fieldNN w).toNat = p.toNat % 256) := by
  rw [← fieldG_toNat, ← fieldG_toNat, ← fieldN_toNat, ← fieldN_toNat, ← fieldNN_toNat, ← fieldNN_toNat, ← h, fieldG_and,
    fieldN_and, fieldNN_and]
  refine ⟨fun hm => ?_, fun hm => ?_, fun hm => ?_, fun hm => ?_⟩
  · rw [show m = BitVec.allOnes 16 from BitVec.eq_of_toNat_eq hm, BitVec.and_allOnes]
  · rw [show fieldG m = BitVec.allOnes 4 from BitVec.eq_of_toNat_eq hm, BitVec.and_allOnes]
  · rw [show fieldN m = BitVec.allOnes 4 from BitVec.eq_of_toNat_eq hm, BitVec.and_allOnes]
  · rw [show fieldNN m = BitVec.allOnes 8 from BitVec.eq_of_toNat_eq hm, BitVec.and_allOnes]

/-- A word that a row selects decodes to an instruction of the row: the mask keeps every field on which the dispatch of R65
depends in the group of the row. -/
theorem decodeWord_of_selected (w : Word) (r : OpcodeRow) (hr : r ∈ opcodeMap) (h : w &&& r.mask = r.pattern) :
    ∃ i, decodeWord w = .ok i ∧ i.mnemonic = r.mnemonic := by
  obtain ⟨hw, hg, hn, hnn⟩ := fields_of_and_eq h
  fin_cases hr
  · cases hw rfl; exact ⟨.cls, rfl, rfl⟩
  · cases hw rfl; exact ⟨.ret, rfl, rfl⟩
  all_goals
    simp [decodeWord, decodeGroup8, decodeGroupE, decodeGroupF, Instr.mnemonic, BitVec.toNat_eq, hg, hn, hnn]

/-- Settles O3: a decoded word is the word of its instruction, which lies in the row of its mnemonic, and a word in two rows would
decode to two mnemonics. -/
theorem opcodeMapSelectsExactly : Obligations.OpcodeMapSelectsExactly := by
  have hnames : opcodeMap.Pairwise fun r q => r.mnemonic ≠ q.mnemonic := by decide
  refine ⟨fun w r hr => ⟨?_, decodeWord_of_selected w r hr⟩, ?_⟩
  · rintro ⟨i, hd, hi⟩
    obtain ⟨-, rfl⟩ := encodeDecodeRoundTrip w i hd
    exact encode_and_mask i r hr hi
  · refine List.Pairwise.imp_of_mem (fun {r q} hr hq hne w ⟨hwr, hwq⟩ => hne ?_) hnames
    obtain ⟨i, hd, hi⟩ := decodeWord_of_selected w r hr hwr
    obtain ⟨j, hd', hj⟩ := decodeWord_of_selected w q hq hwq
    cases hd.symm.trans hd'
    exact hi.symm.trans hj

/-! ### Illegal and malformed words (R65 to R67) -/

/-- The words of R66, group by group. -/
def IllegalWord (w : Word) : Prop :=
  (w.toNat / 4096 = 0x0 ∧ w ≠ 0x00E0#16 ∧ w ≠ 0x00EE#16) ∨
  (w.toNat / 4096 = 0x8 ∧ w.toNat % 16 ∈ [0x8, 0x9, 0xA, 0xB, 0xC, 0xD, 0xF]) ∨
  (w.toNat / 4096 = 0xE ∧ w.toNat % 256 ∉ [0x9E, 0xA1]) ∨
  (w.toNat / 4096 = 0xF ∧ w.toNat % 256 ∉ [0x07, 0x0A, 0x15, 0x18, 0x1E, 0x29, 0x33, 0x55, 0x65])

theorem decodeGroup0_error (w : Word) (e : DecodeError) :
    decodeGroup0 w = .error e ↔ (w ≠ 0x00E0#16 ∧ w ≠ 0x00EE#16) ∧ .illegalOpcode w = e := by
  unfold decodeGroup0
  split_ifs <;> simp [*]

theorem decodeGroup8_error (w : Word) (e : DecodeError) :
    decodeGroup8 w = .error e ↔ w.toNat % 16 ∈ [0x8, 0x9, 0xA, 0xB, 0xC, 0xD, 0xF] ∧ .illegalOpcode w = e := by
  have hlt : w.toNat % 16 < 16 := Nat.mod_lt _ (by decide)
  unfold decodeGroup8
  rw [fieldN_toNat]
  generalize w.toNat % 16 = n at hlt ⊢
  interval_cases n <;> simp

theorem decodeGroupE_error (w : Word) (e : DecodeError) :
    decodeGroupE w = .error e ↔ w.toNat % 256 ∉ [0x9E, 0xA1] ∧ .illegalOpcode w = e := by
  unfold decodeGroupE
  rw [fieldNN_toNat]
  split <;> simp_all

theorem decodeGroupF_error (w : Word) (e : DecodeError) :
    decodeGroupF w = .error e ↔
      w.toNat % 256 ∉ [0x07, 0x0A, 0x15, 0x18, 0x1E, 0x29, 0x33, 0x55, 0x65] ∧ .illegalOpcode w = e := by
  unfold decodeGroupF
  rw [fieldNN_toNat]
  split <;> simp_all

theorem ite_ok_ne_error (c : Prop) [Decidable c] (i j : Instr) (e : DecodeError) :
    (if c then Except.ok i else Except.ok j) ≠ Except.error e := by
  split <;> simp

/-- The decoder rejects exactly the words of R66, each by its own name. -/
theorem decodeWord_error (w : Word) (e : DecodeError) :
    decodeWord w = .error e ↔ IllegalWord w ∧ .illegalOpcode w = e := by
  have hlt : w.toNat / 4096 < 16 := fieldG_toNat w ▸ (fieldG w).isLt
  unfold decodeWord IllegalWord
  rw [fieldG_toNat]
  generalize w.toNat / 4096 = g at hlt ⊢
  interval_cases g <;>
    simp [decodeGroup0_error, decodeGroup8_error, decodeGroupE_error, decodeGroupF_error, ite_ok_ne_error]

/-- The malformed words of R67, group 5 and group 9. -/
theorem decodeWord_malformed (w : Word) :
    ((∃ x y n, decodeWord w = .ok (.malformed5 x y n)) ↔ w.toNat / 4096 = 0x5 ∧ w.toNat % 16 ≠ 0) ∧
    ((∃ x y n, decodeWord w = .ok (.malformed9 x y n)) ↔ w.toNat / 4096 = 0x9 ∧ w.toNat % 16 ≠ 0) := by
  rw [← fieldG_toNat, ← fieldN_toNat]
  refine ⟨⟨?decoded5, ?word5⟩, ⟨?decoded9, ?word9⟩⟩
  case decoded5 | decoded9 =>
    rintro ⟨x, y, n, h⟩
    obtain ⟨hn, rfl⟩ := encodeDecodeRoundTrip w _ h
    simpa [encode, Instr.wellFormed, BitVec.toNat_eq] using hn
  case word5 | word9 =>
    rintro ⟨hg, hn⟩
    exact ⟨_, _, _, by rw [decodeWord, hg]; exact if_neg fun h => hn (congrArg BitVec.toNat h)⟩

/-- Settles O4: the decoder's errors are those of `decodeWord_error`, and malformed words are no errors. -/
theorem illegalAndMalformedWords : Obligations.IllegalAndMalformedWords := by
  intro w
  obtain ⟨h5, h9⟩ := decodeWord_malformed w
  refine ⟨(decodeWord_error w _).trans (and_iff_left rfl), h5, h9, fun e h => ?_⟩
  obtain ⟨-, he⟩ := (decodeWord_error w e).mp h
  exact he.symm

/-- Settles O6: the decoder evaluates each word. -/
theorem sampleWordsDecode : Obligations.SampleWordsDecode := by
  unfold Obligations.SampleWordsDecode
  decide

end Sys2Proof

namespace Sys2Proof.Machine

/-! ### The engine step (R64, R66) -/

/-- Settles O7: the free run is an engine move, and the two bytes are the word that it fetches. -/
theorem stepRunsDecodedInstruction : Obligations.StepRunsDecodedInstruction := by
  rintro s hi lo i hturn hpc rfl rfl hd
  exact EngineMove.step_ok (.free hturn) _ i hpc (s.mem.fetchWord_eq_ea s.pc) hd

/-- Settles O8: both are engine moves, which differ in what they pay. -/
theorem scheduledStepRunsDecodedInstruction : Obligations.ScheduledStepRunsDecodedInstruction := by
  intro s i hrun hpc hd
  exact ⟨fun hp hb => EngineMove.step_ok (.timed hp hrun hb) _ i hpc rfl hd, fun left tick hp =>
    EngineMove.step_ok (.block left tick hp hrun) _ i hpc rfl hd⟩

/-- The fetch phase writes `IR` and `PC` alone (R64). -/
theorem ChangesOnly.of_fetched {s t : State} {w : Word} {written : Component → Prop}
    (h : ChangesOnly written (s.fetched w) t) : ChangesOnly (fun c => written c ∨ c = .ir ∨ c = .pc) s t := by
  intro c hc
  have hsame := h c fun hw => hc (.inl hw)
  cases c with
  | ir => exact absurd (.inr (.inl rfl)) hc
  | pc => exact absurd (.inr (.inr rfl)) hc
  | _ => exact hsame

/-- Settles O11: the engine move fetches the word and raises the fault in the fetched state. -/
theorem illegalOpcodeFaults : Obligations.IllegalOpcodeFaults := by
  intro s u hmove hpc hd
  obtain ⟨hupc, humem⟩ := hmove.fetch
  rw [← hupc] at hpc
  rw [← hupc, ← humem] at hd ⊢
  rw [step_engineMove s u hmove, engineStep_illegal u _ hpc hd]
  exact ⟨_, rfl, rfl, rfl, rfl, rfl, rfl, pc_add_two_toNat u hpc, .of_fetched ((u.fetched _).raise_changesOnly _ _ _)⟩

end Sys2Proof.Machine

/-! Jumps, calls and returns: what each writes, and the obligations of 40_flow.md on them. -/

namespace Sys2Proof.Machine

/-! ### Frames one after another -/

theorem Component.same_trans {s t u : State} {c : Component} (hst : c.same s t) (htu : c.same t u) : c.same s u := by
  cases c with
  | keyWait =>
    obtain ⟨hvalid, hkey⟩ := hst
    exact htu.imp (·.trans hvalid) (·.trans hkey)
  | turn =>
    obtain ⟨hphase, hagenda⟩ := hst
    exact htu.imp (·.trans hphase) (·.trans hagenda)
  | faultRecord | timing =>
    obtain ⟨h1, h2, h3, h4⟩ := hst
    exact htu.imp (·.trans h1) (.imp (·.trans h2) (.imp (·.trans h3) (·.trans h4)))
  | _ => exact Eq.trans htu hst

/-- Two writes one after another change what either of them changes. -/
theorem ChangesOnly.trans {s t u : State} {first second : Component → Prop} (hst : ChangesOnly first s t)
    (htu : ChangesOnly second t u) : ChangesOnly (fun c => second c ∨ first c) s u := fun c hc =>
  Component.same_trans (hst c fun h => hc (.inr h)) (htu c fun h => hc (.inl h))

/-! ### `PC` and the call stack (R23, R24) -/

theorem State.setPc_changesOnly (s : State) (w : Word) : ChangesOnly (fun c => c = .pc) s (s.setPc w) := by
  intro c hc
  cases c with
  | pc => exact absurd rfl hc
  | keyWait | faultRecord | timing | turn => simp [Component.same]
  | _ => exact rfl

/-- A pop leaves the bits of the entry (R24). -/
theorem State.popped_changesOnly (s : State) : ChangesOnly (fun c => c = .sp) s s.popped := by
  intro c hc
  cases c with
  | sp => exact absurd rfl hc
  | keyWait | faultRecord | timing | turn => simp [Component.same]
  | _ => exact rfl

theorem State.popped_sp_of_succ (s : State) {j : Nat} (h : s.sp.val = j + 1) : s.popped.sp.val = j :=
  Nat.sub_eq_of_eq_add h

theorem State.pushed_changesOnly (s : State) (w : Word) (h : s.sp.val < 16) :
    ChangesOnly (fun c => c = .sp ∨ c = .stackEntry ⟨s.sp.val, h⟩) s (s.pushed w h) := by
  intro c hc
  cases c with
  | sp => exact absurd (.inl rfl) hc
  | stackEntry j =>
    have hj : s.sp.val ≠ j.val := fun hj => hc (.inr (congrArg Component.stackEntry (Fin.ext hj.symm)))
    exact Vector.getElem_set_ne h j.isLt hj
  | keyWait | faultRecord | timing | turn => simp [Component.same]
  | _ => exact rfl

/-! ### What calls and returns do (R80, R82) -/

theorem exec_ret_of_succ (s : State) (j : Fin 16) (h : s.sp.val = j.val + 1) :
    exec .ret s = .next (s.popped.setPc s.stack[j.val]) := by
  simp only [exec, execRet, s.pop_some (by omega), h, Nat.add_sub_cancel]

theorem exec_ret_of_empty (s : State) (h : s.sp.val = 0) :
    exec .ret s = .next (s.raise .stackUnderflow s.ir s.instrAddr) := by
  simp only [exec, execRet, s.pop_empty h]

theorem exec_call_of_lt (s : State) (nnn : Addr) (h : s.sp.val < 16) :
    exec (.call nnn) s = .next ((s.pushed s.pc h).setPc (immAddr nnn)) := by
  simp only [exec, execCall, s.push_some _ h]

theorem exec_call_of_full (s : State) (nnn : Addr) (h : s.sp.val = 16) :
    exec (.call nnn) s = .next (s.raise .stackOverflow s.ir s.instrAddr) := by
  simp only [exec, execCall, s.push_full _ h]

/-! ### The obligations of 40_flow.md -/

/-- Settles O13: a pop that is followed by the write of `PC`, or fault entry. -/
theorem returnPopsOrUnderflows : Obligations.ReturnPopsOrUnderflows := by
  refine ⟨decodeWord_encode .ret rfl, fun s => ⟨fun j hj => ?pops, fun h0 => ?underflows⟩⟩
  case pops =>
    exact ⟨_, exec_ret_of_succ s j hj, rfl, s.popped_sp_of_succ hj,
      s.popped_changesOnly.trans (s.popped.setPc_changesOnly _)⟩
  case underflows =>
    exact ⟨_, exec_ret_of_empty s h0, rfl, rfl, rfl, rfl, s.raise_changesOnly _ _ _⟩

/-- Settles O15: a push that is followed by the write of `PC`, or fault entry. -/
theorem callPushesOrOverflows : Obligations.CallPushesOrOverflows := by
  refine fun s nnn => ⟨decodeWord_encode (.call nnn) rfl, fun j hj => ?pushes, fun h16 => ?overflows⟩
  case pushes =>
    obtain ⟨j, hlt⟩ := j
    obtain rfl : s.sp.val = j := hj
    exact ⟨_, exec_call_of_lt s nnn hlt, Vector.getElem_set_self hlt, rfl, immAddr_toNat nnn,
      (s.pushed_changesOnly s.pc hlt).trans ((s.pushed s.pc hlt).setPc_changesOnly _)⟩
  case overflows =>
    exact ⟨_, exec_call_of_full s nnn h16, rfl, rfl, rfl, rfl, s.raise_changesOnly _ _ _⟩

/-- Settles O16: the entry that the call wrote is the one that the return reads, and the entries below it are as before. -/
theorem callThenReturnRoundTrip : Obligations.CallThenReturnRoundTrip := by
  intro s t t' nnn hlt hcall hsp hstack
  cases (exec_call_of_lt s nnn hlt).symm.trans hcall
  have hstack : t'.stack = s.stack.set s.sp.val s.pc hlt := hstack
  have hret : t'.sp.val = s.sp.val + 1 := congrArg Fin.val hsp
  refine ⟨_, exec_ret_of_succ t' ⟨s.sp.val, hlt⟩ hret, ?pc, ?sp, fun j hj => ?below⟩
  case pc =>
    simp only [State.setPc_pc, hstack, Vector.getElem_set_self]
  case sp =>
    exact Fin.ext (t'.popped_sp_of_succ hret)
  case below =>
    simp only [State.setPc_stack, State.popped_stack, hstack]
    exact Vector.getElem_set_ne hlt j.isLt (Nat.ne_of_gt hj)

/-- The sum of `BNNN` stays below 2^16 (R83). -/
theorem jpV0_target_toNat (s : State) (nnn : Addr) :
    (immAddr nnn + s.regWord 0x0#4).toNat = nnn.toNat + (s.reg 0x0#4).toNat := by
  have := nnn.isLt
  have := (s.reg 0x0#4).isLt
  rw [BitVec.toNat_add, immAddr_toNat, State.regWord_toNat]
  omega

/-- Settles O14: both jumps are one write of `PC`. -/
theorem jumpsSetPc : Obligations.JumpsSetPc := fun s nnn =>
  ⟨decodeWord_encode (.jp nnn) rfl, decodeWord_encode (.jpV0 nnn) rfl,
    ⟨_, rfl, immAddr_toNat nnn, s.setPc_changesOnly _⟩, ⟨_, rfl, jpV0_target_toNat s nnn, s.setPc_changesOnly _⟩⟩

end Sys2Proof.Machine

/-! Conditional skips and malformed words: what each writes, and the obligations of 41_skip.md on them. -/

namespace Sys2Proof.Machine

/-! ### What a skip and the diagnostic write (R23, R89) -/

/-- A skip that is not taken writes the `PC` that is there. -/
theorem State.skipIf_eq_setPc (s : State) (c : Bool) : s.skipIf c = s.setPc (if c then s.pc + 2#16 else s.pc) := by
  cases c <;> rfl

theorem State.skipIf_changesOnly (s : State) (b : Bool) : ChangesOnly (fun c => c = .pc) s (s.skipIf b) :=
  s.skipIf_eq_setPc b ▸ s.setPc_changesOnly _

/-- The diagnostic is an output signal and no state of the machine (R35 (d)). -/
theorem State.diagMalformed_changesOnly (s : State) : ChangesOnly (fun c => c = .outputs) s s.diagMalformed := by
  intro c hc
  cases c with
  | outputs => exact absurd rfl hc
  | keyWait | faultRecord | timing | turn => simp [Component.same]
  | _ => exact rfl

/-- An instruction that is one conditional skip, `taken` and `notTaken` being what decides its condition. -/
theorem exec_skips {i : Instr} {s : State} {b : Bool} {taken notTaken : Prop} (hexec : exec i s = .next (s.skipIf b))
    (htaken : taken → b = true) (hnot : notTaken → b = false) :
    ∃ t, exec i s = .next t ∧ (taken → t.pc = s.pc + 2#16) ∧ (notTaken → t.pc = s.pc) ∧
      ChangesOnly (fun c => c = .pc) s t :=
  ⟨_, hexec, fun h => by simp [htaken h], fun h => by simp [hnot h], s.skipIf_changesOnly b⟩

/-! ### The obligations of 41_skip.md -/

/-- Settles O17: each of the four is one conditional skip, on an equality or an inequality of bytes. -/
theorem registerSkips : Obligations.RegisterSkips := fun _ x y nn =>
  ⟨decodeWord_encode (.seImm x nn) rfl, decodeWord_encode (.sneImm x nn) rfl,
    decodeWord_encode (.seReg x y) rfl, decodeWord_encode (.sneReg x y) rfl,
    exec_skips rfl beq_iff_eq.mpr beq_eq_false_iff_ne.mpr,
    exec_skips rfl bne_iff_ne.mpr bne_eq_false_iff_eq.mpr,
    exec_skips rfl beq_iff_eq.mpr beq_eq_false_iff_ne.mpr,
    exec_skips rfl bne_iff_ne.mpr bne_eq_false_iff_eq.mpr⟩

/-- Settles O18: with a nonzero low nibble both are well formed (R67), and the policy of both is the pulse alone. -/
theorem malformedWordsAreIgnored : Obligations.MalformedWordsAreIgnored := by
  intro s x y n hn
  have hwf : (n != 0x0#4) = true := bne_iff_ne.mpr hn
  refine ⟨decodeWord_encode (.malformed5 x y n) hwf, decodeWord_encode (.malformed9 x y n) hwf, fun i hi => ?ignored⟩
  case ignored =>
    have hexec : exec i s = .next s.diagMalformed := by
      obtain rfl | rfl : i = .malformed5 x y n ∨ i = .malformed9 x y n := by simpa using hi
      · rfl
      · rfl
    exact ⟨_, hexec, rfl, s.diagMalformed_changesOnly⟩

end Sys2Proof.Machine

/-! Immediate loads, index arithmetic and random: what each writes, and the obligations of 42_immediate.md and 46_timer_index.md on
them. -/

namespace Sys2Proof.Machine

/-! ### One register, `I`, and the count of draws as the only component written (R20, R22, R93) -/

theorem State.setReg_changesOnly (s : State) (x : Nibble) (b : Byte) :
    ChangesOnly (fun c => c = .reg x) s (s.setReg x b) := by
  intro c hc
  cases c with
  | reg z => exact s.reg_setReg_of_ne x z b fun hxz => hc (congrArg Component.reg hxz.symm)
  | keyWait | faultRecord | timing | turn => simp [Component.same]
  | _ => exact rfl

theorem State.setI_changesOnly (s : State) (w : Word) : ChangesOnly (fun c => c = .i) s (s.setI w) := by
  intro c hc
  cases c with
  | i => exact absurd rfl hc
  | keyWait | faultRecord | timing | turn => simp [Component.same]
  | _ => exact rfl

theorem State.drawn_changesOnly (s : State) : ChangesOnly (fun c => c = .draws) s s.drawn := by
  intro c hc
  cases c with
  | draws => exact absurd rfl hc
  | keyWait | faultRecord | timing | turn => simp [Component.same]
  | _ => exact rfl

/-! ### The values written (R22, R91, R93, R124) -/

theorem State.reg_setReg_self (s : State) (x : Nibble) (b : Byte) : (s.setReg x b).reg x = b := by
  rw [State.reg_setReg, if_pos rfl]

/-- The address of a glyph stays below 2^16 for all 256 values of `V[x]` (R124). -/
theorem State.glyphAddr_toNat (s : State) (x : Nibble) : (s.glyphAddr x).toNat = 0x050 + 5 * (s.reg x).toNat := by
  have := (s.reg x).isLt
  have hlt : fontBase + 5 * (s.reg x).toNat < 2 ^ 16 := by
    unfold fontBase
    omega
  exact (BitVec.toNat_ofNat _ _).trans (Nat.mod_eq_of_lt hlt)

theorem State.index_add_regWord_toNat (s : State) (x : Nibble) :
    (s.i + s.regWord x).toNat = (s.i.toNat + (s.reg x).toNat) % 65536 := by
  rw [BitVec.toNat_add, State.regWord_toNat]

/-! ### Instructions that are one write -/

/-- An instruction that is one write of `V[x]`. -/
theorem exec_writesReg {i : Instr} {s : State} {x : Nibble} {b : Byte} (hexec : exec i s = .next (s.setReg x b)) :
    ∃ t, exec i s = .next t ∧ t.reg x = b ∧ ChangesOnly (fun c => c = .reg x) s t :=
  ⟨_, hexec, s.reg_setReg_self x b, s.setReg_changesOnly x b⟩

/-- An instruction that is one write of `I`, `n` being the value written as a number. -/
theorem exec_writesIndex {i : Instr} {s : State} {w : Word} {n : Nat} (hexec : exec i s = .next (s.setI w))
    (hn : w.toNat = n) : ∃ t, exec i s = .next t ∧ t.i.toNat = n ∧ ChangesOnly (fun c => c = .i) s t :=
  ⟨_, hexec, hn, s.setI_changesOnly w⟩

/-! ### The obligations of 42_immediate.md -/

/-- Settles O19: each of the three is one write of `V[x]`, and the sum of two bytes wraps (R5). -/
theorem registerLoads : Obligations.RegisterLoads := by
  intro s x y nn
  refine ⟨decodeWord_encode (.ldImm x nn) rfl, decodeWord_encode (.addImm x nn) rfl, decodeWord_encode (.ldReg x y) rfl,
    exec_writesReg rfl, exec_writesReg rfl, _, rfl, ?wraps, s.setReg_changesOnly x _⟩
  case wraps =>
    rw [State.reg_setReg_self, BitVec.toNat_add]

/-- Settles O20: each of the three is one write of `I`. -/
theorem indexArithmetic : Obligations.IndexArithmetic := fun s nnn x =>
  ⟨decodeWord_encode (.ldI nnn) rfl, decodeWord_encode (.addI x) rfl, decodeWord_encode (.ldF x) rfl,
    exec_writesIndex rfl (immAddr_toNat nnn), exec_writesIndex rfl (s.index_add_regWord_toNat x),
    exec_writesIndex rfl (s.glyphAddr_toNat x)⟩

/-- Settles O21: the write of `V[x]`, then the count of the draw. -/
theorem randomIsMaskedDraw : Obligations.RandomIsMaskedDraw := by
  intro s x nn
  have hreg : (s.setReg x (Config.randomByte s.draws &&& nn)).drawn.reg x = Config.randomByte s.draws &&& nn :=
    s.reg_setReg_self x _
  refine ⟨decodeWord_encode (.rnd x nn) rfl, _, _, rfl, rfl, rfl, hreg, fun k hk => ?masked, fun c hc => ?frame⟩
  case masked =>
    rw [hreg, BitVec.getLsbD_and, hk, Bool.and_false]
  case frame =>
    exact (s.setReg_changesOnly x _).trans (State.drawn_changesOnly _) c fun h => hc h.symm

end Sys2Proof.Machine

/-! The register-to-register group: what a result with its flag writes, and the obligations of 43_alu.md on it. -/

namespace Sys2Proof.Machine

/-! ### The result, then the flag (R9, R95) -/

theorem State.reg_setResult_flag (s : State) (x : Nibble) (r f : Byte) : (s.setResult x r f).reg 0xF#4 = f := by
  rw [State.reg_setResult, if_pos rfl]

theorem State.reg_setResult_of_ne (s : State) (x : Nibble) (r f : Byte) (h : x ≠ 0xF#4) :
    (s.setResult x r f).reg x = r := by
  rw [State.reg_setResult, if_neg h, if_pos rfl]

theorem State.setResult_changesOnly (s : State) (x : Nibble) (r f : Byte) :
    ChangesOnly (fun c => c = .reg x ∨ c = .reg 0xF#4) s (s.setResult x r f) := fun c hc =>
  (s.setReg_changesOnly x r).trans ((s.setReg x r).setReg_changesOnly flagReg f) c fun h => hc h.symm

/-! ### The value of a flag (R21, R100 to R104) -/

theorem flagByte_toNat (b : Bool) : (flagByte b).toNat = b.toNat := by cases b <;> rfl

theorem flagByte_decide_of {p : Prop} [Decidable p] (h : p) : flagByte (decide p) = 0x01#8 := if_pos (decide_eq_true h)

theorem flagByte_decide_of_not {p : Prop} [Decidable p] (h : ¬ p) : flagByte (decide p) = 0x00#8 := by
  rw [decide_eq_false h]
  rfl

theorem flagByte_getLsbD_toNat (b : Byte) (k : Nat) : (flagByte (b.getLsbD k)).toNat = b.toNat / 2 ^ k % 2 :=
  (flagByte_toNat _).trans (Nat.toNat_testBit b.toNat k)

theorem shiftRightFlag_toNat (b : Byte) : (shiftRightFlag b).toNat = b.toNat % 2 :=
  (flagByte_getLsbD_toNat b 0).trans (by rw [pow_zero, Nat.div_one])

theorem shiftLeftFlag_toNat (b : Byte) : (shiftLeftFlag b).toNat = b.toNat / 128 := by
  have := b.isLt
  have hbit : (shiftLeftFlag b).toNat = b.toNat / 2 ^ 7 % 2 := flagByte_getLsbD_toNat b 7
  omega

/-! ### The value of a result (R5, R101 to R104) -/

theorem byte_sub_toNat (a b : Byte) : (a - b).toNat = (a.toNat + 256 - b.toNat) % 256 := by
  have := b.isLt
  rw [BitVec.toNat_sub]
  omega

theorem byte_shiftRight_one_toNat (b : Byte) : (b >>> 1).toNat = b.toNat / 2 := by
  rw [BitVec.toNat_ushiftRight, Nat.shiftRight_one]

theorem byte_shiftLeft_one_toNat (b : Byte) : (b <<< 1).toNat = 2 * b.toNat % 256 := by
  rw [BitVec.toNat_shiftLeft, Nat.shiftLeft_eq, pow_one, Nat.mul_comm]

/-! ### Instructions that are one result with its flag -/

/-- A logic operation, whose flag is 0 whatever the operands are. -/
theorem exec_resetsFlag {i : Instr} {s : State} {x : Nibble} {r : Byte}
    (hexec : exec i s = .next (s.setResult x r (flagByte false))) :
    ∃ t, exec i s = .next t ∧ t.reg 0xF#4 = 0x00#8 ∧ (x ≠ 0xF#4 → t.reg x = r) ∧
      ChangesOnly (fun c => c = .reg x ∨ c = .reg 0xF#4) s t :=
  ⟨_, hexec, s.reg_setResult_flag x r _, s.reg_setResult_of_ne x r _, s.setResult_changesOnly x r _⟩

/-- An operation whose flag is a condition, `set` and `clear` being what decides it, and `n` the result as a number. -/
theorem exec_decidesFlag {i : Instr} {s : State} {x : Nibble} {r : Byte} {n : Nat} {p set clear : Prop} [Decidable p]
    (hexec : exec i s = .next (s.setResult x r (flagByte (decide p)))) (hn : r.toNat = n) (hset : set → p)
    (hclear : clear → ¬ p) :
    ∃ t, exec i s = .next t ∧ (x ≠ 0xF#4 → (t.reg x).toNat = n) ∧ (set → t.reg 0xF#4 = 0x01#8) ∧
      (clear → t.reg 0xF#4 = 0x00#8) ∧ ChangesOnly (fun c => c = .reg x ∨ c = .reg 0xF#4) s t :=
  ⟨_, hexec, fun hx => (congrArg BitVec.toNat (s.reg_setResult_of_ne x r _ hx)).trans hn,
    fun h => (s.reg_setResult_flag x r _).trans (flagByte_decide_of (hset h)),
    fun h => (s.reg_setResult_flag x r _).trans (flagByte_decide_of_not (hclear h)), s.setResult_changesOnly x r _⟩

/-- A shift, `n` and `m` being the result and the flag as numbers. -/
theorem exec_shiftsOut {i : Instr} {s : State} {x : Nibble} {r f : Byte} {n m : Nat}
    (hexec : exec i s = .next (s.setResult x r f)) (hn : r.toNat = n) (hm : f.toNat = m) :
    ∃ t, exec i s = .next t ∧ (x ≠ 0xF#4 → (t.reg x).toNat = n) ∧ (t.reg 0xF#4).toNat = m ∧
      ChangesOnly (fun c => c = .reg x ∨ c = .reg 0xF#4) s t :=
  ⟨_, hexec, fun hx => (congrArg BitVec.toNat (s.reg_setResult_of_ne x r f hx)).trans hn,
    (congrArg BitVec.toNat (s.reg_setResult_flag x r f)).trans hm, s.setResult_changesOnly x r f⟩

/-! ### The obligations of 43_alu.md -/

/-- Settles O22: each of the three writes its result and the flag 0, the flag last (D11). -/
theorem logicResetsFlag : Obligations.LogicResetsFlag := fun _ x y =>
  ⟨decodeWord_encode (.orReg x y) rfl, decodeWord_encode (.andReg x y) rfl, decodeWord_encode (.xorReg x y) rfl,
    List.forall_mem_cons.mpr ⟨exec_resetsFlag rfl,
      List.forall_mem_cons.mpr ⟨exec_resetsFlag rfl, List.forall_mem_singleton.mpr (exec_resetsFlag rfl)⟩⟩⟩

/-- Settles O23: the sum of two bytes wraps (R5), and the flag compares the true sum with 255. -/
theorem addSetsCarry : Obligations.AddSetsCarry := fun _ x y =>
  ⟨decodeWord_encode (.addReg x y) rfl, exec_decidesFlag rfl (BitVec.toNat_add _ _) id Nat.not_lt.mpr⟩

/-- Settles O24: the flag compares the operands as numbers, and SUBN is SUB with its operands exchanged (D10). -/
theorem subtractSetsNoBorrow : Obligations.SubtractSetsNoBorrow := fun _ x y =>
  ⟨decodeWord_encode (.sub x y) rfl, decodeWord_encode (.subn x y) rfl,
    exec_decidesFlag rfl (byte_sub_toNat _ _) BitVec.le_def.mp Nat.not_le_of_lt,
    exec_decidesFlag rfl (byte_sub_toNat _ _) BitVec.le_def.mp Nat.not_le_of_lt⟩

/-- Settles O25: a shift by one halves or doubles `V[y]`, and the bit it puts out is bit 0 or bit 7. -/
theorem shiftsTakeSourceFromY : Obligations.ShiftsTakeSourceFromY := fun _ x y =>
  ⟨decodeWord_encode (.shr x y) rfl, decodeWord_encode (.shl x y) rfl,
    exec_shiftsOut rfl (byte_shiftRight_one_toNat _) (shiftRightFlag_toNat _),
    exec_shiftsOut rfl (byte_shiftLeft_one_toNat _) (shiftLeftFlag_toNat _)⟩

end Sys2Proof.Machine

/-! Clear screen and the sprite compositor: what each leaves in a cell and in the flag, and the obligations of 44_display.md. -/

namespace Sys2Proof.Machine

/-! ### The framebuffer as the only component written (R26) -/

theorem State.setFb_changesOnly (s : State) (fb : Framebuffer) :
    ChangesOnly (fun c => ∃ j, c = .cell j) s (s.setFb fb) := by
  intro c hc
  cases c with
  | cell j => exact absurd ⟨j, rfl⟩ hc
  | keyWait | faultRecord | timing | turn => simp [Component.same]
  | _ => exact rfl

/-! ### The sprite as a picture (R110, R112) -/

theorem State.spritePixel_eq_true_iff (s : State) (x y n : Nibble) (cx cy : Nat) :
    s.spritePixel x y n cx cy = true ↔
      (s.startRow y ≤ cy ∧ cy < s.startRow y + n.toNat ∧ s.startColumn x ≤ cx ∧ cx < s.startColumn x + 8) ∧
        spriteBit (s.mem.read (ea s.i (cy - s.startRow y))) (cx - s.startColumn x) = true := by
  rw [State.spritePixel, Bool.and_eq_true, decide_eq_true_iff]

/-- The picture depends on the sprite's bytes, `I` and the two coordinates alone. -/
theorem State.spritePixel_congr {s t : State} {x y : Nibble} (hmem : t.mem = s.mem) (hi : t.i = s.i)
    (hx : t.reg x = s.reg x) (hy : t.reg y = s.reg y) (n : Nibble) (cx cy : Nat) :
    t.spritePixel x y n cx cy = s.spritePixel x y n cx cy := by
  have hrow : t.startRow y = s.startRow y := congrArg (BitVec.toNat · % 32) hy
  have hcolumn : t.startColumn x = s.startColumn x := congrArg (BitVec.toNat · % 64) hx
  rw [State.spritePixel, State.spritePixel, hmem, hi, hrow, hcolumn]

/-- Drawing XORs the picture onto the screen; clipping is that no cell outside the screen is asked for. -/
theorem State.drawSprite_cell (s : State) (x y n : Nibble) {cx cy : Nat} (hcx : cx < 64) (hcy : cy < 32) :
    (s.drawSprite x y n).fb.cell cx cy = (s.fb.cell cx cy ^^ s.spritePixel x y n cx cy) := by
  obtain ⟨hcell, -⟩ := drawRows_spec s.mem s.i (s.startColumn x) (s.startRow y) n.toNat 0 { fb := s.fb, hit := false }
  simpa only [State.drawSprite, State.spritePixel, Nat.add_zero, hcx, hcy, true_and, and_true] using hcell cx cy

/-- The collision is that a 1 bit of the picture lies on a lit cell of the screen. -/
theorem State.drawSprite_hit_iff (s : State) (x y n : Nibble) :
    (s.drawSprite x y n).hit = true ↔
      ∃ cx cy, cx < 64 ∧ cy < 32 ∧ s.spritePixel x y n cx cy = true ∧ s.fb.cell cx cy = true := by
  obtain ⟨-, hhit⟩ := drawRows_spec s.mem s.i (s.startColumn x) (s.startRow y) n.toNat 0 { fb := s.fb, hit := false }
  refine hhit.trans ((or_iff_right Bool.false_ne_true).trans (exists_congr fun cx => exists_congr fun cy => ?_))
  rw [State.spritePixel_eq_true_iff]
  tauto

/-! ### What `DRW` leaves (R112) -/

theorem exec_drw_cell {s t : State} {x y n : Nibble} (h : exec (.drw x y n) s = .next t) {cx cy : Nat} (hcx : cx < 64)
    (hcy : cy < 32) : t.fb.cell cx cy = (s.fb.cell cx cy ^^ s.spritePixel x y n cx cy) := by
  cases h
  exact s.drawSprite_cell x y n hcx hcy

theorem exec_drw_flag {s t : State} {x y n : Nibble} (h : exec (.drw x y n) s = .next t) :
    t.reg 0xF#4 = flagByte (s.drawSprite x y n).hit := by
  cases h
  exact s.reg_setReg_self flagReg _

theorem flagByte_eq_one_iff (b : Bool) : flagByte b = 0x01#8 ↔ b = true := by cases b <;> decide

theorem exec_drw_flag_eq_one_iff {s t : State} {x y n : Nibble} (h : exec (.drw x y n) s = .next t) :
    t.reg 0xF#4 = 0x01#8 ↔
      ∃ cx cy, cx < 64 ∧ cy < 32 ∧ s.spritePixel x y n cx cy = true ∧ s.fb.cell cx cy = true := by
  rw [exec_drw_flag h, flagByte_eq_one_iff, State.drawSprite_hit_iff]

/-! ### The obligations of 44_display.md -/

/-- Settles O26: the screen it leaves is the blank one, which is the one of the reset state. -/
theorem clearScreen : Obligations.ClearScreen :=
  ⟨decodeWord_encode .cls rfl, fun s =>
    ⟨_, rfl, fun j _ => Framebuffer.cell_blank (j % 64) (j / 64), rfl, s.setFb_changesOnly _⟩⟩

/-- Settles O27: the drawing is the picture XORed onto the screen, and its collision is the flag. -/
theorem drawXorsSprite : Obligations.DrawXorsSprite := by
  intro s x y n
  refine ⟨decodeWord_encode (.drw x y n) rfl, _, rfl, fun cx cy => exec_drw_cell rfl, (exec_drw_flag_eq_one_iff rfl).mpr,
    fun hdark => ?noHit, fun c hc => ?frame⟩
  case noHit =>
    have hhit : (s.drawSprite x y n).hit ≠ true := fun hhit => by
      obtain ⟨cx, cy, hcx, hcy, hbit, hlit⟩ := (s.drawSprite_hit_iff x y n).mp hhit
      exact Bool.false_ne_true ((hdark cx cy hcx hcy hbit).symm.trans hlit)
    exact (exec_drw_flag rfl).trans (congrArg flagByte (Bool.eq_false_of_not_eq_true hhit))
  case frame =>
    exact (s.setReg_changesOnly flagReg _).trans (State.setFb_changesOnly _ _) c fun h => hc h.symm

/-- Settles O28: both draws XOR one picture, which undoes itself; a 1 bit of it that meets a lit cell the second time is one
that turned the cell on the first time. -/
theorem drawTwiceRestores : Obligations.DrawTwiceRestores := by
  intro s t t' u x y n hfirst hfb hmem hi hx hy hsecond
  have hpixel : ∀ cx cy, t'.spritePixel x y n cx cy = s.spritePixel x y n cx cy :=
    State.spritePixel_congr hmem hi hx hy n
  refine ⟨Framebuffer.ext_cell _ _ fun cx cy hcx hcy => ?restored, (exec_drw_flag_eq_one_iff hsecond).trans
    (exists_congr fun cx => exists_congr fun cy => and_congr_right fun hcx => and_congr_right fun hcy => ?collides)⟩
  case restored =>
    rw [exec_drw_cell hsecond hcx hcy, hpixel, hfb, exec_drw_cell hfirst hcx hcy, Bool.xor_assoc, Bool.xor_self, Bool.xor_false]
  case collides =>
    rw [hpixel, hfb, exec_drw_cell hfirst hcx hcy]
    cases s.fb.cell cx cy <;> cases s.spritePixel x y n cx cy <;> decide

end Sys2Proof.Machine

/-! The keypad: what the keypad skips and the key wait write, that a chosen key is remembered only at the waiting instruction, and
the obligations of 45_keypad.md. -/

namespace Sys2Proof.Machine

/-! ### The latch of the key wait as the only component written (R29) -/

theorem State.holdKey_changesOnly (s : State) (k : Nibble) : ChangesOnly (fun c => c = .keyWait) s (s.holdKey k) := by
  intro c hc
  cases c with
  | keyWait => exact absurd rfl hc
  | faultRecord | timing | turn => simp [Component.same]
  | _ => exact rfl

/-- A release leaves `KW_KEY` (R118). -/
theorem State.releaseKey_changesOnly (s : State) : ChangesOnly (fun c => c = .keyWait) s s.releaseKey := by
  intro c hc
  cases c with
  | keyWait => exact absurd rfl hc
  | faultRecord | timing | turn => simp [Component.same]
  | _ => exact rfl

/-! ### The key that is tested, chosen or stored (R115, R118) -/

theorem State.keyIndex_eq_of_toNat (s : State) (x k : Nibble) (h : k.toNat = (s.reg x).toNat % 16) : s.keyIndex x = k :=
  BitVec.eq_of_toNat_eq ((BitVec.toNat_setWidth 4 (s.reg x)).trans h.symm)

/-- A pressed key with no lower key pressed is the one that the wait chooses. -/
theorem State.leastPressed_of_least (s : State) (k : Nibble) (hk : s.pressed k = true)
    (hlow : ∀ j : Nibble, j.toNat < k.toNat → s.pressed j = false) : s.leastPressed = some k := by
  cases hl : s.leastPressed with
  | none =>
    have hnone := s.leastPressed_none.mp hl k
    exact absurd (hnone.symm.trans hk) Bool.false_ne_true
  | some j =>
    obtain ⟨hj, hlow'⟩ := s.leastPressed_some j hl
    have hjk : ¬ j.toNat < k.toNat := fun hlt => Bool.false_ne_true ((hlow j hlt).symm.trans hj)
    have hkj : ¬ k.toNat < j.toNat := fun hlt => Bool.false_ne_true ((hlow' k hlt).symm.trans hk)
    exact congrArg some (BitVec.eq_of_toNat_eq (by omega))

theorem keyByte_toNat (k : Nibble) : (k.setWidth 8 : Byte).toNat = k.toNat :=
  BitVec.toNat_setWidth_of_le (by decide)

/-! ### What the key wait does in each of its phases (R118) -/

theorem exec_ldVxK_of_noKey (s : State) (x : Nibble) (hv : s.kwValid = false) (hl : s.leastPressed = none) :
    exec (.ldVxK x) s = .next s.repeatInstr := by
  simp only [exec, execLdVxK, hv, State.chooseKey, hl, Bool.false_eq_true, if_false]

theorem exec_ldVxK_of_least (s : State) (x k : Nibble) (hv : s.kwValid = false) (hl : s.leastPressed = some k) :
    exec (.ldVxK x) s = .next (s.holdKey k).repeatInstr := by
  simp only [exec, execLdVxK, hv, State.chooseKey, hl, Bool.false_eq_true, if_false]

theorem exec_ldVxK_of_held (s : State) (x : Nibble) (hv : s.kwValid = true) (hk : s.pressed s.kwKey = true) :
    exec (.ldVxK x) s = .next s.repeatInstr := by
  simp only [exec, execLdVxK, hv, hk, if_true]

theorem exec_ldVxK_of_released (s : State) (x : Nibble) (hv : s.kwValid = true) (hk : s.pressed s.kwKey = false) :
    exec (.ldVxK x) s = .next (s.setReg x (s.kwKey.setWidth 8)).releaseKey := by
  simp only [exec, execLdVxK, hv, hk, if_true, Bool.false_eq_true, if_false]

/-! ### `PC` at the waiting instruction (R118) -/

/-- The words of `AtKeyWait` are those of the key wait, by the map of R71. -/
theorem decodeWord_keyWait_iff (w : Word) : (∃ x, decodeWord w = .ok (.ldVxK x)) ↔ w &&& 0xF0FF#16 = 0xF00A#16 := by
  obtain ⟨hselects, -⟩ := opcodeMapSelectsExactly
  refine Iff.trans ⟨?_, ?_⟩ (hselects w ⟨"LD_VX_K", 0xF0FF, 0xF00A⟩ (by decide))
  · rintro ⟨x, hd⟩
    exact ⟨_, hd, rfl⟩
  · rintro ⟨i, hd, hi⟩
    cases i with
    | ldVxK x => exact ⟨x, hd⟩
    | _ => simp [Instr.mnemonic] at hi

theorem AtKeyWait.decodes {s : State} (h : AtKeyWait s) : ∃ x, decodeWord (s.mem.fetchWord s.pc) = .ok (.ldVxK x) := by
  obtain ⟨-, hw⟩ := h
  exact (decodeWord_keyWait_iff _).mpr hw

/-- The latch of the key wait is set only at the waiting instruction, claimed whatever fault is recorded (R118 (6)). -/
def LatchedOnlyAtKeyWait (s : State) : Prop := s.kwValid = true → AtKeyWait s

/-- The key wait goes back to itself, or it stores the key and forgets it. -/
theorem exec_ldVxK_latchedOnlyAtKeyWait (x : Nibble) (s t : State) (hs : AtKeyWait s)
    (h : exec (.ldVxK x) (s.fetched (s.mem.fetchWord s.pc)) = .next t) : LatchedOnlyAtKeyWait t := by
  have hback : (s.fetched (s.mem.fetchWord s.pc)).instrAddr = s.pc := BitVec.add_sub_cancel s.pc 2#16
  have hwaits : ∀ u : State, u.mem = s.mem → u.pc = s.pc → LatchedOnlyAtKeyWait u := fun u hmem hpc _ => by
    rw [AtKeyWait, hmem, hpc]
    exact hs
  obtain ⟨-, -, rfl⟩ | ⟨-, k, -, rfl⟩ | ⟨-, -, rfl⟩ | ⟨-, -, rfl⟩ := execLdVxK_cases x _ t h
  · exact hwaits _ rfl hback
  · exact hwaits _ rfl hback
  · exact hwaits _ rfl hback
  · exact fun hv => absurd hv Bool.false_ne_true

/-- An engine step sets the latch only in the key wait, and where it is set no other instruction executes. -/
theorem engineStep_latchedOnlyAtKeyWait (s t : State) (hs : LatchedOnlyAtKeyWait s) (h : engineStep s = .next t) :
    LatchedOnlyAtKeyWait t := by
  obtain ⟨-, rfl⟩ | ⟨-, e, hd, rfl⟩ | ⟨hpc, i, hd, hx⟩ := engineStep_cases s t h
  · exact hs
  · intro hv
    obtain ⟨x, hwait⟩ := (hs hv).decodes
    cases hd.symm.trans hwait
  · by_cases hi : ∃ x, i = .ldVxK x
    · obtain ⟨x, rfl⟩ := hi
      exact exec_ldVxK_latchedOnlyAtKeyWait x s t ⟨hpc, (decodeWord_keyWait_iff _).mp ⟨x, hd⟩⟩ hx
    · obtain ⟨-, -, -, -, -, hlatch⟩ := writersOfSpecialRegisters i _ t hx
      obtain ⟨hvalid, -⟩ := hlatch fun x hix => hi ⟨x, hix⟩
      intro hv
      obtain ⟨x, hwait⟩ := (hs (hvalid.symm.trans hv)).decodes
      cases hd.symm.trans hwait
      exact absurd ⟨x, rfl⟩ hi

/-- The latch, `PC` and the memory are part of what the engine owns. -/
theorem KeyWaitAtInstruction.congr {s t : State} (h : t.engineOwned = s.engineOwned) (hs : KeyWaitAtInstruction s) :
    KeyWaitAtInstruction t := by
  change KeyWaitAtInstruction t.engineOwned
  rw [h]
  exact hs

theorem State.resetWith_keyWaitAtInstruction (s : State) (image : Option (List Byte)) (now : Rat) :
    KeyWaitAtInstruction (s.resetWith image now) := by
  obtain ⟨bytes, -, -, hr⟩ | hr := s.resetWith_cases image now <;> rw [hr]
  · exact fun _ hv => absurd hv Bool.false_ne_true
  · exact fun hc => absurd rfl hc

/-- The engine moves only with no fault recorded (R150). -/
theorem EngineMove.faultCode_eq_none {s u : State} (h : EngineMove s u) (hs : FaultRecordConsistent s) :
    u.faultCode = .none := by
  obtain ⟨hiff, -⟩ := FaultRecordConsistent.congr h.engineOwned hs
  simpa [h.running] using hiff

/-! ### The obligations of 45_keypad.md -/

/-- Settles O58, by who made the step: the engine, which moves only with no fault recorded, a reset, or an agent that leaves the
latch, `PC` and the memory alone. -/
theorem keyWaitInvariant : Obligations.KeyWaitInvariant := by
  intro s t hfault hs h
  obtain ⟨u, hu, he⟩ | ⟨u, image, now, rfl⟩ | hkeep := step_engineOwned s t h
  · have hlatch : LatchedOnlyAtKeyWait u :=
      KeyWaitAtInstruction.congr hu.engineOwned hs (by simp [hu.faultCode_eq_none hfault])
    exact fun _ => engineStep_latchedOnlyAtKeyWait u t hlatch he
  · exact u.resetWith_keyWaitAtInstruction image now
  · exact .congr hkeep hs

/-- Settles O30: the two waits write `PC` alone, the choice and the release the latch as well. -/
theorem keyWaitPhases : Obligations.KeyWaitPhases := by
  refine fun s x => ⟨decodeWord_encode (.ldVxK x) rfl, fun hv hnone => ?noKey, fun k hv hk hlow => ?chooses,
    fun hv hk => ?held, fun hv hk => ?released⟩
  case noKey =>
    exact ⟨_, exec_ldVxK_of_noKey s x hv (s.leastPressed_none.mpr hnone), rfl, s.setPc_changesOnly _⟩
  case chooses =>
    exact ⟨_, exec_ldVxK_of_least s x k hv (s.leastPressed_of_least k hk hlow), rfl, rfl, rfl,
      (s.holdKey_changesOnly k).trans ((s.holdKey k).setPc_changesOnly _)⟩
  case held =>
    exact ⟨_, exec_ldVxK_of_held s x hv hk, rfl, s.setPc_changesOnly _⟩
  case released =>
    have hreg : (s.setReg x (s.kwKey.setWidth 8)).releaseKey.reg x = s.kwKey.setWidth 8 := s.reg_setReg_self x _
    exact ⟨_, exec_ldVxK_of_released s x hv hk, (congrArg BitVec.toNat hreg).trans (keyByte_toNat s.kwKey), rfl, rfl,
      fun c hc => (s.setReg_changesOnly x _).trans (State.releaseKey_changesOnly _) c fun h => hc h.symm⟩

/-- Settles O29: each of the two is one conditional skip, on the key of the low nibble of `V[x]`. -/
theorem keypadSkips : Obligations.KeypadSkips := by
  intro s x k hk
  obtain rfl := s.keyIndex_eq_of_toNat x k hk
  exact ⟨decodeWord_encode (.skp x) rfl, decodeWord_encode (.sknp x) rfl, exec_skips rfl id id,
    exec_skips rfl (congrArg not) (congrArg not)⟩

end Sys2Proof.Machine

/-! The timers: what is written when one of them is set, and the obligation of 46_timer_index.md on them. -/

namespace Sys2Proof.Machine

/-! ### One timer as the only component written (R25) -/

theorem State.setDt_changesOnly (s : State) (b : Byte) : ChangesOnly (fun c => c = .dt) s (s.setDt b) := by
  intro c hc
  cases c with
  | dt => exact absurd rfl hc
  | keyWait | faultRecord | timing | turn => simp [Component.same]
  | _ => exact rfl

theorem State.setSt_changesOnly (s : State) (b : Byte) : ChangesOnly (fun c => c = .st) s (s.setSt b) := by
  intro c hc
  cases c with
  | st => exact absurd rfl hc
  | keyWait | faultRecord | timing | turn => simp [Component.same]
  | _ => exact rfl

/-! ### The obligation of 46_timer_index.md on the timers -/

/-- Settles O31: each of the three is one write, of a register or of a timer. -/
theorem timerAccess : Obligations.TimerAccess := fun s x =>
  ⟨decodeWord_encode (.ldVxDt x) rfl, decodeWord_encode (.ldDtVx x) rfl, decodeWord_encode (.ldStVx x) rfl,
    exec_writesReg rfl, ⟨_, rfl, s.setDt_dt (s.reg x), s.setDt_changesOnly (s.reg x)⟩,
    ⟨_, rfl, s.setSt_st (s.reg x), s.setSt_changesOnly (s.reg x)⟩⟩

end Sys2Proof.Machine

/-! Loads and stores through `I`: what a block of stores and a block of loads write, and the obligations of 47_memory_ops.md. -/

namespace Sys2Proof.Machine

/-! ### A block of stores from `I` on (R46, R48) -/

theorem State.setMem_writeFrom_changesOnly (s : State) (hm : s.mem.wf) (stored : List Byte) :
    ChangesOnly (StoredFrom s stored.length) s (s.setMem (Memory.writeFrom s.i 0 stored s.mem)) := by
  intro c hc
  cases c with
  | memByte a =>
    have houtside : ∀ j, j < stored.length → a ≠ ea s.i (0 + j) := fun j hj ha =>
      hc ⟨j, hj, by rw [ha, Nat.zero_add]⟩
    exact Memory.read_writeFrom_outside s.i a stored 0 s.mem hm houtside
  | keyWait | faultRecord | timing | turn => simp [Component.same]
  | _ => exact rfl

/-- A store instruction puts its bytes at `EA(0)`, `EA(1)`, … and writes nothing else. -/
theorem exec_storesBytes {i : Instr} {s : State} {stored : List Byte}
    (hexec : exec i s = .next (s.setMem (Memory.writeFrom s.i 0 stored s.mem))) (hm : s.mem.wf)
    (hlen : stored.length ≤ 4096) :
    ∃ t, exec i s = .next t ∧ (∀ k (hk : k < stored.length), t.mem.read (ea s.i k) = stored[k]) ∧
      ChangesOnly (StoredFrom s stored.length) s t := by
  refine ⟨_, hexec, fun k hk => ?_, s.setMem_writeFrom_changesOnly hm stored⟩
  simpa using Memory.read_writeFrom_inside s.i stored 0 s.mem hm hlen k hk

/-! ### The digits of a byte (R44, R127) -/

@[simp] theorem bcdDigits_length (b : Byte) : (bcdDigits b).length = 3 := (rfl)

/-- Each digit of a byte fits a byte. -/
theorem bcdDigits_toNat (b : Byte) :
    (bcdDigits b)[0].toNat = b.toNat / 100 ∧ (bcdDigits b)[1].toNat = b.toNat / 10 % 10 ∧
      (bcdDigits b)[2].toNat = b.toNat % 10 := by
  have hbyte := b.isLt
  refine ⟨?_, ?_, ?_⟩ <;> exact Nat.mod_eq_of_lt (by omega)

/-! ### A block of loads from `I` on (R129) -/

theorem State.reg_setV_loadBlock_loaded (s : State) (x k : Nibble) (h : k.toNat ≤ x.toNat) :
    (s.setV (loadBlock s.mem s.i (x.toNat + 1) s.v)).reg k = s.mem.read (ea s.i k.toNat) :=
  (loadBlock_getElem s.mem s.i (x.toNat + 1) s.v k.toNat k.isLt).trans (if_pos (Nat.lt_succ_of_le h))

theorem State.setV_loadBlock_changesOnly (s : State) (x : Nibble) :
    ChangesOnly (fun c => ∃ k : Nibble, k.toNat ≤ x.toNat ∧ c = .reg k) s
      (s.setV (loadBlock s.mem s.i (x.toNat + 1) s.v)) := by
  intro c hc
  cases c with
  | reg z =>
    have habove : x.toNat < z.toNat := Nat.lt_of_not_le fun hz => hc ⟨z, hz, rfl⟩
    exact s.reg_setV_loadBlock_above x z habove
  | keyWait | faultRecord | timing | turn => simp [Component.same]
  | _ => exact rfl

/-! ### The obligations of 47_memory_ops.md -/

/-- Settles O32: the three digits are a block of stores. -/
theorem bcdStoresDigits : Obligations.BcdStoresDigits := by
  intro s x hm
  obtain ⟨hhundreds, htens, hones⟩ := bcdDigits_toNat (s.reg x)
  obtain ⟨t, hexec, hstored, hframe⟩ :=
    exec_storesBytes (i := .bcd x) (stored := bcdDigits (s.reg x)) rfl hm (by simp)
  refine ⟨decodeWord_encode (.bcd x) rfl, t, hexec, ?_, ?_, ?_, hframe⟩
  · rw [hstored 0 (by simp), hhundreds]
  · rw [hstored 1 (by simp), htens]
  · rw [hstored 2 (by simp), hones]

/-- Settles O33: the registers are a block of stores, one byte for each register. -/
theorem storeRegisterBlock : Obligations.StoreRegisterBlock := by
  intro s x hm
  have hlen := s.regBlock_length x
  obtain ⟨t, hexec, hstored, hframe⟩ := exec_storesBytes (i := .stRegs x) (stored := s.regBlock x) rfl hm (by omega)
  refine ⟨decodeWord_encode (.stRegs x) rfl, t, hexec, fun k hk => ?_, hlen ▸ hframe⟩
  rw [hstored k.toNat (by omega), s.regBlock_getElem, BitVec.ofNat_toNat, BitVec.setWidth_eq]

/-- Settles O34: the loaded registers are those up to `V[x]`. -/
theorem loadRegisterBlock : Obligations.LoadRegisterBlock := fun s x =>
  ⟨decodeWord_encode (.ldRegs x) rfl, _, rfl, s.reg_setV_loadBlock_loaded x, s.setV_loadBlock_changesOnly x⟩

/-- Settles O35: the load reads each byte where the store of O33 left it. -/
theorem storeThenLoadRestores : Obligations.StoreThenLoadRestores := by
  intro s t t' x hm hstore hmem hi
  obtain ⟨-, t₀, hexec, hstored, hframe⟩ := storeRegisterBlock s x hm
  obtain rfl : t₀ = t := Host.Outcome.next.inj (hexec.symm.trans hstore)
  have hikept : t₀.i = s.i := hframe .i (by simp [StoredFrom])
  obtain ⟨-, u, hload, hloaded, -⟩ := loadRegisterBlock t' x
  exact ⟨u, hload, fun k hk => by rw [hloaded k hk, hmem, hi, hikept, hstored k hk]⟩

end Sys2Proof.Machine

/-! The scheduler, faults and reset: what the machine writes besides what the engine owns, what each of its steps is, and the
obligations of 60_exceptions.md and 70_reset_and_hazards.md. -/

namespace Sys2Proof.Machine

/-! ### The frame of a step that leaves what the engine owns (R31, R34, R35) -/

section
variable (s : State)

@[simp] theorem State.quiet_engineOwned : s.quiet.engineOwned = s.engineOwned := (rfl)
@[simp] theorem State.setAgenda_engineOwned (calls : List Call) : (s.setAgenda calls).engineOwned = s.engineOwned := (rfl)
@[simp] theorem State.setPhase_engineOwned (p : Phase) : (s.setPhase p).engineOwned = s.engineOwned := (rfl)
@[simp] theorem State.queueKey_engineOwned (e : KeyEvent) : (s.queueKey e).engineOwned = s.engineOwned := (rfl)
@[simp] theorem State.drainKeys_engineOwned : s.drainKeys.engineOwned = s.engineOwned := (rfl)
@[simp] theorem State.elapse_engineOwned (now : Rat) : (s.elapse now).engineOwned = s.engineOwned := (rfl)
@[simp] theorem State.payTick_engineOwned (q : Rat) : (s.payTick q).engineOwned = s.engineOwned := (rfl)
@[simp] theorem State.pausedNow_engineOwned : s.pausedNow.engineOwned = s.engineOwned := (rfl)
@[simp] theorem State.resumed_engineOwned (now : Rat) : (s.resumed now).engineOwned = s.engineOwned := (rfl)
@[simp] theorem State.presentDisplay_engineOwned : s.presentDisplay.engineOwned = s.engineOwned := (rfl)

end

/-- Where what the engine owns is as before, a frame is left to be shown for what the scheduler and the outside world write:
each of these parts is named as written, or is as before. -/
theorem ChangesOnly.of_engineOwned {s t : State} {written : Component → Prop}
    (owned : t.engineOwned = s.engineOwned) (timers : written .dt ∧ written .st ∨ t.dt = s.dt ∧ t.st = s.st)
    (keys : (∀ k, written (.key k)) ∨ t.key = s.key) (queue : written .keyQueue ∨ t.keyQueue = s.keyQueue)
    (timing : written .timing ∨ t.accI = s.accI ∧ t.accT = s.accT ∧ t.lastT = s.lastT ∧ t.paused = s.paused)
    (turn : written .turn) (outputs : written .outputs) : ChangesOnly written s t := by
  intro c hc
  have hsame : c.same s.engineOwned t.engineOwned := by
    rw [owned]
    cases c <;> simp [Component.same]
  cases c with
  | dt => exact (timers.resolve_left fun hw => hc hw.1).1
  | st => exact (timers.resolve_left fun hw => hc hw.2).2
  | key k => exact congrArg (fun key : Vector Bool 16 => key[k.toNat]) (keys.resolve_left fun hw => hc (hw k))
  | keyQueue => exact queue.resolve_left hc
  | timing => exact timing.resolve_left hc
  | turn => exact absurd turn hc
  | outputs => exact absurd outputs hc
  | _ => exact hsame

/-! ### The steps of the scheduler (R150, R156, R164) -/

theorem step_halted_stuck (s : State) (hp : s.phase = .idle) (ha : s.agenda = []) (hh : s.halted = true) :
    step s = .fault .halted := by
  simp [step, act, stepIdle, hp, ha, hh]

/-- A fault ends the scheduling step or block in which it happens (R149). -/
theorem step_halted_open (s : State) (hp : s.phase ≠ .idle) (hh : s.halted = true) :
    step s = .next (s.quiet.setPhase .idle) := by
  cases hphase : s.phase with
  | idle => exact absurd hphase hp
  | timed => simp [step, act, stepTimed, hphase, hh]
  | block steps tick => simp [step, act, stepBlock, hphase, hh]

theorem step_schedStep (s : State) (now : Rat) (rest : List Call) (hp : s.phase = .idle)
    (ha : s.agenda = .schedStep now :: rest) (hh : s.halted = false) (hnow : s.lastT ≤ now) :
    step s = .next ((s.quiet.setAgenda rest).openTimed now) := by
  rw [step_call s _ rest hp ha]
  simp [perform, not_lt.mpr hnow, hh]

/-- The opening of a scheduling step of a machine that is not paused (R156 (1), (2)). -/
theorem step_schedStep_running (s : State) (now : Rat) (rest : List Call) (hp : s.phase = .idle)
    (ha : s.agenda = .schedStep now :: rest) (hh : s.halted = false) (hz : s.paused = false) (hnow : s.lastT ≤ now) :
    step s = .next (((s.quiet.setAgenda rest).drainKeys.elapse now).setPhase .timed) := by
  rw [step_schedStep s now rest hp ha hh hnow, State.openTimed_running (s.quiet.setAgenda rest) now hz]

theorem step_block_running (s : State) (keys : List KeyEvent) (steps : Nat) (tick : Bool) (rest : List Call)
    (hp : s.phase = .idle) (ha : s.agenda = .block keys steps tick :: rest) (hh : s.halted = false) (hz : s.paused = false) :
    step s = .next (((s.quiet.setAgenda rest).changeKeys keys).setPhase (.block steps tick)) := by
  rw [step_call s _ rest hp ha, perform, if_neg (by simp [hh]),
    State.openBlock_running (s.quiet.setAgenda rest) keys steps tick hz]

theorem step_closeTimed (s : State) (hp : s.phase = .timed) (hh : s.halted = false)
    (hb : s.accI < instrPeriod Config.ips) : step s = .next s.quiet.closeTimed := by
  simp [step, act, stepTimed, hp, hh, not_le.mpr hb]

theorem step_closeBlock (s : State) (tick : Bool) (hp : s.phase = .block 0 tick) (hh : s.halted = false) :
    step s = .next (s.quiet.close tick) := by
  simp [step, act, stepBlock, hp, hh]

/-! ### The engine steps that the budget pays for (R155, R156) -/

/-- The engine steps that the budget of `s` pays for (R156). -/
def State.stepsLeft (s : State) : Nat := ⌊s.accI * (Config.ips : Rat)⌋₊

theorem stepsLeft_eq_zero_iff (s : State) : s.stepsLeft = 0 ↔ s.accI < instrPeriod Config.ips :=
  (lt_instrPeriod_iff s.accI).symm

/-- A step left in the budget is a whole period to pay it with. -/
theorem instrPeriod_le_of_stepsLeft {s : State} {n : Nat} (h : s.stepsLeft = n + 1) : instrPeriod Config.ips ≤ s.accI := by
  rw [← not_lt, ← stepsLeft_eq_zero_iff, h]
  exact Nat.succ_ne_zero n

/-- Paying one period takes one engine step off the budget. -/
theorem stepsLeft_quiet_payInstr {s : State} {n : Nat} (h : s.stepsLeft = n + 1) :
    (s.quiet.payInstr (instrPeriod Config.ips)).stepsLeft = n :=
  (floor_sub_instrPeriod s.accI).trans (congrArg (· - 1) h)

/-! ### A scheduling step beside a block (R164) -/

theorem State.closeTimed_untimed (s : State) : s.closeTimed.untimed = (s.close (decide (1 / 60 ≤ s.accT))).untimed := by
  rcases le_or_gt (1 / 60) s.accT with htick | hno
  · rw [s.closeTimed_tick htick, decide_eq_true htick]
    rfl
  · rw [s.closeTimed_noTick hno, decide_eq_false (not_le.mpr hno)]

/-- Engine steps from states that agree on everything but the timing end in such states. -/
theorem engineStep_untimed_congr {u v : State} (h : u.untimed = v.untimed) :
    ∃ a b, engineStep u = .next a ∧ engineStep v = .next b ∧ a.untimed = b.untimed := by
  obtain ⟨hun, hpaused, hagenda⟩ := (untimed_eq_iff u v).mp h
  obtain ⟨a, b, ha, hb, hab, -⟩ := engineIgnoresTiming u v hun
  obtain ⟨-, -, -, hap, -, -, haa⟩ := engineStep_scheduler u a ha
  obtain ⟨-, -, -, hbp, -, -, hba⟩ := engineStep_scheduler v b hb
  exact ⟨a, b, ha, hb, (untimed_eq_iff a b).mpr ⟨hab, by rw [hap, hbp, hpaused], by rw [haa, hba, hagenda]⟩⟩

/-- A timed machine and one in a block that agree on everything but the timing: both run freely, or the block has as many engine
steps left as the budget pays for, and ends with a tick exactly if a timer period has accumulated. -/
structure Abreast (a b : State) : Prop where
  untimed : a.untimed = b.untimed
  running : a.paused = false
  noCall : a.agenda = []
  phases : (a.phase = .idle ∧ b.phase = .idle) ∨
    (a.phase = .timed ∧ b.phase = .block a.stepsLeft (decide (1 / 60 ≤ a.accT)))

/-- Engine moves of machines abreast lead to machines abreast, the price of the timed one being one step of the block. -/
theorem Abreast.of_engineMoves {a b u v : State} (ha : EngineMove a u) (hb : EngineMove b v) (h : Abreast u v) :
    ∃ a' b', step a = .next a' ∧ step b = .next b' ∧ Abreast a' b' := by
  obtain ⟨huv, hrun, hcall, hphases⟩ := h
  obtain ⟨a', b', hu, hv, hun⟩ := engineStep_untimed_congr huv
  obtain ⟨hI, hT, -, hp, -, hph, hag⟩ := engineStep_scheduler u a' hu
  obtain ⟨-, -, -, -, -, hph', -⟩ := engineStep_scheduler v b' hv
  refine ⟨a', b', (step_engineMove a u ha).trans hu, (step_engineMove b v hb).trans hv, hun, hp.trans hrun,
    hag.trans hcall, ?phases⟩
  case phases =>
    rw [State.stepsLeft] at hphases ⊢
    rwa [hph, hph', hI, hT]

/-- Inside a scheduling step and its block, both machines make an engine step, or both close. -/
theorem Abreast.step_open {a b : State} (h : Abreast a b) (hh : a.halted = false) (hh' : b.halted = false)
    (hp : a.phase = .timed) (hp' : b.phase = .block a.stepsLeft (decide (1 / 60 ≤ a.accT))) :
    ∃ a' b', step a = .next a' ∧ step b = .next b' ∧ Abreast a' b' := by
  obtain ⟨hun, hz, hcall, -⟩ := h
  have hquiet : a.quiet.untimed = b.quiet.untimed := congrArg State.quiet hun
  cases hn : a.stepsLeft with
  | zero =>
    rw [hn] at hp'
    have hclose : a.quiet.closeTimed.untimed = (b.quiet.close (decide (1 / 60 ≤ a.accT))).untimed := by
      rw [State.closeTimed_untimed, State.close_untimed, hquiet, ← State.close_untimed, State.quiet_accT]
    exact ⟨_, _, step_closeTimed a hp hh ((stepsLeft_eq_zero_iff a).mp hn), step_closeBlock b _ hp' hh', hclose,
      a.quiet.closeTimed_paused.trans hz, a.quiet.closeTimed_agenda.trans hcall,
      .inl ⟨a.quiet.closeTimed_phase, b.quiet.close_phase _⟩⟩
  | succ left =>
    rw [hn] at hp'
    have hphases := And.intro hp (congrArg (Phase.block · (decide (1 / 60 ≤ a.accT))) (stepsLeft_quiet_payInstr hn).symm)
    exact Abreast.of_engineMoves (.timed hp hh (instrPeriod_le_of_stepsLeft hn)) (.block left _ hp' hh')
      ⟨hquiet, hz, hcall, .inr hphases⟩

/-- Machines abreast step abreast, or are both stuck after a fault. -/
theorem Abreast.step {a b : State} (h : Abreast a b) :
    (∃ a' b', Machine.step a = .next a' ∧ Machine.step b = .next b' ∧ Abreast a' b') ∨
    (Machine.step a = .fault .halted ∧ Machine.step b = .fault .halted) := by
  have ⟨hun, hz, hcall, hphases⟩ := h
  have hhalted : a.halted = b.halted := (congrArg State.halted hun :)
  have hz' : b.paused = false := (congrArg State.paused hun).symm.trans hz
  have hcall' : b.agenda = [] := (congrArg State.agenda hun).symm.trans hcall
  have hquiet : a.quiet.untimed = b.quiet.untimed := congrArg State.quiet hun
  cases hh : a.halted with
  | true =>
    have hh' : b.halted = true := hhalted.symm.trans hh
    obtain ⟨hp, hp'⟩ | ⟨hp, hp'⟩ := hphases
    · exact .inr ⟨step_halted_stuck a hp hcall hh, step_halted_stuck b hp' hcall' hh'⟩
    · exact .inl ⟨_, _, step_halted_open a (by simp [hp]) hh, step_halted_open b (by simp [hp']) hh', hquiet, hz, hcall,
        .inl ⟨rfl, rfl⟩⟩
  | false =>
    have hh' : b.halted = false := hhalted.symm.trans hh
    obtain ⟨hp, hp'⟩ | ⟨hp, hp'⟩ := hphases
    · exact .inl (Abreast.of_engineMoves (.free ⟨hp, hcall, hh, hz⟩) (.free ⟨hp', hcall', hh', hz'⟩)
        ⟨hquiet, hz, hcall, .inl ⟨hp, hp'⟩⟩)
    · exact .inl (h.step_open hh hh' hp hp')

theorem AgreeUntimed.run_succ {s t s' t' : State} {k : Nat} (hs : step s = .next s') (ht : step t = .next t')
    (h : AgreeUntimed (Host.Core.run Sys2Proof.core k s') (Host.Core.run Sys2Proof.core k t')) :
    AgreeUntimed (Host.Core.run Sys2Proof.core (k + 1) s) (Host.Core.run Sys2Proof.core (k + 1) t) := by
  rw [run_next k s s' hs, run_next k t t' ht]
  exact h

/-- Runs of machines abreast agree on everything but the timing, however long they are. -/
theorem Abreast.run (k : Nat) : ∀ {a b : State}, Abreast a b →
    AgreeUntimed (Host.Core.run Sys2Proof.core k a) (Host.Core.run Sys2Proof.core k b) := by
  induction k with
  | zero => exact fun h => h.untimed
  | succ k ih =>
    intro a b h
    obtain ⟨a', b', ha, hb, hnext⟩ | ⟨ha, hb⟩ := h.step
    · exact .run_succ ha hb (ih hnext)
    · rw [run_fault k a _ ha, run_fault k b _ hb]
      exact rfl

/-- Settles O51: the two openings leave machines abreast. -/
theorem schedStepIsBlock : Obligations.SchedStepIsBlock := by
  intro s now k hp ha hh hz hnow
  refine .run_succ (step_schedStep_running s now [] hp ha hh hz hnow) (step_block_running _ _ _ _ [] hp rfl hh hz)
    (Abreast.run k ⟨?untimed, by simpa using hz, by simp, .inr ⟨by simp, ?steps⟩⟩)
  case untimed =>
    rw [State.setPhase_untimed, State.elapse_untimed, State.setPhase_untimed]
    rfl
  case steps =>
    simp [State.stepsLeft]

/-! ### A whole scheduling step (R155, R156, R158) -/

theorem paidSteps_succ {n : Nat} {s u : State} (h : paidSteps (n + 1) s = some u) :
    ∃ t, engineStep (s.quiet.payInstr (instrPeriod Config.ips)) = .next t ∧ t.halted = false ∧ paidSteps n t = some u := by
  obtain ⟨t, ht⟩ := engineStep_next (s.quiet.payInstr (instrPeriod Config.ips))
  rw [paidSteps, ht] at h
  cases hh : t.halted with
  | true => simp [hh] at h
  | false => exact ⟨t, ht, hh, by simpa [hh] using h⟩

/-- Engine steps that pay take their price off `ACC_I` and leave the rest of the scheduler's state. -/
theorem paidSteps_scheduler (n : Nat) : ∀ {s u : State}, paidSteps n s = some u →
    u.accI = s.accI - n * instrPeriod Config.ips ∧ u.accT = s.accT ∧ u.lastT = s.lastT ∧ u.agenda = s.agenda := by
  induction n with
  | zero =>
    rintro s u h
    cases h
    simp
  | succ n ih =>
    intro s u h
    obtain ⟨t, ht, -, hrest⟩ := paidSteps_succ h
    obtain ⟨hI, hT, hL, -, -, -, hA⟩ := engineStep_scheduler _ t ht
    obtain ⟨hI', hT', hL', hA'⟩ := ih hrest
    refine ⟨?_, hT'.trans hT, hL'.trans hL, hA'.trans hA⟩
    rw [hI', hI, State.payInstr_accI, State.quiet_accI]
    push_cast
    ring

/-- A scheduling step makes the engine steps that its budget pays for, if none of them faults, and then closes. -/
theorem run_paidSteps (n : Nat) : ∀ {s u : State}, s.phase = .timed → s.halted = false → s.stepsLeft = n →
    paidSteps n s = some u → Host.Core.run Sys2Proof.core (n + 1) s = .next u.quiet.closeTimed := by
  induction n with
  | zero =>
    intro s u hp hh hn h
    cases h
    exact run_next 0 s _ (step_closeTimed s hp hh ((stepsLeft_eq_zero_iff s).mp hn))
  | succ n ih =>
    intro s u hp hh hn h
    obtain ⟨t, ht, hth, hrest⟩ := paidSteps_succ h
    obtain ⟨hI, -, -, -, -, hphase, -⟩ := engineStep_scheduler _ t ht
    have hmove := EngineMove.timed hp hh (instrPeriod_le_of_stepsLeft hn)
    have hleft : t.stepsLeft = n := by
      rw [State.stepsLeft, hI]
      exact stepsLeft_quiet_payInstr hn
    exact (run_next (n + 1) s t ((step_engineMove s _ hmove).trans ht)).trans (ih (hphase.trans hp) hth hleft hrest)

/-- Once all whole periods are paid, less than one period is left and no debt. -/
theorem budget_after_floor (a : Rat) (ha : 0 ≤ a) :
    0 ≤ a - ⌊a * (Config.ips : Rat)⌋₊ * instrPeriod Config.ips ∧
      a - ⌊a * (Config.ips : Rat)⌋₊ * instrPeriod Config.ips < instrPeriod Config.ips := by
  have hpos := ips_pos
  have hle := Nat.floor_le (mul_nonneg ha hpos.le)
  have hlt := Nat.lt_floor_add_one (a * (Config.ips : Rat))
  constructor
  · rw [sub_nonneg, instrPeriod, mul_one_div, div_le_iff₀ hpos]
    exact hle
  · rw [sub_lt_iff_lt_add', ← add_one_mul, instrPeriod, mul_one_div, lt_div_iff₀ hpos]
    exact hlt

theorem State.closeTimed_accT (s : State) : s.closeTimed.accT = s.accT - if 1 / 60 ≤ s.accT then 1 / 60 else 0 := by
  rcases le_or_gt (1 / 60) s.accT with htick | hno
  · rw [s.closeTimed_tick htick, if_pos htick]
    rfl
  · rw [s.closeTimed_noTick hno, if_neg (not_le.mpr hno), sub_zero]
    exact s.close_accT false

/-- A step withdraws the output signals of the last one, so that they make no difference to a run (R35). -/
theorem run_succ_quiet (k : Nat) (s : State) :
    Host.Core.run Sys2Proof.core (k + 1) s.quiet = Host.Core.run Sys2Proof.core (k + 1) s := rfl

/-- Settles O50: the opening, the engine steps of `run_paidSteps`, and what they and the close leave of the scheduler's state. -/
theorem schedStepRunsItsBudget : Obligations.SchedStepRunsItsBudget := by
  intro s u now rest n hp ha hh hz hnow hI hn hpaid
  have hstep := step_schedStep_running s now rest hp ha hh hz hnow
  rw [State.openTimed_running (s.setAgenda rest) now hz] at hpaid
  have hsteps : (((s.setAgenda rest).drainKeys.elapse now).setPhase .timed).stepsLeft = n := by
    simp [State.stepsLeft, hn]
  have hphase : (((s.setAgenda rest).drainKeys.elapse now).setPhase .timed).phase = .timed := rfl
  have hruns := run_paidSteps n hphase hh hsteps hpaid
  obtain ⟨huI, huT, huL, huA⟩ := paidSteps_scheduler n hpaid
  have hbudget := budget_after_floor _ (add_nonneg hI (sub_nonneg.mpr hnow))
  have haccI : u.quiet.closeTimed.accI = s.accI + (now - s.lastT) - n * instrPeriod Config.ips :=
    u.quiet.closeTimed_accI.trans huI
  rw [← hn, ← haccI] at hbudget
  obtain ⟨hnonneg, hlt⟩ := hbudget
  refine ⟨?run, u.quiet.closeTimed_phase, u.quiet.closeTimed_agenda.trans huA, haccI, hnonneg, hlt,
    u.quiet.closeTimed_lastT.trans huL, ?accT⟩
  case run =>
    exact (run_next (n + 1) s _ hstep).trans ((run_succ_quiet n _).trans hruns)
  case accT =>
    have haccT : u.accT = s.accT + (now - s.lastT) := huT
    rw [State.closeTimed_accT, State.quiet_accT, haccT]

/-! ### The opening and the close of a scheduling step (R154, R156, R157) -/

theorem countDown_toNat (b : Byte) : (countDown b).toNat = b.toNat - 1 := by
  unfold countDown
  split
  · next h => rw [h]; rfl
  · next h => bv_omega

theorem applyKeys_pressed {s t : State} {events : List KeyEvent} (h : t.key = applyKeys events s.key) (k : Nibble) :
    t.pressed k = keyAfter events k (s.pressed k) := by
  rw [State.pressed, h]
  exact applyKeys_getElem events k s.key

/-- A tick writes the two timers alone (R154). -/
theorem State.tick_changesOnly (s : State) : ChangesOnly (fun c => c = .dt ∨ c = .st) s s.tick := by
  intro c hc
  cases c with
  | dt => exact absurd (.inl rfl) hc
  | st => exact absurd (.inr rfl) hc
  | keyWait | faultRecord | timing | turn => simp [Component.same]
  | _ => exact rfl

/-- Settles O44: a tick is the two decrements. -/
theorem tickCountsDown : Obligations.TickCountsDown := fun s =>
  ⟨countDown_toNat s.dt, countDown_toNat s.st, s.tick_changesOnly⟩

/-- A call that only queues a key event leaves the machine where it stands, one call further (R161). -/
theorem step_queueKey {s : State} {c : Call} {rest : List Call} {e : KeyEvent} (hp : s.phase = .idle)
    (ha : s.agenda = c :: rest) (hc : perform c (s.quiet.setAgenda rest) = .next ((s.quiet.setAgenda rest).queueKey e)) :
    ∃ t, step s = .next t ∧ t.keyQueue = s.keyQueue ++ [e] ∧ t.agenda = rest ∧ t.phase = .idle ∧
      ChangesOnly (fun c => c = .keyQueue ∨ c = .turn ∨ c = .outputs) s t := by
  refine ⟨_, (step_call s c rest hp ha).trans hc, rfl, rfl, hp, ?frame⟩
  case frame => apply ChangesOnly.of_engineOwned <;> simp

/-- Settles O45: both calls queue one key event. -/
theorem keyCallsAreQueued : Obligations.KeyCallsAreQueued := fun _ _ _ hp =>
  ⟨fun ha => step_queueKey hp ha rfl, fun ha => step_queueKey hp ha rfl⟩

/-- Settles O46: the opening drains the queue and feeds the accumulators. -/
theorem schedStepOpens : Obligations.SchedStepOpens := by
  intro s now rest hp ha hh hz hnow
  have hkeys : ((s.quiet.setAgenda rest).drainKeys.elapse now).key = applyKeys s.keyQueue s.key := rfl
  refine ⟨_, step_schedStep_running s now rest hp ha hh hz hnow, applyKeys_pressed hkeys, by simp, by simp, by simp, by simp,
    by simpa using hz, by simp, by simp, ?frame⟩
  case frame => apply ChangesOnly.of_engineOwned <;> simp

/-- Settles O47: the close with a tick, which pays one timer period, and the close without. -/
theorem schedStepCloses : Obligations.SchedStepCloses := by
  intro s hp hh hb
  have hstep := step_closeTimed s hp hh hb
  constructor
  · intro htick
    rw [State.closeTimed_tick s.quiet htick] at hstep
    refine ⟨_, hstep, countDown_toNat s.dt, countDown_toNat s.st, by simp [timerPeriod], by simp, by simp, by simp, by simp,
      by simp, rfl, ?frame⟩
    case frame => apply ChangesOnly.of_engineOwned <;> simp [State.close_engineOwned]
  · intro hno
    rw [State.closeTimed_noTick s.quiet hno] at hstep
    refine ⟨_, hstep, by simp, by simp, rfl, ?frame⟩
    case frame => apply ChangesOnly.of_engineOwned <;> simp [State.close_engineOwned]

/-- Settles O48: `pause` and `resume` are one update of the state each, and the scheduling step drains the keys alone. -/
theorem pauseAndResume : Obligations.PauseAndResume := by
  intro s now rest hp
  refine ⟨fun ha => ?pause, fun ha hnow => ?resume, fun ha hnow hh hz => ?paused⟩
  case pause =>
    refine ⟨_, step_call s _ rest hp ha, rfl, rfl, rfl, rfl, hp, rfl, ?frame⟩
    case frame => apply ChangesOnly.of_engineOwned <;> simp
  case resume =>
    have hperform := (step_call s _ rest hp ha).trans (if_neg (not_lt.mpr hnow))
    refine ⟨_, hperform, rfl, rfl, rfl, rfl, hp, rfl, ?frame⟩
    case frame => apply ChangesOnly.of_engineOwned <;> simp
  case paused =>
    have hstep := step_schedStep s now rest hp ha hh hnow
    rw [State.openTimed_paused (s.quiet.setAgenda rest) now hz] at hstep
    have hkeys : (s.quiet.setAgenda rest).drainKeys.key = applyKeys s.keyQueue s.key := rfl
    refine ⟨_, hstep, applyKeys_pressed hkeys, rfl, hp, rfl, rfl, ?frame⟩
    case frame => apply ChangesOnly.of_engineOwned <;> simp

/-! ### Faults (R141, R148, R150) -/

/-- Settles O41: of the shapes of `exec_effect`, the two stack faults alone write `HALTED`. -/
theorem onlyStackFaultsAtExecute : Obligations.OnlyStackFaultsAtExecute := by
  intro i s hs
  obtain ⟨t, ht⟩ := exec_next i s
  refine ⟨t, ht, ?_⟩
  cases exec_effect i s t ht with
  | underflow hsp => simp [hsp]
  | overflow nnn hsp => simp [hsp]
  | ret j hj => simp [hs, ← hj]
  | call nnn hsp => simp [hs, hsp.ne]
  | loads hi | alu hi | skips hi | malformed hi | writesI hi | stores hi => fin_cases hi <;> simp [hs]
  | _ => simp [hs]

/-- A call on a halted machine is a reset, or writes only what the host itself writes: the queue, `PAUSED` and `LAST_T`. -/
theorem perform_halted {c : Call} {s t : State} (hh : s.halted = true) (hc : ∀ image now, c ≠ .reset image now)
    (h : perform c s = .next t) : t.unscheduled = s.unscheduled ∧ t.accI = s.accI ∧ t.accT = s.accT := by
  obtain ⟨image, now, rfl, -, -⟩ | ⟨k, e, -, rfl⟩ | ⟨now, -, -, ⟨-, rfl⟩ | ⟨hrun, -⟩⟩ | ⟨-, rfl⟩ | ⟨now, -, -, rfl⟩ |
    ⟨keys, steps, tick, -, ⟨-, rfl⟩ | ⟨hrun, -⟩⟩ := perform_cases c s t h
  · exact absurd rfl (hc image now)
  · exact ⟨rfl, rfl, rfl⟩
  · exact ⟨rfl, rfl, rfl⟩
  · exact absurd (hrun.symm.trans hh) Bool.false_ne_true
  · exact ⟨rfl, rfl, rfl⟩
  · exact ⟨rfl, rfl, rfl⟩
  · exact ⟨rfl, rfl, rfl⟩
  · exact absurd (hrun.symm.trans hh) Bool.false_ne_true

/-- A step of a halted machine that is no reset writes only what the host itself writes and where the machine stands. -/
theorem step_halted {s t : State} (hh : s.halted = true) (h : step s = .next t)
    (hc : ∀ image now rest, s.phase = .idle → s.agenda ≠ .reset image now :: rest) :
    t.unscheduled = s.quiet.unscheduled ∧ t.accI = s.accI ∧ t.accT = s.accT := by
  have hno : s.halted ≠ false := by simp [hh]
  obtain ⟨hp, c, rest, ha, hperform⟩ | ⟨-, -, hrun, -⟩ | ⟨-, -, hrun, -⟩ | ⟨-, -, rfl⟩ | ⟨-, hrun, -⟩ | ⟨-, hrun, -⟩ |
    ⟨_, _, -, hrun, -⟩ | ⟨_, -, hrun, -⟩ := step_cases s t h
  · have hcall : ∀ image now, c ≠ .reset image now := fun image now hreset => hc image now rest hp (hreset ▸ ha)
    exact perform_halted (s := s.quiet.setAgenda rest) hh hcall hperform
  · exact absurd hrun hno
  · exact absurd hrun hno
  · exact ⟨rfl, rfl, rfl⟩
  · exact absurd hrun hno
  · exact absurd hrun hno
  · exact absurd hrun hno
  · exact absurd hrun hno

/-- Settles O12: stuck, or at the end of an open scheduling step or block, or a call that is no reset. -/
theorem haltedUntilReset : Obligations.HaltedUntilReset := by
  refine fun s hh => ⟨fun hp ha => step_halted_stuck s hp ha hh, fun hp => ?ends, fun t hstep hc => ?calls⟩
  case ends =>
    refine ⟨_, step_halted_open s hp hh, rfl, rfl, rfl, ?frame⟩
    case frame => apply ChangesOnly.of_engineOwned <;> simp
  case calls =>
    obtain ⟨hun, hI, hT⟩ := step_halted hh hstep hc
    have hout : t.out = Outputs.silent := (congrArg State.out hun :)
    have howned : t.engineOwned = s.engineOwned := (congrArg State.engineOwned hun :)
    have hdt : t.dt = s.dt := (congrArg State.dt hun :)
    have hst : t.st = s.st := (congrArg State.st hun :)
    have hkey : t.key = s.key := (congrArg State.key hun :)
    exact ⟨(congrArg State.halted hun).trans hh, hI, hT, hout,
      .of_engineOwned howned (.inr ⟨hdt, hst⟩) (.inr hkey) (by simp) (by simp) (by simp) (by simp)⟩

/-! ### Reset and load error (R146, R180 to R182) -/

theorem step_reset (s : State) (image : Option (List Byte)) (now : Rat) (rest : List Call) (hp : s.phase = .idle)
    (ha : s.agenda = .reset image now :: rest) (hnow : 0 ≤ now) :
    step s = .next ((s.quiet.setAgenda rest).resetWith image now) :=
  (step_call s _ rest hp ha).trans (if_neg (not_lt.mpr hnow))

/-- An image that is too long, or unreadable, is a load error (R182). -/
theorem State.resetWith_unacceptable (s : State) (image : Option (List Byte)) (now : Rat)
    (h : ∀ bytes, image = some bytes → maxImage < bytes.length) : s.resetWith image now = s.loadError := by
  obtain ⟨bytes, himage, hlen, -⟩ | hr := s.resetWith_cases image now
  · exact absurd hlen (not_le.mpr (h bytes himage))
  · exact hr

/-- Settles O53: of the state before, `State.coldBoot` has kept the draw counter alone. -/
theorem resetForgetsThePast : Obligations.ResetForgetsThePast := by
  intro s t image now rest hsp htp hsa hta hlen hnow
  have hs := step_reset s _ now rest hsp hsa hnow
  have ht := step_reset t _ now rest htp (hta.trans hsa) hnow
  rw [State.resetWith_some _ image now hlen] at hs ht
  exact ⟨_, _, hs, ht, rfl, rfl⟩

/-- Settles O54: the reset is a load error, which sets the fault record. -/
theorem loadErrorHalts : Obligations.LoadErrorHalts := by
  intro s image now rest hp ha hnow himage
  have hstep := step_reset s image now rest hp ha hnow
  rw [State.resetWith_unacceptable _ image now himage] at hstep
  exact ⟨_, hstep, rfl, rfl, rfl, rfl⟩

end Sys2Proof.Machine
